-- ==== Sys2Proof/Word.lean ====
section
/-! DEFINITION. The word types of the block and the two input word formats (30_encoding.md R90). -/

namespace Sys2Proof

/-- A host register, a path token or a pixel: 32 bits (10_state.md R33 to R36). -/
abbrev Word := BitVec 32

/-- One byte of the output stream. -/
abbrev Byte := BitVec 8

/-- An engine-operation word: 35 bits (30_encoding.md R92). -/
abbrev EopWord := BitVec 35

/-- A word of one of the two input formats of 30_encoding.md R90: what the host writes to `CMD`, or what drives
the Quantizer and the LZW engine. Every instruction is exactly one word. -/
inductive InWord where
  | cmd (w : Word)
  | eop (w : EopWord)
deriving DecidableEq, Repr

end Sys2Proof
end

