-- ==== Sys2Proof/Config.lean ====
section
/-! DEFINITION. The parameters of 00_scope.md R5 as one record, their values on this hardware, and the free values. -/

namespace Sys2Proof

/-- The parameters of 00_scope.md R5; those the table derives from others are functions below. -/
structure Config where
  /-- `W`, frame width in pixels. -/
  width : Nat
  /-- `H`, frame height in pixels. -/
  height : Nat
  /-- `ICS`, the LZW minimum code size. -/
  ics : Nat
  /-- `MAXBITS`, the maximum code width. -/
  maxBits : Nat
  /-- `HSIZE`, hash table slots. -/
  hsize : Nat
  /-- `HSHIFT`, the hash shift. -/
  hshift : Nat
  /-- `PKT_MAX`, payload bytes of a full sub-block. -/
  pktMax : Nat
  /-- `DELAY`, the frame delay in hundredths of a second. -/
  delay : Nat
  /-- `QR`, `QG`, `QB`: luma weights. -/
  qr : Nat
  qg : Nat
  qb : Nat
  /-- `QT`, the luma threshold. -/
  qt : Nat
  /-- `PAL`, the global color table bytes. -/
  palette : List Byte
deriving DecidableEq, Repr

namespace Config

/-- `NPIX = W*H`, symbols per frame. -/
def npix (c : Config) : Nat := c.width * c.height

/-- `MAXMAXCODE = 1 << MAXBITS`, the dictionary capacity. -/
def maxMaxCode (c : Config) : Nat := 2 ^ c.maxBits

/-- `CLEAR = 1 << ICS`, the ClearCode. -/
def clear (c : Config) : Nat := 2 ^ c.ics

/-- `EOFC = CLEAR + 1`, the EOFCode. -/
def eofc (c : Config) : Nat := c.clear + 1

/-- `FIRST = CLEAR + 2`, the first dictionary code. -/
def first (c : Config) : Nat := c.clear + 2

/-- This hardware: the "value" column of 00_scope.md R5. -/
def hw : Config where
  width := 128
  height := 64
  ics := 2
  maxBits := 12
  hsize := 5003
  hshift := 4
  pktMax := 254
  delay := 2
  qr := 306
  qg := 601
  qb := 117
  qt := 512
  palette := [0x00#8, 0x00#8, 0x00#8, 0xFF#8, 0xFF#8, 0xFF#8]

/-- FREE VALUE: the host's answer to sink request number `n` (counted from reset) where the state lists no answer
for it. 20_memory.md R71: "The host's answer to each request is a *draw*". Log 2. -/
opaque hostAnswer : Nat → Bool

/-- FREE VALUE: which of the old and new words the `n`-th raced frame-buffer read returns, as an index into the
candidates. 20_memory.md R78: "each `FB[i]` read returns either the old or the new word (a draw per read)". Log 11. -/
opaque raceChoice : Nat → Nat

end Config

end Sys2Proof
end

