-- ==== Sys2Proof/Syntax.lean ====
section
/-! DEFINITION. The eight operations of spec/opcode_table.json. -/

namespace Sys2Proof

/-- One constructor for each row of the opcode table (30_encoding.md R109). Every operand bit of the encoding is an
argument, the ignored ones too (R111). -/
inductive Instr where
  /-- START: open a session at `PATH` (41_gif_formatter.md R141); `LEN` is ignored. -/
  | start (len : BitVec 24)
  /-- ADDFRAME: append the frame in `FB` (R145); `len` is the pixel count the host claims. -/
  | addframe (len : BitVec 24)
  /-- FINISH: end the session and publish at `PATH` (R160); `LEN` is ignored. -/
  | finish (len : BitVec 24)
  /-- ONESHOT: a complete single-frame document at `PATH` (R165). -/
  | oneshot (len : BitVec 24)
  /-- LZW_BEGIN: start the compression of one frame (42_lzw_engine.md R183). -/
  | lzwBegin
  /-- LZW_SYMBOL: consume one symbol (R185). -/
  | lzwSymbol (sym : BitVec 8)
  /-- LZW_END: finish the frame's code stream (R198). -/
  | lzwEnd
  /-- QUANT: map one pixel word to a palette index (40_quantizer.md R130). -/
  | quant (pixel : Word)
deriving DecidableEq, Repr

end Sys2Proof
end

