-- ==== Sys2Proof/Machine/State.lean ====
section
/-! DEFINITION. The state of the block and of the host agents around it, the reasons a step can stop, and reset
(10_state.md). -/

namespace Sys2Proof.Machine

/-- `sess` (10_state.md R28): 0 = Idle, 1 = Started. -/
inductive Session where
  | idle
  | started
deriving DecidableEq, Repr

/-- The two sink contexts (10_state.md R39): `S`, the session's, and `O`, ONESHOT's. -/
inductive Ctx where
  | session
  | oneshot
deriving DecidableEq, Repr

/-- The sink requests of 20_memory.md R70. -/
inductive Request where
  /-- OPEN: create or truncate a sink at `path` and bind it to `ctx`. -/
  | openSink (ctx : Ctx) (path : Word)
  /-- WRITE: append `byte` to the sink bound to `ctx`. -/
  | write (ctx : Ctx) (byte : Byte)
  /-- CLOSE: flush and release the sink bound to `ctx`. -/
  | close (ctx : Ctx)
  /-- RENAME: rename the file at `source` to `target`. -/
  | rename (source target : Word)
  /-- DELETE: delete the file at `path`. -/
  | delete (path : Word)
deriving DecidableEq, Repr

/-- `last_cause` (10_state.md R32): the causes of 60_exceptions.md R240. -/
inductive Cause where
  | none
  | alreadyStarted
  | notStarted
  | sizeMismatch
  | ioFailure
  | illegalCommand
deriving DecidableEq, Repr

/-- A memory of elements of type `α`: the listed elements with their indexes, in the canonical form of `Memory.wf`
(Machine/Ops.lean). An index that is not listed reads as the memory's default element. -/
abbrev Memory (α : Type) := List (Nat × α)

/-- One slot of `HT` (10_state.md R37). -/
structure Slot where
  valid : Bool
  fcode : BitVec 20
  code : BitVec 12
deriving DecidableEq, Repr

/-- The formatter's state (10_state.md R26, R28, R29, R31, R32). `STATUS` is a view of `result` (R35). -/
structure Formatter where
  sess : Session
  firstPending : Bool
  workPath : Word
  result : Bool
  lastCause : Cause
deriving DecidableEq, Repr

/-- The LZW engine: the eight datapath registers of 10_state.md R21, the dictionary memory `HT` (R37) and the packet
buffer `PKT` (R24). -/
structure Engine where
  ent : BitVec 12
  haveEnt : Bool
  freeEnt : BitVec 13
  nBits : BitVec 4
  acc : BitVec 19
  accBits : BitVec 5
  pktCnt : BitVec 8
  lzwActive : Bool
  ht : Memory Slot
  pkt : List Host.Cell
deriving DecidableEq, Repr

/-- The capture controller, a host-side agent (43_capture_contract.md R230). -/
structure Controller where
  singleReq : Bool
  continuous : Bool
  shotPath : Word
deriving DecidableEq, Repr

/-- What the host can do between commands. Log 1. -/
inductive HostMove where
  /-- Write register `reg` (10_state.md R33 to R35): 0 CMD, which starts a command, 1 PATH, 2 STATUS. -/
  | writeReg (reg : Nat) (value : Word)
  /-- Read register `reg`. -/
  | readReg (reg : Nat)
  /-- Write frame-buffer word `index` (10_state.md R36). -/
  | writeFb (index : Nat) (pixel : Word)
  /-- Begin a frame-buffer write that is in flight during the next ADDFRAME or ONESHOT (20_memory.md R78). Log 11. -/
  | raceFb (index : Nat) (pixel : Word)
  /-- Drive the Quantizer or the LZW engine alone by an `EOP` word (42_lzw_engine.md R181). Log 8. -/
  | engineOp (word : EopWord)
  /-- One tick of the capture controller (43_capture_contract.md R231). Log 18. -/
  | tick
  /-- The controller clears `single_req` after its ONESHOT (43_capture_contract.md R231). -/
  | clearSingle
  /-- The excluded UI layer sets the controller's flags and path (43_capture_contract.md R230). -/
  | setController (controller : Controller)
  /-- The reset event, between commands (10_state.md R47, 70_reset_and_hazards.md R271). Log 14. -/
  | reset
deriving DecidableEq, Repr

/-- The agents around the block and the record of what the block showed them: the model's own fields. -/
structure Env where
  /-- What the host does next, oldest first. Log 1. -/
  inbox : List HostMove
  /-- The host's answers to the next sink requests, oldest first (20_memory.md R71); past the end the answer is
  `Config.hostAnswer`. Log 2. -/
  answers : List Bool
  /-- The number, counted from reset, of the sink request the host never answers (20_memory.md R81). Log 3. -/
  unanswered : Option Nat
  /-- The sink requests issued so far, each with its answer, oldest first (00_scope.md R8(b)). Log 19. -/
  log : List (Request × Bool)
  /-- The host's frame-buffer writes in flight (20_memory.md R78), oldest first. Log 11. -/
  racing : List (Nat × Word)
  /-- How many raced frame-buffer reads there were: the index of the next `Config.raceChoice`. Log 11. -/
  fbDraws : Nat
  /-- The capture controller. Log 18. -/
  controller : Controller
  /-- What the host's last register read returned. Log 20. -/
  readData : Word
  /-- The output list of engine operations driven alone (42_lzw_engine.md R181). Log 8. -/
  engineOut : List Byte
  /-- The bit QUANT returned last when driven alone (30_encoding.md R92). Log 9. -/
  quantOut : Bool
deriving DecidableEq, Repr

/-- The machine: the block (10_state.md section 1) and the agents around it. `CMD` holds no state (R33). -/
structure State where
  fmt : Formatter
  /-- `PATH` (10_state.md R34). -/
  path : Word
  /-- `pix_idx` (10_state.md R27). -/
  pixIdx : BitVec 24
  eng : Engine
  /-- `FB` (10_state.md R36). -/
  fb : Memory Word
  env : Env
deriving DecidableEq, Repr

/-- The reasons the machine stops with a fault. -/
inductive Fault where
  /-- Raised by a command that issues the request the host never answers (20_memory.md R81, U12 "stuck"). Safe. -/
  | sinkStall
  /-- Raised by LZW_SYMBOL, ADDFRAME and ONESHOT where the probe of 42_lzw_engine.md R188 meets neither its key nor an
  empty slot and so never ends; R189 shows that no run gets there. Safe. -/
  | probeEndless
  /-- Raised by a host access to a register number other than 0, 1, 2 (10_state.md R33 to R35). Safe. -/
  | noSuchRegister
  /-- Raised by a host write to a frame-buffer index of `NPIX` or more (10_state.md R36). Safe. -/
  | fbIndexOutOfRange
deriving DecidableEq, Repr

/-- The situations that have no meaning: the spec's `refuse` (60_exceptions.md R251). -/
inductive Refusal where
  /-- Raised by `exec` for an instruction that has no meaning yet. Safe. -/
  | notModelled (mnemonic : String)
  /-- Raised by the step for an `EOP` word that selects no row (30_encoding.md R112, U9). Safe. -/
  | reservedEop
  /-- Raised by LZW_SYMBOL for a symbol of `CLEAR` or more (42_lzw_engine.md R184, U4). Safe. -/
  | illegalSymbol
  /-- Raised by LZW_SYMBOL and LZW_END while `lzw_active = 0` (42_lzw_engine.md R184, R198, U4). Safe. -/
  | engineInactive
  /-- Raised by LZW_END with no symbol consumed (42_lzw_engine.md R199, U4). Safe. -/
  | endWithoutSymbol
  /-- Raised by ONESHOT with `PATH` equal to the `work_path` of the open session (41_gif_formatter.md R166(f), U5).
  Safe. -/
  | sharedPath
deriving DecidableEq, Repr

/-- The state after reset (10_state.md R46, 70_reset_and_hazards.md R270). The spec gives `sess`, `first_pending`,
`RESULT`, `last_cause`, `PATH` and `lzw_active`; every other element is "unspecified" there and 0, empty or off here.
DESIGN CHOICE: logs 2 to 6, 9, 11, 18, 20. -/
def State.reset : State where
  fmt := { sess := .idle, firstPending := true, workPath := 0#32, result := false, lastCause := .none }
  path := 0#32
  pixIdx := 0#24
  eng :=
    { ent := 0#12, haveEnt := false, freeEnt := 0#13, nBits := 0#4, acc := 0#19, accBits := 0#5, pktCnt := 0#8
      lzwActive := false, ht := [], pkt := [] }
  fb := []
  env :=
    { inbox := [], answers := [], unanswered := none, log := [], racing := [], fbDraws := 0
      controller := { singleReq := false, continuous := false, shotPath := 0#32 }
      readData := 0#32, engineOut := [], quantOut := false }

end Sys2Proof.Machine
end

