-- ==== Sys2Proof/Machine/Ops.lean ====
section
/-! DEFINITION. The operations the meanings share: memories in canonical form, field setters, engine register updates,
sink requests, the end of a command, taking a failure, and the result of an operation that may raise. -/

namespace Sys2Proof.Machine

/-! ### Memories -/

/-- The canonical form: indexes strictly rising, no listed element equal to what an unlisted index reads as. -/
def Memory.wf {α : Type} [DecidableEq α] (unlisted : α) : Memory α → Bool
  | [] => true
  | (i, v) :: rest => !decide (v = unlisted) && rest.all (fun cell => decide (i < cell.1)) && Memory.wf unlisted rest

/-- The element at index `i`. -/
def Memory.read {α : Type} (unlisted : α) : Memory α → Nat → α
  | [], _ => unlisted
  | (j, v) :: rest, i => if j = i then v else Memory.read unlisted rest i

/-- The memory with element `v` at index `i`; the canonical form is kept. -/
def Memory.write {α : Type} [DecidableEq α] (unlisted : α) : Memory α → Nat → α → Memory α
  | [], i, v => if v = unlisted then [] else [(i, v)]
  | (j, w) :: rest, i, v =>
    if i < j then (if v = unlisted then (j, w) :: rest else (i, v) :: (j, w) :: rest)
    else if i = j then (if v = unlisted then rest else (i, v) :: rest)
    else (j, w) :: Memory.write unlisted rest i v

/-- The memory with `f` applied to every element (`f` keeps the unlisted element). -/
def Memory.mapAll {α : Type} [DecidableEq α] (unlisted : α) (f : α → α) : Memory α → Memory α
  | [] => []
  | (i, v) :: rest =>
    if f v = unlisted then Memory.mapAll unlisted f rest else (i, f v) :: Memory.mapAll unlisted f rest

/-- What a frame-buffer word that nothing has written reads as. DESIGN CHOICE, unsafe: log 6. -/
def unlistedPixel : Word := 0#32

/-- What a dictionary slot that nothing has written holds: an empty slot. DESIGN CHOICE, unsafe: log 5. -/
def unlistedSlot : Slot := { valid := false, fcode := 0#20, code := 0#12 }

/-- What a packet-buffer byte that nothing has written holds. DESIGN CHOICE, unsafe: log 5. -/
def unlistedByte : Byte := 0#8

/-! ### Setters of the state's fields -/

def State.setFmt (s : State) (fmt : Formatter) : State := { s with fmt := fmt }

def State.setPath (s : State) (path : Word) : State := { s with path := path }

def State.setPixIdx (s : State) (pixIdx : BitVec 24) : State := { s with pixIdx := pixIdx }

def State.setEng (s : State) (eng : Engine) : State := { s with eng := eng }

def State.setFb (s : State) (fb : Memory Word) : State := { s with fb := fb }

def State.setEnv (s : State) (env : Env) : State := { s with env := env }

/-! ### Formatter updates -/

/-- A command's end: `RESULT` and the ghost `last_cause` (10_state.md R31, R32). -/
def Formatter.returned (f : Formatter) (result : Bool) (cause : Cause) : Formatter :=
  { f with result := result, lastCause := cause }

/-- A session opened at `path` (41_gif_formatter.md R141). -/
def Formatter.openSession (f : Formatter) (path : Word) : Formatter :=
  { f with sess := .started, firstPending := true, workPath := path }

/-- The structural header has been written (41_gif_formatter.md R147). -/
def Formatter.headerWritten (f : Formatter) : Formatter := { f with firstPending := false }

/-- The session is over (41_gif_formatter.md R160). -/
def Formatter.closeSession (f : Formatter) : Formatter := { f with sess := .idle }

/-! ### Engine register updates

Values are computed on naturals and stored at the register's width (10_state.md R21); 42_lzw_engine.md R214 says that
they fit. Log 13. -/

/-- Dictionary slot `k`. -/
def Engine.slot (e : Engine) (k : Nat) : Slot := Memory.read unlistedSlot e.ht k

/-- Packet-buffer byte `k`. -/
def Engine.pktByte (e : Engine) (k : Nat) : Byte := Memory.read unlistedByte e.pkt k

/-- `for every k in 0 .. HSIZE: HT[k].valid <- 0`. -/
def Engine.clearValid (e : Engine) : Engine :=
  { e with ht := Memory.mapAll unlistedSlot (fun slot => { slot with valid := false }) e.ht }

/-- The registers LZW_BEGIN writes (42_lzw_engine.md R183). -/
def Engine.begin (c : Config) (e : Engine) : Engine :=
  { e.clearValid with
    freeEnt := BitVec.ofNat 13 c.first, nBits := BitVec.ofNat 4 (c.ics + 1), acc := 0#19, accBits := 0#5
    pktCnt := 0#8, haveEnt := false, lzwActive := true }

/-- `acc <- acc | (v << acc_bits)`, `acc_bits <- acc_bits + n_bits` (R195). -/
def Engine.pack (e : Engine) (v : Nat) : Engine :=
  { e with
    acc := BitVec.ofNat 19 (e.acc.toNat ||| (v <<< e.accBits.toNat))
    accBits := BitVec.ofNat 5 (e.accBits.toNat + e.nBits.toNat) }

/-- `acc <- acc >> 8`, `acc_bits <- acc_bits - 8` (R195). -/
def Engine.dropByte (e : Engine) : Engine :=
  { e with acc := e.acc >>> 8, accBits := BitVec.ofNat 5 (e.accBits.toNat - 8) }

/-- `n_bits <- n`. -/
def Engine.setWidth (e : Engine) (n : Nat) : Engine := { e with nBits := BitVec.ofNat 4 n }

/-- `PKT[pkt_cnt] <- b`, `pkt_cnt <- pkt_cnt + 1` (R200). -/
def Engine.storePkt (e : Engine) (b : Byte) : Engine :=
  { e with
    pkt := Memory.write unlistedByte e.pkt e.pktCnt.toNat b
    pktCnt := BitVec.ofNat 8 (e.pktCnt.toNat + 1) }

/-- `pkt_cnt <- 0` (R201). -/
def Engine.emptyPkt (e : Engine) : Engine := { e with pktCnt := 0#8 }

/-- `acc <- 0`, `acc_bits <- 0` (R198). -/
def Engine.clearAcc (e : Engine) : Engine := { e with acc := 0#19, accBits := 0#5 }

/-- `ent <- v`. -/
def Engine.setEnt (e : Engine) (v : Nat) : Engine := { e with ent := BitVec.ofNat 12 v }

/-- `have_ent <- 1`. -/
def Engine.markEnt (e : Engine) : Engine := { e with haveEnt := true }

/-- `HT[i] <- (1, fcode, free_ent)`, `free_ent <- free_ent + 1` (R185). -/
def Engine.insert (e : Engine) (i : Nat) (fcode : BitVec 20) : Engine :=
  { e with
    ht := Memory.write unlistedSlot e.ht i { valid := true, fcode := fcode, code := BitVec.ofNat 12 e.freeEnt.toNat }
    freeEnt := BitVec.ofNat 13 (e.freeEnt.toNat + 1) }

/-- The dictionary made empty, `free_ent <- FIRST` (R194). -/
def Engine.restart (c : Config) (e : Engine) : Engine := { e.clearValid with freeEnt := BitVec.ofNat 13 c.first }

/-- `lzw_active <- 0` (R198). -/
def Engine.stop (e : Engine) : Engine := { e with lzwActive := false }

/-! ### Sink requests -/

/-- A request as the record on the channel: kind code, context bit and the two arguments. -/
structure ChannelRecord where
  kind : BitVec 3
  ctx : BitVec 1
  a : Word
  b : Word
deriving DecidableEq, Repr

/-- `ctx` is one bit: 0 = `S`, 1 = `O` (20_memory.md R70). -/
def Ctx.bit : Ctx → BitVec 1
  | .session => 0#1
  | .oneshot => 1#1

/-- The record of a request (20_memory.md R70); unused arguments are 0. -/
def Request.record : Request → ChannelRecord
  | .openSink ctx path => { kind := 1#3, ctx := ctx.bit, a := path, b := 0#32 }
  | .write ctx byte => { kind := 2#3, ctx := ctx.bit, a := byte.setWidth 32, b := 0#32 }
  | .close ctx => { kind := 3#3, ctx := ctx.bit, a := 0#32, b := 0#32 }
  | .rename source target => { kind := 4#3, ctx := 0#1, a := source, b := target }
  | .delete path => { kind := 5#3, ctx := 0#1, a := path, b := 0#32 }

/-- The host's answer to the next request: the next listed one, else the free value (20_memory.md R71). Log 2. -/
def Env.nextAnswer (env : Env) : Bool := env.answers.headD (Config.hostAnswer env.log.length)

/-- One request issued and answered. -/
def Env.answered (env : Env) (r : Request) : Env :=
  { env with answers := env.answers.tail, log := env.log ++ [(r, env.nextAnswer)] }

/-- `SinkReq(kind, ctx, args) -> ok` (00_scope.md section 6, 20_memory.md R70). -/
def sinkReq (r : Request) (s : State) : Bool × State := (s.env.nextAnswer, s.setEnv (s.env.answered r))

/-- `Write(ctx, bytes)` (20_memory.md R72): one WRITE a byte, stopping at the first `fail`, which is `false` here. -/
def writeAll (ctx : Ctx) : List Byte → State → Bool × State
  | [], s => (true, s)
  | b :: bytes, s =>
    match sinkReq (.write ctx b) s with
    | (false, t) => (false, t)
    | (true, t) => writeAll ctx bytes t

/-! ### Operations that may raise -/

/-- How an operation ends. -/
inductive Res where
  /-- It completes. -/
  | ok (s : State)
  /-- It raises `IOFailure` (60_exceptions.md R241) in this state. -/
  | raised (s : State)
  /-- Its probe never ends (42_lzw_engine.md R188). Log 12. -/
  | endless
deriving DecidableEq, Repr

/-- The next operation, if this one completes. -/
def Res.bind : Res → (State → Res) → Res
  | .ok s, f => f s
  | .raised s, _ => .raised s
  | .endless, _ => .endless

/-- Where the engine's `Out` goes (42_lzw_engine.md R181): to the sink of the enclosing command, or, for the engine
driven alone, to its output list. -/
inductive Port where
  | sink (ctx : Ctx)
  | list
deriving DecidableEq, Repr

/-- `Out(bytes)` (42_lzw_engine.md R181). -/
def out (port : Port) (bytes : List Byte) (s : State) : Res :=
  match port with
  | .sink ctx =>
    match writeAll ctx bytes s with
    | (true, t) => .ok t
    | (false, t) => .raised t
  | .list => .ok (s.setEnv { s.env with engineOut := s.env.engineOut ++ bytes })

/-! ### The frame buffer -/

/-- The words a read of `FB[i]` may return: the one `FB` holds, and those the host is writing there meanwhile
(20_memory.md R78). -/
def pixelCandidates (s : State) (i : Nat) : List Word :=
  Memory.read unlistedPixel s.fb i :: (s.env.racing.filter (fun cell => cell.1 = i)).map Prod.snd

/-- Whether the host is writing `FB[i]` while the command runs. -/
def raced (s : State) (i : Nat) : Bool := s.env.racing.any (fun cell => cell.1 = i)

/-- `MemRead(FB, i)`: the word, and the state with a draw used up if the read was raced (20_memory.md R78). Log 11. -/
def readPixel (i : Nat) (s : State) : Word × State :=
  if raced s i then
    ((pixelCandidates s i).getD (Config.raceChoice s.env.fbDraws % (pixelCandidates s i).length) unlistedPixel,
      s.setEnv { s.env with fbDraws := s.env.fbDraws + 1 })
  else (Memory.read unlistedPixel s.fb i, s)

/-- The host's writes in flight, landed in `FB`: the end of an ADDFRAME or ONESHOT (20_memory.md R78). Log 11. -/
def landRaces (s : State) : State :=
  (s.setFb (s.env.racing.foldl (fun m cell => Memory.write unlistedPixel m cell.1 cell.2) s.fb)).setEnv
    { s.env with racing := [] }

/-! ### The end of a command -/

/-- The common part of a command's failure (60_exceptions.md R241): `RESULT <- 0`, ghost `last_cause <- code`. -/
def failCommand (cause : Cause) (s : State) : State := s.setFmt (s.fmt.returned false cause)

/-- A command's success: ghost `last_cause <- 0`, `RESULT <- 1`. -/
def completeCommand (s : State) : State := s.setFmt (s.fmt.returned true .none)

/-- The LZW state left behind by a command that raised inside it is dead (10_state.md R45, which lets a model reset it);
`lzw_active` is cleared so that nothing can read it. DESIGN CHOICE, safe: log 7. -/
def abandonEngine (s : State) : State := s.setEng s.eng.stop

/-- A command ran from `s` to `t`. If the host leaves one of its requests unanswered the command never ends
(20_memory.md R81, U12). Log 3. -/
def settle (s t : State) : Host.Outcome State Fault Refusal :=
  match s.env.unanswered with
  | none => .next t
  | some n => if n < t.env.log.length then .fault .sinkStall else .next t

end Sys2Proof.Machine
end

