-- ==== Sys2Proof/Machine/Operands.lean ====
section
/-! DEFINITION. Operand forms: pixel fields, the pixel count, the search key and the first hash index, 16-bit stream
fields. -/

namespace Sys2Proof.Machine

/-- `R = p[23:16]` (30_encoding.md R105). -/
def pixelR (p : Word) : BitVec 8 := p.extractLsb' 16 8

/-- `G = p[15:8]` (30_encoding.md R105). -/
def pixelG (p : Word) : BitVec 8 := p.extractLsb' 8 8

/-- `B = p[7:0]` (30_encoding.md R105). -/
def pixelB (p : Word) : BitVec 8 := p.extractLsb' 0 8

/-- `LEN` "compared for equality with `NPIX`" (30_encoding.md R104). -/
def lenMatches (c : Config) (len : BitVec 24) : Bool := decide (len.toNat = c.npix)

/-- `fcode = (c << 12) + ent` (30_encoding.md R106). -/
def fcodeOf (c : Config) (sym ent : Nat) : BitVec 20 := BitVec.ofNat 20 ((sym <<< c.maxBits) + ent)

/-- `i0 = (c << HSHIFT) ^ ent` (30_encoding.md R107). -/
def hashIndex (c : Config) (sym ent : Nat) : Nat := (sym <<< c.hshift) ^^^ ent

/-- `u16le(v) = v[7:0], v[15:8]` (20_memory.md R60). -/
def u16le (v : Nat) : List Byte := [BitVec.ofNat 8 v, BitVec.ofNat 8 (v >>> 8)]

/-- Register numbers 0 `CMD`, 1 `PATH`, 2 `STATUS` (10_state.md R33 to R35). -/
def regRead (reg : Nat) (s : State) : Option Word :=
  match reg with
  | 0 => some 0#32
  | 1 => some s.path
  | 2 => some ((BitVec.ofBool s.fmt.result).setWidth 32)
  | _ => none

end Sys2Proof.Machine
end

