-- ==== Sys2Proof/Machine/Flags.lean ====
section
/-! DEFINITION. Conditions: the cause codes, the width limit and the growth test, the session and path conditions. -/

namespace Sys2Proof.Machine

/-- The codes of 60_exceptions.md R240. -/
def Cause.code : Cause → BitVec 3
  | .none => 0#3
  | .alreadyStarted => 1#3
  | .notStarted => 2#3
  | .sizeMismatch => 3#3
  | .ioFailure => 4#3
  | .illegalCommand => 5#3

/-- `maxcode(n) = 4096 if n = 12, else 2^n - 1` (10_state.md R23). -/
def maxcode (c : Config) (n : Nat) : Nat := if n = c.maxBits then c.maxMaxCode else 2 ^ n - 1

/-- The width after a code `v` has been packed (42_lzw_engine.md R195 to R197): reset after `CLEAR`, else one more if
`free_ent > maxcode(n_bits)`. -/
def nextWidth (c : Config) (v : Nat) (e : Engine) : Nat :=
  if v = c.clear then c.ics + 1
  else if maxcode c e.nBits.toNat < e.freeEnt.toNat then e.nBits.toNat + 1
  else e.nBits.toNat

/-- The dictionary has room: `free_ent < 4096` (42_lzw_engine.md R185). -/
def hasRoom (c : Config) (e : Engine) : Bool := decide (e.freeEnt.toNat < c.maxMaxCode)

/-- `PATH` is the work path of an open session (41_gif_formatter.md R166(f)). -/
def sharesWorkPath (s : State) : Bool := decide (s.fmt.sess = .started) && decide (s.path = s.fmt.workPath)

end Sys2Proof.Machine
end

