-- ==== Sys2Proof/Machine/Dictionary.lean ====
section
/-! DEFINITION. The dictionary search of 42_lzw_engine.md R186 to R190. -/

namespace Sys2Proof.Machine

/-- `i <- i - disp; if i < 0: i <- i + HSIZE` (R188). -/
def nextProbe (c : Config) (disp i : Nat) : Nat := if disp ≤ i then i - disp else i + c.hsize - disp

/-- The secondary decrement, from the first index: `HSIZE - i`, or 1 if `i = 0` (R188). -/
def displacement (c : Config) (i0 : Nat) : Nat := if i0 = 0 then 1 else c.hsize - i0

/-- The probe loop: `(true, i)` at a slot that holds the key, `(false, i)` at an empty slot. `none` once `fuel` slots
have been probed with neither: with `fuel = HSIZE` the sequence has come round, so the loop of R188 never ends. -/
def probeFrom (c : Config) (e : Engine) (fcode : BitVec 20) (disp : Nat) : Nat → Nat → Option (Bool × Nat)
  | 0, _ => none
  | fuel + 1, i =>
    if (e.slot i).valid && decide ((e.slot i).fcode = fcode) then some (true, i)
    else if !(e.slot i).valid then some (false, i)
    else probeFrom c e fcode disp fuel (nextProbe c disp i)

/-- `lookup(fcode, c, ent)` (R188). -/
def lookup (c : Config) (e : Engine) (sym ent : Nat) : Option (Bool × Nat) :=
  probeFrom c e (fcodeOf c sym ent) (displacement c (hashIndex c sym ent)) c.hsize (hashIndex c sym ent)

end Sys2Proof.Machine
end

