-- ==== Sys2Proof/Machine/Lzw.lean ====
section
/-! DEFINITION. The LZW engine: LZW_BEGIN, LZW_SYMBOL, LZW_END and their sub-operations (42_lzw_engine.md). -/

namespace Sys2Proof.Machine

/-- `PKT[0 .. n-1]`, oldest first (10_state.md R24). -/
def packetBytes (e : Engine) (n : Nat) : List Byte := (List.range n).map e.pktByte

/-- `flush_packet()` (R201). -/
def flushPacket (port : Port) (s : State) : Res :=
  if s.eng.pktCnt = 0#8 then .ok s
  else (out port (s.eng.pktCnt :: packetBytes s.eng s.eng.pktCnt.toNat) s).bind
    fun t => .ok (t.setEng t.eng.emptyPkt)

/-- The flush at the end of `push_byte`: the packet has reached `PKT_MAX` bytes (R200). -/
def flushIfFull (c : Config) (port : Port) (s : State) : Res :=
  if c.pktMax ≤ s.eng.pktCnt.toNat then flushPacket port s else .ok s

/-- `push_byte(b)` (R200). -/
def pushByte (c : Config) (port : Port) (b : Byte) (s : State) : Res :=
  flushIfFull c port (s.setEng (s.eng.storePkt b))

/-- `acc[7:0]`. -/
def lowByte (e : Engine) : Byte := e.acc.setWidth 8

/-- The loop of `emit` (R195): `n` completed bytes leave from the low end. -/
def peelBytes (c : Config) (port : Port) : Nat → State → Res
  | 0, s => .ok s
  | n + 1, s => (pushByte c port (lowByte s.eng) s).bind fun t => peelBytes c port n (t.setEng t.eng.dropByte)

/-- `emit(v)` (R195): pack at the current width, peel `acc_bits / 8` bytes, then update the width. -/
def emit (c : Config) (port : Port) (v : Nat) (s : State) : Res :=
  (peelBytes c port ((s.eng.pack v).accBits.toNat / 8) (s.setEng (s.eng.pack v))).bind
    fun t => .ok (t.setEng (t.eng.setWidth (nextWidth c v t.eng)))

/-- LZW_BEGIN (R183). -/
def lzwBegin (c : Config) (port : Port) (s : State) : Res :=
  (out port [BitVec.ofNat 8 c.ics] s).bind fun t => emit c port c.clear (t.setEng (t.eng.begin c))

/-- The miss of LZW_SYMBOL (R193, R194), `i` being the empty slot the search stopped at: emit the current match, start a
new one at `sym`, then insert the pair, or, where the dictionary is full, emit `CLEAR` and empty it. -/
def lzwMiss (c : Config) (port : Port) (sym i : Nat) (s : State) : Res :=
  (emit c port s.eng.ent.toNat s).bind fun t =>
    if hasRoom c t.eng then
      .ok (t.setEng ((t.eng.setEnt sym).insert i (fcodeOf c sym s.eng.ent.toNat)))
    else (emit c port c.clear (t.setEng (t.eng.setEnt sym))).bind fun u => .ok (u.setEng (u.eng.restart c))

/-- LZW_SYMBOL of a legal symbol (R185). -/
def lzwSymbol (c : Config) (port : Port) (sym : Nat) (s : State) : Res :=
  if s.eng.haveEnt then
    match lookup c s.eng sym s.eng.ent.toNat with
    | none => .endless
    | some (true, i) => .ok (s.setEng (s.eng.setEnt (s.eng.slot i).code.toNat))
    | some (false, i) => lzwMiss c port sym i s
  else .ok (s.setEng (s.eng.setEnt sym).markEnt)

/-- The bit flush of LZW_END (R198): the last partial byte, zero-padded. -/
def flushBits (c : Config) (port : Port) (s : State) : Res :=
  if s.eng.accBits = 0#5 then .ok s
  else (pushByte c port (lowByte s.eng) s).bind fun t => .ok (t.setEng t.eng.clearAcc)

/-- LZW_END with a match in hand (R198). -/
def lzwEnd (c : Config) (port : Port) (s : State) : Res :=
  (emit c port s.eng.ent.toNat s).bind fun t1 =>
    (emit c port c.eofc t1).bind fun t2 =>
      (flushBits c port t2).bind fun t3 =>
        (flushPacket port t3).bind fun t4 => .ok (t4.setEng t4.eng.stop)

/-- The outcome of an operation of the engine driven alone; its output list never fails (R181). -/
def engineOutcome : Res → Host.Outcome State Fault Refusal
  | .ok s => .next s
  | .raised s => .next s
  | .endless => .fault .probeEndless

/-- LZW_BEGIN driven alone. -/
def execLzwBegin (s : State) : Host.Outcome State Fault Refusal :=
  engineOutcome (lzwBegin Config.hw .list s)

/-- LZW_SYMBOL driven alone: refused while the engine is inactive and for an illegal symbol (R184, R185). -/
def execLzwSymbol (sym : BitVec 8) (s : State) : Host.Outcome State Fault Refusal :=
  if s.eng.lzwActive = false then .refused .engineInactive
  else if Config.hw.clear ≤ sym.toNat then .refused .illegalSymbol
  else engineOutcome (lzwSymbol Config.hw .list sym.toNat s)

/-- LZW_END driven alone: refused while the engine is inactive and with no symbol consumed (R198, R199). -/
def execLzwEnd (s : State) : Host.Outcome State Fault Refusal :=
  if s.eng.lzwActive = false then .refused .engineInactive
  else if s.eng.haveEnt = false then .refused .endWithoutSymbol
  else engineOutcome (lzwEnd Config.hw .list s)

end Sys2Proof.Machine
end

