-- ==== Sys2Proof/Machine/Quantizer.lean ====
section
/-! DEFINITION. The Quantizer: QUANT (40_quantizer.md). -/

namespace Sys2Proof.Machine

/-- `306*R + 601*G + 117*B`, exact on naturals (40_quantizer.md R130, R131). -/
def lumaWeight (c : Config) (p : Word) : Nat :=
  c.qr * (pixelR p).toNat + c.qg * (pixelG p).toNat + c.qb * (pixelB p).toNat

/-- The comparator: 1 if the weight is 512 or more (40_quantizer.md R130, R132). -/
def isWhite (c : Config) (weight : Nat) : Bool := decide (c.qt ≤ weight)

/-- The palette index of a pixel word (40_quantizer.md R130). -/
def quantize (c : Config) (p : Word) : Bool := isWhite c (lumaWeight c p)

/-- QUANT (40_quantizer.md R130), driven alone: its bit goes back on the wire (log 9), nothing else changes. -/
def execQuant (pixel : Word) (s : State) : Host.Outcome State Fault Refusal :=
  .next (s.setEnv { s.env with quantOut := quantize Config.hw pixel })

end Sys2Proof.Machine
end

