-- ==== Sys2Proof/Machine/Stream.lean ====
section
/-! DEFINITION. The structural bytes of the GIF stream (30_encoding.md R95 to R103). -/

namespace Sys2Proof.Machine

/-- `SIG` (R95): "GIF89a". -/
def sigBytes : List Byte := [0x47#8, 0x49#8, 0x46#8, 0x38#8, 0x39#8, 0x61#8]

/-- The packed byte of `LSD` (R97): table flag, `colorDepth - 1` with `colorDepth = 1`, sort flag, size field 0. -/
def lsdPacked : Byte := 0x80#8 ||| ((1#8 - 1#8) <<< 4) ||| 0x08#8 ||| 0x00#8

/-- `LSD` (R96). -/
def lsdBytes (c : Config) : List Byte := u16le c.width ++ u16le c.height ++ [lsdPacked, 0x00#8, 0x00#8]

/-- `GCT` (R98). -/
def gctBytes (c : Config) : List Byte := c.palette

/-- `GCE` (R99). -/
def gceBytes (c : Config) : List Byte :=
  [0x21#8, 0xF9#8, 0x04#8, 0x00#8] ++ u16le c.delay ++ [0x00#8, 0x00#8]

/-- `ID` (R100). -/
def idBytes (c : Config) : List Byte :=
  [0x2C#8] ++ u16le 0 ++ u16le 0 ++ u16le c.width ++ u16le c.height ++ [0x00#8]

/-- `TRAILER` (R103). -/
def trailerByte : Byte := 0x3B#8

/-- The terminator of the LZW data block (R101). -/
def terminatorByte : Byte := 0x00#8

end Sys2Proof.Machine
end

