-- ==== Sys2Proof/Machine/Formatter.lean ====
section
/-! DEFINITION. The GIF formatter: START, ADDFRAME, FINISH, ONESHOT (41_gif_formatter.md). -/

namespace Sys2Proof.Machine

/-! ### START -/

/-- START from `Idle` after OPEN was answered ok (R141): the signature, then the session. -/
def startOpened (s : State) : State :=
  match writeAll .session sigBytes s with
  | (false, t) => failCommand .ioFailure (sinkReq (.close .session) t).2
  | (true, t) => completeCommand (t.setFmt (t.fmt.openSession t.path))

/-- START (R141, R142). -/
def startSession (s : State) : State :=
  match s.fmt.sess with
  | .started => failCommand .alreadyStarted s
  | .idle =>
    match sinkReq (.openSink .session s.path) s with
    | (false, t) => failCommand .ioFailure t
    | (true, t) => startOpened t

/-- START; `LEN` is ignored (30_encoding.md R111). -/
def execStart (_len : BitVec 24) (s : State) : Host.Outcome State Fault Refusal := settle s (startSession s)

/-! ### The frame -/

/-- The loop of `EncodeFrame` (R150): `n` pixels, from `FB[pix_idx]` on. -/
def frameLoop (c : Config) (port : Port) : Nat → State → Res
  | 0, s => .ok s
  | n + 1, s =>
    (lzwSymbol c port (quantize c (readPixel s.pixIdx.toNat s).1).toNat (readPixel s.pixIdx.toNat s).2).bind
      fun t => frameLoop c port n (t.setPixIdx (BitVec.ofNat 24 (t.pixIdx.toNat + 1)))

/-- `EncodeFrame(ctx)` (R150). -/
def encodeFrame (c : Config) (ctx : Ctx) (s : State) : Res :=
  (lzwBegin c (.sink ctx) s).bind fun t1 =>
    (frameLoop c (.sink ctx) c.npix (t1.setPixIdx 0#24)).bind fun t2 =>
      (lzwEnd c (.sink ctx) t2).bind fun t3 => out (.sink ctx) [terminatorByte] t3

/-- The end of a command that compresses: `none` if its probe never ends. The host's frame-buffer writes in flight land
(20_memory.md R78). -/
def frameOutcome (s : State) : Option State → Host.Outcome State Fault Refusal
  | none => .fault .probeEndless
  | some t => settle s (landRaces t)

/-! ### ADDFRAME -/

/-- The part of ADDFRAME that only the first frame of a session has (R145, R147). -/
def writeHeader (c : Config) (s : State) : Res :=
  if s.fmt.firstPending then
    (out (.sink .session) (lsdBytes c) s).bind fun t1 =>
      (out (.sink .session) (gctBytes c) t1).bind fun t2 => .ok (t2.setFmt t2.fmt.headerWritten)
  else .ok s

/-- The frame-record of ADDFRAME (R145). -/
def writeFrame (c : Config) (s : State) : Res :=
  (writeHeader c s).bind fun t1 =>
    (out (.sink .session) (gceBytes c) t1).bind fun t2 =>
      (out (.sink .session) (idBytes c) t2).bind fun t3 => encodeFrame c .session t3

/-- ADDFRAME's handler (R145, R148): no clean-up request. -/
def addFrameEnd : Res → Option State
  | .ok s => some (completeCommand s)
  | .raised s => some (failCommand .ioFailure (abandonEngine s))
  | .endless => none

/-- ADDFRAME (R145, R146). -/
def addFrame (c : Config) (len : BitVec 24) (s : State) : Option State :=
  match s.fmt.sess with
  | .idle => some (failCommand .notStarted s)
  | .started => if lenMatches c len then addFrameEnd (writeFrame c s) else some (failCommand .sizeMismatch s)

/-- ADDFRAME; `PATH` is ignored (30_encoding.md R111). -/
def execAddframe (len : BitVec 24) (s : State) : Host.Outcome State Fault Refusal :=
  frameOutcome s (addFrame Config.hw len s)

/-! ### FINISH -/

/-- FINISH after the trailer WRITE was answered `ok` (R160, R161): CLOSE always, RENAME if both were ok, DELETE if
anything failed. -/
def finishClose (ok : Bool) (s : State) : Bool × State :=
  match sinkReq (.close .session) s with
  | (okClose, t) =>
    match ok && okClose with
    | true => sinkReq (.rename t.fmt.workPath t.path) t
    | false => (false, t)

/-- FINISH's end (R160): DELETE of the work file unless everything was ok, and `Idle` on every path. -/
def finishEnd (ok : Bool) (s : State) : State :=
  match ok with
  | true => completeCommand (s.setFmt s.fmt.closeSession)
  | false =>
    let t := (sinkReq (.delete s.fmt.workPath) s).2
    failCommand .ioFailure (t.setFmt t.fmt.closeSession)

/-- FINISH (R160, R161). -/
def finishSession (s : State) : State :=
  match s.fmt.sess with
  | .idle => failCommand .notStarted s
  | .started =>
    match sinkReq (.write .session trailerByte) s with
    | (ok, t) =>
      match finishClose ok t with
      | (okAll, u) => finishEnd okAll u

/-- FINISH; `LEN` is ignored (30_encoding.md R111). -/
def execFinish (_len : BitVec 24) (s : State) : Host.Outcome State Fault Refusal := settle s (finishSession s)

/-! ### ONESHOT -/

/-- The document of ONESHOT (R165). -/
def writeDocument (c : Config) (s : State) : Res :=
  (out (.sink .oneshot) sigBytes s).bind fun t1 =>
    (out (.sink .oneshot) (lsdBytes c) t1).bind fun t2 =>
      (out (.sink .oneshot) (gctBytes c) t2).bind fun t3 =>
        (out (.sink .oneshot) (idBytes c) t3).bind fun t4 =>
          (encodeFrame c .oneshot t4).bind fun t5 => out (.sink .oneshot) [trailerByte] t5

/-- The end of ONESHOT (R165, R166): CLOSE, and DELETE of the file if anything failed. -/
def oneShotEnd : Res → Option State
  | .ok s =>
    match sinkReq (.close .oneshot) s with
    | (true, t) => some (completeCommand t)
    | (false, t) => some (failCommand .ioFailure (sinkReq (.delete t.path) t).2)
  | .raised s =>
    let t := (sinkReq (.close .oneshot) (abandonEngine s)).2
    some (failCommand .ioFailure (sinkReq (.delete t.path) t).2)
  | .endless => none

/-- ONESHOT (R165, R166). -/
def oneShot (c : Config) (len : BitVec 24) (s : State) : Option State :=
  if lenMatches c len then
    match sinkReq (.openSink .oneshot s.path) s with
    | (false, t) => some (failCommand .ioFailure t)
    | (true, t) => oneShotEnd (writeDocument c t)
  else some (failCommand .sizeMismatch s)

/-- ONESHOT; refused with the work path of an open session (R166(f)). Log 10. -/
def execOneshot (len : BitVec 24) (s : State) : Host.Outcome State Fault Refusal :=
  if sharesWorkPath s then .refused .sharedPath else frameOutcome s (oneShot Config.hw len s)

end Sys2Proof.Machine
end

