-- ==== Sys2Proof/Machine/Dispatch.lean ====
section
/-! DEFINITION. One arm for each instruction. -/

namespace Sys2Proof.Machine

def exec (i : Instr) (s : State) : Host.Outcome State Fault Refusal :=
  match i with
  | .start len => Sys2Proof.Machine.execStart len s
  | .addframe len => Sys2Proof.Machine.execAddframe len s
  | .finish len => Sys2Proof.Machine.execFinish len s
  | .oneshot len => Sys2Proof.Machine.execOneshot len s
  | .lzwBegin => Sys2Proof.Machine.execLzwBegin s
  | .lzwSymbol sym => Sys2Proof.Machine.execLzwSymbol sym s
  | .lzwEnd => Sys2Proof.Machine.execLzwEnd s
  | .quant pixel => Sys2Proof.Machine.execQuant pixel s

end Sys2Proof.Machine
end

