-- ==== Sys2Proof/Decode.lean ====
section
/-! DEFINITION. Decoding of the two word formats (30_encoding.md R91, R92, R109 to R112), and the encoder written from the
same tables. -/

namespace Sys2Proof

/-- Why a word is no instruction. -/
inductive Reject where
  /-- A `CMD` word with `OP` not in 1 to 4 or `RSV` not 0 (30_encoding.md R110). -/
  | illegalCommand
  /-- An `EOP` word with `EOPC` 0, 5, 6 or 7 (30_encoding.md R112). -/
  | reservedOpcode
  /-- An `EOP` word whose must-be-zero bits are not 0 (30_encoding.md R112). -/
  | nonzeroArgument
  /-- More bits than the format has (30_encoding.md R90). -/
  | noSuchWord
deriving DecidableEq, Repr

/-- `LEN = CMD[31:8]` (30_encoding.md R104). -/
def lenField (w : Word) : BitVec 24 := w.extractLsb' 8 24

/-- `EOPC`, bits 34:32 (30_encoding.md R92). -/
def eopcField (w : EopWord) : BitVec 3 := w.extractLsb' 32 3

/-- `EARG`, bits 31:0 (30_encoding.md R92). -/
def eargField (w : EopWord) : Word := w.extractLsb' 0 32

/-- The symbol of LZW_SYMBOL, `EARG[7:0]` (30_encoding.md R92). -/
def symField (w : EopWord) : BitVec 8 := w.extractLsb' 0 8

/-- The `CMD` rows of 30_encoding.md R109: "A word `w` selects the row with `(w & mask) = match`". -/
def decodeCmd (w : Word) : Except Reject Instr :=
  if w &&& 0x000000FF#32 = 0x00000001#32 then .ok (.start (lenField w))
  else if w &&& 0x000000FF#32 = 0x00000002#32 then .ok (.addframe (lenField w))
  else if w &&& 0x000000FF#32 = 0x00000003#32 then .ok (.finish (lenField w))
  else if w &&& 0x000000FF#32 = 0x00000004#32 then .ok (.oneshot (lenField w))
  else .error .illegalCommand

/-- The `EOP` rows of 30_encoding.md R109; what selects no row is refused (R112). -/
def decodeEop (w : EopWord) : Except Reject Instr :=
  if w &&& 0x7FFFFFFFF#35 = 0x100000000#35 then .ok .lzwBegin
  else if w &&& 0x7FFFFFF00#35 = 0x200000000#35 then .ok (.lzwSymbol (symField w))
  else if w &&& 0x7FFFFFFFF#35 = 0x300000000#35 then .ok .lzwEnd
  else if w &&& 0x700000000#35 = 0x400000000#35 then .ok (.quant (eargField w))
  else if eopcField w = 1#3 ∨ eopcField w = 2#3 ∨ eopcField w = 3#3 then .error .nonzeroArgument
  else .error .reservedOpcode

/-- The instruction a word stands for, or the reason it is none. -/
def decode : InWord → Except Reject Instr
  | .cmd w => decodeCmd w
  | .eop w => decodeEop w

/-- The word of an instruction (30_encoding.md R91, R92): `LEN ++ RSV ++ OP`, or `EOPC ++ EARG`. -/
def encode : Instr → InWord
  | .start len => .cmd (len ++ (0x0#4 ++ 0x1#4))
  | .addframe len => .cmd (len ++ (0x0#4 ++ 0x2#4))
  | .finish len => .cmd (len ++ (0x0#4 ++ 0x3#4))
  | .oneshot len => .cmd (len ++ (0x0#4 ++ 0x4#4))
  | .lzwBegin => .eop (0b001#3 ++ 0#32)
  | .lzwSymbol sym => .eop (0b010#3 ++ (0#24 ++ sym))
  | .lzwEnd => .eop (0b011#3 ++ 0#32)
  | .quant pixel => .eop (0b100#3 ++ pixel)

/-- The word that `nbits` and `w` of spec/opcode_table.json name: a `CMD` word for a row of 32 bits, an `EOP` word for a
row of 35 bits (40 in whole bytes). Log 17. -/
def tableWord (nbits w : Nat) : Except Reject InWord :=
  if nbits ≤ 32 then
    if w < 2 ^ 32 then .ok (.cmd (BitVec.ofNat 32 w)) else .error .noSuchWord
  else if w < 2 ^ 35 then .ok (.eop (BitVec.ofNat 35 w)) else .error .noSuchWord

/-- The instruction the decoder reads from the table's word. -/
def decodeTableWord (nbits w : Nat) : Option Instr :=
  match tableWord nbits w with
  | .error _ => none
  | .ok word =>
    match decode word with
    | .ok i => some i
    | .error _ => none

end Sys2Proof
end

