-- ==== Sys2Proof/Machine/HostPort.lean ====
section
/-! DEFINITION. The host side of a step: the next host move, register and frame-buffer access, reset, the controller's
TICK, and the instruction a move brings. -/

namespace Sys2Proof.Machine

/-- The state with the host's remaining moves. -/
def State.setInbox (s : State) (inbox : List HostMove) : State := s.setEnv { s.env with inbox := inbox }

/-- The command word of a format field assembly, `(len << 8) | op` (30_encoding.md R116). -/
def commandWord (op len : Nat) : Word := BitVec.ofNat 32 ((len <<< 8) ||| op)

/-- The moves TICK expands to (43_capture_contract.md R231), in the order of log 18. -/
def tickMoves (c : Config) (ctl : Controller) : List HostMove :=
  (if ctl.continuous then [.writeReg 0 (commandWord 2 c.npix)] else []) ++
    (if ctl.singleReq then [.writeReg 1 ctl.shotPath, .writeReg 0 (commandWord 4 c.npix), .clearSingle] else [])

/-- An undefined command word (30_encoding.md R110): `RESULT <- 0`, cause `IllegalCommand`, nothing else. -/
def illegalCommand (s : State) : State := failCommand .illegalCommand s

/-- The reset event (10_state.md R46, R47): the block takes its reset state and issues no request; the frame buffer and
the agents outside are not the block's. Log 14. -/
def resetBlock (s : State) : State := (State.reset.setFb s.fb).setEnv s.env

/-- What the next host move brings to the step. -/
inductive Fetched where
  /-- An instruction to run in this state. -/
  | run (i : Instr) (s : State)
  /-- An outcome already. -/
  | done (o : Host.Outcome State Fault Refusal)

/-- A register write (10_state.md R33 to R35): 0 starts a command, 1 is PATH, 2 is ignored. -/
def writeRegister (reg : Nat) (value : Word) (s : State) : Fetched :=
  match reg with
  | 0 =>
    match decode (.cmd value) with
    | .ok i => .run i s
    | .error _ => .done (.next (illegalCommand s))
  | 1 => .done (.next (s.setPath value))
  | 2 => .done (.next s)
  | _ => .done (.fault .noSuchRegister)

/-- A register read: the value goes to the host (log 20). -/
def readRegister (reg : Nat) (s : State) : Host.Outcome State Fault Refusal :=
  match regRead reg s with
  | some v => .next (s.setEnv { s.env with readData := v })
  | none => .fault .noSuchRegister

/-- A frame-buffer write by the host between commands (10_state.md R36). -/
def hostWriteFb (c : Config) (index : Nat) (pixel : Word) (s : State) : Host.Outcome State Fault Refusal :=
  if index < c.npix then .next (s.setFb (Memory.write unlistedPixel s.fb index pixel)) else .fault .fbIndexOutOfRange

/-- A frame-buffer write by the host, in flight during the next command that reads `FB` (20_memory.md R78). -/
def hostRaceFb (c : Config) (index : Nat) (pixel : Word) (s : State) : Host.Outcome State Fault Refusal :=
  if index < c.npix then .next (s.setEnv { s.env with racing := s.env.racing ++ [(index, pixel)] })
  else .fault .fbIndexOutOfRange

/-- An engine-operation word (30_encoding.md R92); one that selects no row is refused (R112). -/
def driveEngine (word : EopWord) (s : State) : Fetched :=
  match decode (.eop word) with
  | .ok i => .run i s
  | .error _ => .done (.refused .reservedEop)

/-- One host move, in the state that holds the moves after it. -/
def hostMove (m : HostMove) (s : State) : Fetched :=
  match m with
  | .writeReg reg value => writeRegister reg value s
  | .readReg reg => .done (readRegister reg s)
  | .writeFb index pixel => .done (hostWriteFb Config.hw index pixel s)
  | .raceFb index pixel => .done (hostRaceFb Config.hw index pixel s)
  | .engineOp word => driveEngine word s
  | .tick => .done (.next (s.setInbox (tickMoves Config.hw s.env.controller ++ s.env.inbox)))
  | .clearSingle =>
    .done (.next (s.setEnv { s.env with controller := { s.env.controller with singleReq := false } }))
  | .setController controller => .done (.next (s.setEnv { s.env with controller := controller }))
  | .reset => .done (.next (resetBlock s))

/-- The step's input: with no host move "the block does nothing" (70_reset_and_hazards.md R272). Log 1. -/
def fetch (s : State) : Fetched :=
  match s.env.inbox with
  | [] => .done (.next s)
  | m :: rest => hostMove m (s.setInbox rest)

/-- The host move that brings a word to its port: a command word is written to `CMD`, an engine-operation word drives
the engine. -/
def moveOf : InWord → HostMove
  | .cmd w => .writeReg 0 w
  | .eop w => .engineOp w

/-- The state in which the host's very next move brings this word. Log 17. -/
def State.offer (s : State) (word : InWord) : State := s.setInbox (moveOf word :: s.env.inbox)

end Sys2Proof.Machine
end

