-- ==== Sys2Proof/Machine/Step.lean ====
section
/-! DEFINITION. One step: the next host move, and the instruction it brings, if any. -/

namespace Sys2Proof.Machine

/-- One step of the machine (00_scope.md R7: one host command is one atomic step). -/
def step (s : State) : Host.Outcome State Fault Refusal :=
  match fetch s with
  | .run i t => exec i t
  | .done o => o

/-- `s` with the table's word as the host's very next move. Log 17. -/
def State.withFetchWord (s : State) (nbits w : Nat) : State :=
  match tableWord nbits w with
  | .ok word => s.offer word
  | .error _ => s

end Sys2Proof.Machine
end

