-- ==== Sys2Proof/WellFormed.lean ====
section
/-! DEFINITION. The checks on a parameter record (00_scope.md R6) and on an instruction (42_lzw_engine.md R184). -/

namespace Sys2Proof

/-- 00_scope.md R6: the ranges of `W`, `H`, `NPIX` and `ICS`. -/
def Config.wf (c : Config) : Bool :=
  decide (1 ≤ c.width) && decide (c.width ≤ 65535) && decide (1 ≤ c.height) && decide (c.height ≤ 65535)
    && decide (c.npix ≤ 2 ^ 24 - 1) && decide (2 ≤ c.ics) && decide (c.ics ≤ 8)

/-- 42_lzw_engine.md R184: a symbol is legal if it is below `CLEAR`. The other operands have no illegal value: `LEN`
and the pixel word range over all their bits (30_encoding.md R91, 40_quantizer.md R130). -/
def Instr.wf (c : Config) : Instr → Bool
  | .start _ => true
  | .addframe _ => true
  | .finish _ => true
  | .oneshot _ => true
  | .lzwBegin => true
  | .lzwSymbol sym => decide (sym.toNat < c.clear)
  | .lzwEnd => true
  | .quant _ => true

end Sys2Proof
end

