-- ==== Sys2Proof/Safety.lean ====
section
/-! DEFINITION. The terms the claims use: the host's coming answers and what a run of requests leaves, the invariants,
and the spec's closed forms of the output (30_encoding.md R93, R101, R102, R115; 42_lzw_engine.md R211) with the standard
decoder of 95_test_vectors.md section 5. -/

namespace Sys2Proof.Machine

/-! ### Requests and answers -/

/-- Requests with the host's answers, oldest first. -/
abbrev Transcript := List (Request × Bool)

/-- The host's answer to the `k`-th request from now on: listed, else the free value (20_memory.md R71). -/
def Env.answerAt (env : Env) (k : Nat) : Bool := (env.answers[k]?).getD (Config.hostAnswer (env.log.length + k))

/-- The host's next answers are those of the transcript. -/
def Env.gives (env : Env) (tr : Transcript) : Prop := ∀ k, k < tr.length → (tr.map Prod.snd)[k]? = some (env.answerAt k)

/-- The host answers each of the next `n` requests (the fairness premise of 70_reset_and_hazards.md R278). -/
def Env.answersNext (env : Env) (n : Nat) : Prop := ∀ m, env.unanswered = some m → env.log.length + n ≤ m

/-- The environment after the requests and answers of the transcript. -/
def Env.after (env : Env) (tr : Transcript) : Env :=
  { env with answers := env.answers.drop tr.length, log := env.log ++ tr }

/-- One accepted WRITE for each byte. -/
def accepted (ctx : Ctx) (bytes : List Byte) : Transcript := bytes.map fun b => (.write ctx b, true)

/-- `Write(ctx, bytes)` whose WRITE number `k` is the first answered `fail` (20_memory.md R72). -/
def cutOff (ctx : Ctx) (bytes : List Byte) (k : Nat) : Transcript :=
  accepted ctx (bytes.take k) ++ ((bytes.drop k).take 1).map fun b => (.write ctx b, false)

/-- The bytes a context's sink has accepted (20_memory.md R72, R75(c)). -/
def acceptedBytes (ctx : Ctx) : Transcript → List Byte
  | [] => []
  | (.write c b, true) :: rest => if c = ctx then b :: acceptedBytes ctx rest else acceptedBytes ctx rest
  | _ :: rest => acceptedBytes ctx rest

/-- The context a request names. -/
def Request.ctx? : Request → Option Ctx
  | .openSink ctx _ => some ctx
  | .write ctx _ => some ctx
  | .close ctx => some ctx
  | .rename _ _ => none
  | .delete _ => none

/-! ### The frame as read -/

/-- How many of the reads `FB[0] .. FB[i-1]` were raced. -/
def racedBefore (s : State) (i : Nat) : Nat := ((List.range i).filter (raced s)).length

/-- The word read for pixel `i` by a command that starts in `s` (20_memory.md R67, R78). -/
def framePixel (s : State) (i : Nat) : Word :=
  if raced s i then
    (pixelCandidates s i).getD (Config.raceChoice (s.env.fbDraws + racedBefore s i) % (pixelCandidates s i).length)
      unlistedPixel
  else Memory.read unlistedPixel s.fb i

/-- The quantised frame `q` (40_quantizer.md R134). -/
def frameSymbols (c : Config) (s : State) : List Nat :=
  (List.range c.npix).map fun i => (quantize c (framePixel s i)).toNat

/-! ### The code stream, with the dictionary as a finite map (10_state.md R38, 42_lzw_engine.md R191, R211) -/

/-- The compressor between two symbols: DICT, the next free code, the width and the current match. -/
structure Coder where
  dict : List ((Nat × Nat) × Nat)
  free : Nat
  width : Nat
  ent : Nat
deriving DecidableEq, Repr

/-- The compressor after a ClearCode and the symbol `sym`. -/
def Coder.fresh (c : Config) (sym : Nat) : Coder := { dict := [], free := c.first, width := c.ics + 1, ent := sym }

/-- The growth test after a code other than `CLEAR` (42_lzw_engine.md R196). -/
def Coder.grown (c : Config) (k : Coder) : Nat := if maxcode c k.width < k.free then k.width + 1 else k.width

/-- The codes, each with its width, for the rest of the input (42_lzw_engine.md R192 to R194, R198). -/
def codesFrom (c : Config) : Coder → List Nat → List (Nat × Nat)
  | k, [] => [(k.ent, k.width), (c.eofc, k.grown c)]
  | k, x :: xs =>
    match k.dict.lookup (k.ent, x) with
    | some code => codesFrom c { k with ent := code } xs
    | none =>
      if k.free < c.maxMaxCode then
        (k.ent, k.width) ::
          codesFrom c { dict := ((k.ent, x), k.free) :: k.dict, free := k.free + 1, width := k.grown c, ent := x } xs
      else (k.ent, k.width) :: (c.clear, k.grown c) :: codesFrom c (Coder.fresh c x) xs

/-- `Codes(q)` of a non-empty symbol sequence (42_lzw_engine.md R211). -/
def codes (c : Config) : List Nat → List (Nat × Nat)
  | [] => []
  | x :: xs => (c.clear, c.ics + 1) :: codesFrom c (Coder.fresh c x) xs

/-- The sum of the widths. -/
def totalBits : List (Nat × Nat) → Nat
  | [] => 0
  | (_, n) :: rest => n + totalBits rest

/-- The number whose bits are the codes' bits, each code least significant bit first (42_lzw_engine.md R211). -/
def streamNumber : List (Nat × Nat) → Nat
  | [] => 0
  | (v, n) :: rest => v + 2 ^ n * streamNumber rest

/-- `Payload`: the stream's bits in bytes, least significant first, the last one zero-padded (42_lzw_engine.md R211). -/
def payload (l : List (Nat × Nat)) : List Byte :=
  (List.range ((totalBits l + 7) / 8)).map fun i => BitVec.ofNat 8 (streamNumber l >>> (8 * i))

/-- `SubBlocks(p)` (30_encoding.md R102), `fuel` chunks of `size` bytes at most. -/
def subBlocksFrom (size : Nat) : Nat → List Byte → List Byte
  | 0, _ => []
  | fuel + 1, p =>
    if p = [] then []
    else BitVec.ofNat 8 (p.take size).length :: (p.take size ++ subBlocksFrom size fuel (p.drop size))

/-- `SubBlocks(p)` (30_encoding.md R102). -/
def subBlocks (c : Config) (p : List Byte) : List Byte := subBlocksFrom c.pktMax p.length p

/-- The output of the engine for `q`: `[ICS] ++ SubBlocks(Payload(q))` (42_lzw_engine.md R181). -/
def engineBytes (c : Config) (q : List Nat) : List Byte := BitVec.ofNat 8 c.ics :: subBlocks c (payload (codes c q))

/-- `LZWDATA(q)` (30_encoding.md R101). -/
def lzwData (c : Config) (q : List Nat) : List Byte := engineBytes c q ++ [0x00#8]

/-- `FrameRecord(q)` (30_encoding.md R93). -/
def frameRecord (c : Config) (q : List Nat) : List Byte := gceBytes c ++ idBytes c ++ lzwData c q

/-- `OneShotDocument(q)` (30_encoding.md R93). -/
def oneShotDocument (c : Config) (q : List Nat) : List Byte :=
  sigBytes ++ lsdBytes c ++ gctBytes c ++ idBytes c ++ lzwData c q ++ [0x3B#8]

/-- `SessionDocument(q_1 .. q_N)` (30_encoding.md R93). -/
def sessionDocument (c : Config) (frames : List (List Nat)) : List Byte :=
  sigBytes ++ (if frames = [] then [] else lsdBytes c ++ gctBytes c) ++ (frames.map (frameRecord c)).flatten ++ [0x3B#8]

/-- What a successful ADDFRAME appends (41_gif_formatter.md R145). -/
def addedBytes (c : Config) (firstPending : Bool) (q : List Nat) : List Byte :=
  (if firstPending then lsdBytes c ++ gctBytes c else []) ++ frameRecord c q

/-- `width(j) = min(12, max(ICS + 1, bitlen(FIRST + j - 2)))` (30_encoding.md R115), `j` counted from the ClearCode. -/
def codeWidth (c : Config) (j : Nat) : Nat := min c.maxBits (max (c.ics + 1) (Nat.size (c.first + j - 2)))

/-- Every code has the width of its position in its segment (30_encoding.md R115), the first standing at position `j`. -/
def onSchedule (c : Config) : Nat → List (Nat × Nat) → Prop
  | _, [] => True
  | j, (v, n) :: rest => n = codeWidth c j ∧ onSchedule c (if v = c.clear then 1 else j + 1) rest

/-! ### The standard decoder (95_test_vectors.md section 5). PRESUMED: log 23. -/

/-- The decoder: the strings of the codes `FIRST`, `FIRST + 1`, ..., the width, and the string of the last code. -/
structure Decoder where
  table : List (List Nat)
  width : Nat
  previous : Option (List Nat)
deriving DecidableEq, Repr

/-- The string of a code, if the table has one. -/
def Decoder.string (c : Config) (d : Decoder) (code : Nat) : Option (List Nat) :=
  if code < c.clear then some [code] else if code < c.first then none else d.table[code - c.first]?

/-- The string of a code that may be the one about to be defined. -/
def Decoder.entry (c : Config) (d : Decoder) (before : List Nat) (code : Nat) : Option (List Nat) :=
  match d.string c code with
  | some str => some str
  | none => if code = c.first + d.table.length then some (before ++ before.take 1) else none

/-- The table with the next string defined, and the width widened when the next free code reaches `2^width`. -/
def Decoder.learn (c : Config) (d : Decoder) (before entry : List Nat) : Decoder :=
  if c.first + d.table.length < c.maxMaxCode then
    { table := d.table ++ [before ++ entry.take 1]
      width := if c.first + d.table.length + 1 = 2 ^ d.width ∧ d.width < c.maxBits then d.width + 1 else d.width
      previous := some entry }
  else { d with previous := some entry }

/-- The decoder on the bits of `stream`, `fuel` codes at most; `none` on an error or if no EOFCode is met. -/
def decodeStream (c : Config) : Nat → Decoder → Nat → Option (List Nat)
  | 0, _, _ => none
  | fuel + 1, d, stream =>
    let code := stream % 2 ^ d.width
    let rest := stream / 2 ^ d.width
    if code = c.clear then decodeStream c fuel { table := [], width := c.ics + 1, previous := none } rest
    else if code = c.eofc then some []
    else
      match d.previous with
      | none =>
        match d.string c code with
        | none => none
        | some str => (decodeStream c fuel { d with previous := some str } rest).map (str ++ ·)
      | some before =>
        match d.entry c before code with
        | none => none
        | some str => (decodeStream c fuel (d.learn c before str) rest).map (str ++ ·)

/-- The payloads of the sub-blocks up to the terminator, joined; `none` if the bytes do not end with it. -/
def joinSubBlocks : Nat → List Byte → Option (List Byte)
  | 0, _ => none
  | _ + 1, [] => none
  | fuel + 1, n :: bytes =>
    if n = 0#8 then (if bytes = [] then some [] else none)
    else if bytes.length < n.toNat then none
    else (joinSubBlocks fuel (bytes.drop n.toNat)).map (bytes.take n.toNat ++ ·)

/-- The number whose little-endian bytes these are. -/
def bytesNumber : List Byte → Nat
  | [] => 0
  | b :: bytes => b.toNat + 256 * bytesNumber bytes

/-- The standard decoder on an LZW data block: the code-size byte, the sub-blocks, the terminator. -/
def decodeBlock (c : Config) : List Byte → Option (List Nat)
  | [] => none
  | size :: bytes =>
    if size.toNat = c.ics then
      match joinSubBlocks bytes.length bytes with
      | none => none
      | some p =>
        decodeStream c (8 * p.length) { table := [], width := c.ics + 1, previous := none } (bytesNumber p)
    else none

/-! ### Sequences of instructions -/

/-- The instructions one after the other, while each answers a next state. -/
def execAll : List Instr → State → Host.Outcome State Fault Refusal
  | [], s => .next s
  | i :: is, s =>
    match exec i s with
    | .next t => execAll is t
    | .fault f => .fault f
    | .refused r => .refused r

/-- For each frame, the host fills the frame buffer and issues ADDFRAME with `LEN = NPIX`. -/
def addFrames : List (Memory Word) → State → Host.Outcome State Fault Refusal
  | [], s => .next s
  | fb :: rest, s =>
    match exec (.addframe 8192#24) (s.setFb fb) with
    | .next t => addFrames rest t
    | .fault f => .fault f
    | .refused r => .refused r

/-! ### Invariants -/

/-- Every memory is in canonical form, and `HT`, `PKT`, `FB` and the writes in flight stay within `HSIZE`, `PKT_MAX` and
`NPIX`. -/
def MemoriesCanonical (s : State) : Prop :=
  Memory.wf unlistedSlot s.eng.ht = true ∧ Memory.wf unlistedByte s.eng.pkt = true
    ∧ Memory.wf unlistedPixel s.fb = true
    ∧ (∀ cell ∈ s.eng.ht, cell.1 < Config.hw.hsize) ∧ (∀ cell ∈ s.eng.pkt, cell.1 < Config.hw.pktMax)
    ∧ (∀ cell ∈ s.fb, cell.1 < Config.hw.npix) ∧ ∀ cell ∈ s.env.racing, cell.1 < Config.hw.npix

/-- The ranges of 10_state.md R21 and 42_lzw_engine.md R214, between LZW_BEGIN and LZW_END with no operation in
progress. -/
structure EngineRanges (c : Config) (e : Engine) : Prop where
  free_low : c.first ≤ e.freeEnt.toNat
  free_high : e.freeEnt.toNat ≤ c.maxMaxCode
  width_low : c.ics + 1 ≤ e.nBits.toNat
  width_high : e.nBits.toNat ≤ c.maxBits
  width_fits : e.nBits.toNat < c.maxBits → e.freeEnt.toNat ≤ 2 ^ e.nBits.toNat
  bits_high : e.accBits.toNat ≤ 7
  acc_fits : e.acc.toNat < 2 ^ e.accBits.toNat
  packet_high : e.pktCnt.toNat < c.pktMax
  ent_range : e.haveEnt = true → e.ent.toNat < c.clear ∨ c.first ≤ e.ent.toNat ∧ e.ent.toNat < e.freeEnt.toNat
  code_range : ∀ k, (e.slot k).valid = true → c.first ≤ (e.slot k).code.toNat ∧ (e.slot k).code.toNat < e.freeEnt.toNat

/-- The prefix code of a slot, `fcode[11:0]` (10_state.md R37). -/
def Slot.prefixCode (slot : Slot) : Nat := (slot.fcode.extractLsb' 0 12).toNat

/-- The symbol of a slot, `fcode[19:12]` (10_state.md R37). -/
def Slot.symbol (slot : Slot) : Nat := (slot.fcode.extractLsb' 12 8).toNat

/-- The dictionary invariants of 42_lzw_engine.md R210 (a) to (c), and that the search of R188 finds every entry
(R186). -/
structure DictionaryWf (c : Config) (e : Engine) : Prop where
  index_range : ∀ k, (e.slot k).valid = true → k < c.hsize
  code_once : ∀ code, c.first ≤ code → code < e.freeEnt.toNat →
    ∃ k, ((e.slot k).valid = true ∧ (e.slot k).code.toNat = code) ∧
      ∀ j, (e.slot j).valid = true → (e.slot j).code.toNat = code → j = k
  key_once : ∀ j k, (e.slot j).valid = true → (e.slot k).valid = true → (e.slot j).fcode = (e.slot k).fcode → j = k
  symbol_legal : ∀ k, (e.slot k).valid = true → (e.slot k).symbol < c.clear
  prefix_older : ∀ k, (e.slot k).valid = true →
    (e.slot k).prefixCode < (e.slot k).code.toNat ∧
      ((e.slot k).prefixCode < c.clear ∨ c.first ≤ (e.slot k).prefixCode)
  found : ∀ k, (e.slot k).valid = true → lookup c e (e.slot k).symbol (e.slot k).prefixCode = some (true, k)

/-- While the engine is active its registers are in range. -/
def EngineInRange (s : State) : Prop := s.eng.lzwActive = true → EngineRanges Config.hw s.eng

/-- While the engine is active its dictionary is well formed. -/
def DictionaryInOrder (s : State) : Prop := s.eng.lzwActive = true → DictionaryWf Config.hw s.eng

/-- How many slots are valid. -/
def validCount (e : Engine) : Nat := (e.ht.filter fun cell => cell.2.valid).length

/-- The abstract dictionary (10_state.md R38): the code of a slot whose key is `(pre, sym)`. -/
def HasEntry (e : Engine) (pre sym code : Nat) : Prop :=
  ∃ k, (e.slot k).valid = true ∧ (e.slot k).prefixCode = pre ∧ (e.slot k).symbol = sym ∧ (e.slot k).code.toNat = code

end Sys2Proof.Machine
end

