-- ==== Sys2Proof/Certificates/Slice0/Obligations.lean ====
section
/-! DEFINITION. The statements for the provers. -/

open Sys2Proof Sys2Proof.Machine

/-! ### Encoding -/

/-- 30_encoding.md R91, R92, R109: decoding and encoding are inverse to each other, on every word and every operand. -/
def Obligations.DecodeEncodeInverse : Prop :=
  ∀ (word : InWord) (i : Instr), decode word = .ok i ↔ encode i = word

/-- 30_encoding.md R109: a word selects a row exactly when `(w & mask) = match`; a word that selects no row is rejected. -/
def Obligations.TableRowsSelectInstructions : Prop :=
  (∀ w : Word,
    ((w &&& 0x000000FF#32 = 0x00000001#32) ↔ ∃ len, decode (.cmd w) = .ok (.start len)) ∧
    ((w &&& 0x000000FF#32 = 0x00000002#32) ↔ ∃ len, decode (.cmd w) = .ok (.addframe len)) ∧
    ((w &&& 0x000000FF#32 = 0x00000003#32) ↔ ∃ len, decode (.cmd w) = .ok (.finish len)) ∧
    ((w &&& 0x000000FF#32 = 0x00000004#32) ↔ ∃ len, decode (.cmd w) = .ok (.oneshot len)) ∧
    ((∀ m ∈ [0x00000001#32, 0x00000002#32, 0x00000003#32, 0x00000004#32], w &&& 0x000000FF#32 ≠ m) ↔
      decode (.cmd w) = .error .illegalCommand)) ∧
  ∀ w : EopWord,
    ((w &&& 0x7FFFFFFFF#35 = 0x100000000#35) ↔ decode (.eop w) = .ok .lzwBegin) ∧
    ((w &&& 0x7FFFFFF00#35 = 0x200000000#35) ↔ ∃ sym, decode (.eop w) = .ok (.lzwSymbol sym)) ∧
    ((w &&& 0x7FFFFFFFF#35 = 0x300000000#35) ↔ decode (.eop w) = .ok .lzwEnd) ∧
    ((w &&& 0x700000000#35 = 0x400000000#35) ↔ ∃ pixel, decode (.eop w) = .ok (.quant pixel)) ∧
    ((w &&& 0x7FFFFFFFF#35 ≠ 0x100000000#35 ∧ w &&& 0x7FFFFFF00#35 ≠ 0x200000000#35 ∧
        w &&& 0x7FFFFFFFF#35 ≠ 0x300000000#35 ∧ w &&& 0x700000000#35 ≠ 0x400000000#35) ↔
      ∃ reason, decode (.eop w) = .error reason)

/-- 30_encoding.md R91, R92, R104: the operands of a decoded word, by arithmetic on the word's value. -/
def Obligations.DecodedFieldValues : Prop :=
  (∀ (w : Word) (len : BitVec 24),
    (decode (.cmd w) = .ok (.start len) ↔ w.toNat = 256 * len.toNat + 1) ∧
    (decode (.cmd w) = .ok (.addframe len) ↔ w.toNat = 256 * len.toNat + 2) ∧
    (decode (.cmd w) = .ok (.finish len) ↔ w.toNat = 256 * len.toNat + 3) ∧
    (decode (.cmd w) = .ok (.oneshot len) ↔ w.toNat = 256 * len.toNat + 4)) ∧
  ∀ (w : EopWord) (sym : BitVec 8) (pixel : Word),
    (decode (.eop w) = .ok .lzwBegin ↔ w.toNat = 1 * 2 ^ 32) ∧
    (decode (.eop w) = .ok (.lzwSymbol sym) ↔ w.toNat = 2 * 2 ^ 32 + sym.toNat) ∧
    (decode (.eop w) = .ok .lzwEnd ↔ w.toNat = 3 * 2 ^ 32) ∧
    (decode (.eop w) = .ok (.quant pixel) ↔ w.toNat = 4 * 2 ^ 32 + pixel.toNat)

/-- 30_encoding.md R110: a `CMD` word with `OP` not in 1 to 4 or `RSV` not 0 changes `RESULT` and the ghost cause only. -/
def Obligations.UndefinedCommandWordFails : Prop :=
  ∀ (s : State) (w : Word) (rest : List HostMove), s.env.inbox = .writeReg 0 w :: rest →
    (w.toNat % 16 = 0 ∨ 4 < w.toNat % 16 ∨ w.toNat / 16 % 16 ≠ 0) →
    step s = .next
      { s with
        fmt := { s.fmt with result := false, lastCause := .illegalCommand }
        env := { s.env with inbox := rest } }

/-- 30_encoding.md R112: reserved `EOPC`, must-be-zero bits that are set, and symbols of `CLEAR` or more are refused. -/
def Obligations.ReservedEngineWordRefused : Prop :=
  ∀ (s : State) (w : EopWord) (rest : List HostMove), s.env.inbox = .engineOp w :: rest →
    let eopc := w.toNat / 2 ^ 32
    let earg := w.toNat % 2 ^ 32
    ((eopc = 0 ∨ 5 ≤ eopc ∨ (eopc = 1 ∨ eopc = 3) ∧ earg ≠ 0 ∨ eopc = 2 ∧ 256 ≤ earg) →
      step s = .refused .reservedEop) ∧
    (eopc = 2 → 4 ≤ earg → ∃ r, step s = .refused r)

/-- Words written out from 30_encoding.md R91, R92 decode to the instructions they stand for. -/
def Obligations.SampleWordsDecode : Prop :=
  decodeTableWord 32 0b00000000000000000000000000000001 = some (.start 0#24) ∧
  decodeTableWord 32 0b00000000001000000000000000000010 = some (.addframe 8192#24) ∧
  decodeTableWord 32 0b00000000000000000000000000000011 = some (.finish 0#24) ∧
  decodeTableWord 32 0b00000000000000000000100000000100 = some (.oneshot 8#24) ∧
  decodeTableWord 40 0b00100000000000000000000000000000000 = some .lzwBegin ∧
  decodeTableWord 40 0b01000000000000000000000000000000011 = some (.lzwSymbol 3#8) ∧
  decodeTableWord 40 0b01100000000000000000000000000000000 = some .lzwEnd ∧
  decodeTableWord 40 0b10011111111000000010000000000000010 = some (.quant 0xFF010002#32) ∧
  decodeTableWord 32 0b00000000000000000000100000010010 = none

/-! ### The step -/

/-- 00_scope.md R7: where the host's next move brings a word that decodes to `i`, the step is `exec i`, the move
used up. That moves come from a list in the state is the model's choice (log 1). -/
def Obligations.StepRunsDecodedInstruction : Prop :=
  ∀ (s : State) (word : InWord) (i : Instr) (rest : List HostMove),
    s.env.inbox = moveOf word :: rest → decode word = .ok i →
    step s = exec i { s with env := { s.env with inbox := rest } }

/-- 70_reset_and_hazards.md R272: with no host move the block does nothing (the list of moves: log 1). -/
def Obligations.IdleUntilInput : Prop := ∀ s : State, s.env.inbox = [] → step s = .next s

/-- 10_state.md R35: bit 0 of `STATUS` is `RESULT`, bits 31:1 read as 0, writes are ignored, the reset value
is 0. (The field that shows what a read returns is the model's: log 20.) -/
def Obligations.StatusRegisterIsResult : Prop :=
  (∀ (s : State) (rest : List HostMove), s.env.inbox = .readReg 2 :: rest →
    step s = .next
      { s with env := { s.env with inbox := rest, readData := if s.fmt.result then 1#32 else 0#32 } }) ∧
  (∀ (s : State) (value : Word) (rest : List HostMove), s.env.inbox = .writeReg 2 value :: rest →
    step s = .next { s with env := { s.env with inbox := rest } }) ∧
  regRead 2 State.reset = some 0#32

/-- 10_state.md R33, R34: `CMD` reads as 0; the host reads and writes `PATH`, and no instruction writes it. -/
def Obligations.PathAndCmdRegisters : Prop :=
  (∀ (s : State) (rest : List HostMove), s.env.inbox = .readReg 0 :: rest →
    step s = .next { s with env := { s.env with inbox := rest, readData := 0#32 } }) ∧
  (∀ (s : State) (rest : List HostMove), s.env.inbox = .readReg 1 :: rest →
    step s = .next { s with env := { s.env with inbox := rest, readData := s.path } }) ∧
  (∀ (s : State) (value : Word) (rest : List HostMove), s.env.inbox = .writeReg 1 value :: rest →
    step s = .next { s with path := value, env := { s.env with inbox := rest } }) ∧
  ∀ (i : Instr) (s t : State), exec i s = .next t → t.path = s.path

/-- 70_reset_and_hazards.md R270: the values the spec gives the state after reset (the others are the model's choice). -/
def Obligations.ResetStateValues : Prop :=
  State.reset.fmt.sess = .idle ∧ State.reset.fmt.result = false ∧ State.reset.path = 0#32 ∧
    State.reset.fmt.firstPending = true ∧ State.reset.eng.lzwActive = false ∧ State.reset.fmt.lastCause = .none

/-- 10_state.md R47: a reset forgets the session without a sink request. That it keeps the
frame buffer and the agents outside, and when it lands, is the model's choice (log 14). -/
def Obligations.ResetAbandonsSession : Prop :=
  ∀ (s : State) (rest : List HostMove), s.env.inbox = .reset :: rest →
    ∃ t, step s = .next t ∧ t.fmt.sess = .idle ∧ t.fmt.result = false ∧ t.path = 0#32 ∧ t.fmt.firstPending = true ∧
      t.eng.lzwActive = false ∧ t.fmt.lastCause = .none ∧ t.fb = s.fb ∧ t.env = { s.env with inbox := rest }

/-- 43_capture_contract.md R231: what TICK expands to (the order is D25; the representation is the
model's choice, log 18). -/
def Obligations.TickExpansion : Prop :=
  ∀ (s : State) (rest : List HostMove), s.env.inbox = .tick :: rest →
    let add : List HostMove := [.writeReg 0 0x00200002#32]
    let shot : List HostMove :=
      [.writeReg 1 s.env.controller.shotPath, .writeReg 0 0x00200004#32, .clearSingle]
    (step s = .next
      { s with
        env := { s.env with
          inbox := (if s.env.controller.continuous then add else []) ++
            ((if s.env.controller.singleReq then shot else []) ++ rest) } }) ∧
    ∀ u : State, u.env.inbox = .clearSingle :: rest →
      step u = .next
        { u with env := { u.env with
            inbox := rest
            controller := { u.env.controller with singleReq := false } } }

/-! ### The Quantizer -/

/-- 40_quantizer.md R130: QUANT completes on every pixel word with the bit the weight gives; nothing else
changes. (The field that shows the bit is the model's: log 9.) -/
def Obligations.QuantResult : Prop :=
  ∀ (s : State) (p : Word),
    exec (.quant p) s = .next
      { s with env := { s.env with
          quantOut := decide (512 ≤ 306 * (p.toNat / 65536 % 256) + 601 * (p.toNat / 256 % 256) + 117 * (p.toNat % 256)) } }

/-- 40_quantizer.md R133: the colours with result 0. -/
def Obligations.QuantBlackColours : Prop :=
  ∀ p : Word,
    let r := p.toNat / 65536 % 256
    let g := p.toNat / 256 % 256
    let b := p.toNat % 256
    quantize Config.hw p = false ↔ g = 0 ∧ (r = 0 ∧ b ≤ 4 ∨ r = 1 ∧ b ≤ 1)

/-! ### START -/

/-- 41_gif_formatter.md R141: START in `Idle` with every answer ok. -/
def Obligations.StartOpensSession : Prop :=
  ∀ (s : State) (len : BitVec 24), s.fmt.sess = .idle →
    let tr : Transcript :=
      (.openSink .session s.path, true) ::
        accepted .session [0x47#8, 0x49#8, 0x46#8, 0x38#8, 0x39#8, 0x61#8]
    s.env.gives tr → s.env.answersNext 7 →
    exec (.start len) s = .next
      { s with
        fmt := { sess := .started, firstPending := true, workPath := s.path, result := true, lastCause := .none }
        env := s.env.after tr }

/-- 60_exceptions.md R243: START while `Started` leaves the session alone and does not record the new path. -/
def Obligations.StartWhileStartedFails : Prop :=
  ∀ (s : State) (len : BitVec 24), s.fmt.sess = .started → s.env.answersNext 0 →
    exec (.start len) s = .next { s with fmt := { s.fmt with result := false, lastCause := .alreadyStarted } }

/-- 41_gif_formatter.md R142(b), (c): a failed OPEN issues nothing more; a failed signature WRITE is followed by CLOSE
alone, whatever its answer. -/
def Obligations.StartFailuresReleaseSink : Prop :=
  ∀ (s : State) (len : BitVec 24), s.fmt.sess = .idle →
    (∀ tr : Transcript, tr = [(.openSink .session s.path, false)] →
      s.env.gives tr → s.env.answersNext tr.length →
      exec (.start len) s = .next
        { s with fmt := { s.fmt with result := false, lastCause := .ioFailure }, env := s.env.after tr }) ∧
    ∀ (k : Nat) (closed : Bool), k < 6 →
      let tr : Transcript :=
        (.openSink .session s.path, true) ::
          (cutOff .session [0x47#8, 0x49#8, 0x46#8, 0x38#8, 0x39#8, 0x61#8] k ++ [(.close .session, closed)])
      s.env.gives tr → s.env.answersNext tr.length →
      exec (.start len) s = .next
        { s with fmt := { s.fmt with result := false, lastCause := .ioFailure }, env := s.env.after tr }

/-! ### ADDFRAME -/

/-- 41_gif_formatter.md R145, 30_encoding.md R93, R101: ADDFRAME with every WRITE accepted appends the header (first frame
only) and the frame-record of the frame as read. That the host's writes in flight land at the end is the model's
choice (log 11). -/
def Obligations.AddFrameAppendsRecord : Prop :=
  ∀ (s : State) (len : BitVec 24), MemoriesCanonical s → s.fmt.sess = .started → len.toNat = 8192 →
    let tr := accepted .session (addedBytes Config.hw s.fmt.firstPending (frameSymbols Config.hw s))
    s.env.gives tr → s.env.answersNext tr.length →
    ∃ t, exec (.addframe len) s = .next t ∧
      t.fmt = { s.fmt with firstPending := false, result := true, lastCause := .none } ∧
      t.path = s.path ∧ t.fb = (landRaces s).fb ∧
      t.env = { s.env.after tr with racing := [], fbDraws := s.env.fbDraws + racedBefore s 8192 }

/-- 41_gif_formatter.md R147, R148: ADDFRAME whose WRITE number `k` is the first to fail; the flag is cleared once the 13
bytes of `LSD` and `GCT` are accepted. (Writes in flight: log 11.) -/
def Obligations.AddFrameStopsAtFailedWrite : Prop :=
  ∀ (s : State) (len : BitVec 24) (k : Nat), MemoriesCanonical s → s.fmt.sess = .started → len.toNat = 8192 →
    k < (addedBytes Config.hw s.fmt.firstPending (frameSymbols Config.hw s)).length →
    let tr := cutOff .session (addedBytes Config.hw s.fmt.firstPending (frameSymbols Config.hw s)) k
    s.env.gives tr → s.env.answersNext tr.length →
    ∃ t, exec (.addframe len) s = .next t ∧
      t.fmt = { s.fmt with
        firstPending := s.fmt.firstPending && decide (k < 13), result := false, lastCause := .ioFailure } ∧
      t.path = s.path ∧ t.fb = (landRaces s).fb ∧
      t.env.log = s.env.log ++ tr ∧ t.env.answers = s.env.answers.drop tr.length

/-- 60_exceptions.md R244: ADDFRAME and FINISH in `Idle` issue no request and change nothing but `RESULT` and the ghost
cause (the host's frame-buffer writes in flight land at ADDFRAME's end, the model's choice, log 11). -/
def Obligations.RejectedWithoutSession : Prop :=
  ∀ (s : State) (len : BitVec 24), s.fmt.sess = .idle → s.env.answersNext 0 →
    exec (.addframe len) s = .next
      { s with
        fmt := { s.fmt with result := false, lastCause := .notStarted }
        fb := (landRaces s).fb
        env := { s.env with racing := [] } } ∧
    exec (.finish len) s = .next { s with fmt := { s.fmt with result := false, lastCause := .notStarted } }

/-- 60_exceptions.md R245, 41_gif_formatter.md R166(a): a wrong `LEN` issues no request and reads no pixel. That the
host's writes in flight land is the model's choice (log 11). -/
def Obligations.SizeMismatchChangesNothing : Prop :=
  ∀ (s : State) (len : BitVec 24), len.toNat ≠ 8192 → s.env.answersNext 0 →
    let t : State :=
      { s with
        fmt := { s.fmt with result := false, lastCause := .sizeMismatch }
        fb := (landRaces s).fb
        env := { s.env with racing := [] } }
    (s.fmt.sess = .started → exec (.addframe len) s = .next t) ∧
    (¬ (s.fmt.sess = .started ∧ s.path = s.fmt.workPath) → exec (.oneshot len) s = .next t)

/-! ### FINISH -/

/-- 41_gif_formatter.md R161: the five rows of the table; the session is `Idle` after each, and DELETE targets the work
path, whatever its answer. -/
def Obligations.FinishRequestTable : Prop :=
  ∀ (s : State) (len : BitVec 24) (deleted : Bool), s.fmt.sess = .started →
    let trailer : Request := .write .session 0x3B#8
    let close : Request := .close .session
    let rename : Request := .rename s.fmt.workPath s.path
    let delete : Request := .delete s.fmt.workPath
    (∀ tr : Transcript, tr = [(trailer, true), (close, true), (rename, true)] →
      s.env.gives tr → s.env.answersNext tr.length →
      exec (.finish len) s = .next
        { s with
          fmt := { s.fmt with sess := .idle, result := true, lastCause := .none }
          env := s.env.after tr }) ∧
    ∀ tr : Transcript,
      tr ∈ [[(trailer, true), (close, true), (rename, false), (delete, deleted)],
        [(trailer, true), (close, false), (delete, deleted)],
        [(trailer, false), (close, true), (delete, deleted)],
        [(trailer, false), (close, false), (delete, deleted)]] →
      s.env.gives tr → s.env.answersNext tr.length →
      exec (.finish len) s = .next
        { s with
          fmt := { s.fmt with sess := .idle, result := false, lastCause := .ioFailure }
          env := s.env.after tr }

/-! ### ONESHOT -/

/-- 41_gif_formatter.md R165, 30_encoding.md R93: ONESHOT with every answer ok writes the one-shot document of the frame
as read. (Writes in flight: log 11.) -/
def Obligations.OneShotWritesDocument : Prop :=
  ∀ (s : State) (len : BitVec 24), MemoriesCanonical s → ¬ (s.fmt.sess = .started ∧ s.path = s.fmt.workPath) →
    len.toNat = 8192 →
    let tr : Transcript :=
      (.openSink .oneshot s.path, true) ::
        (accepted .oneshot (oneShotDocument Config.hw (frameSymbols Config.hw s)) ++ [(.close .oneshot, true)])
    s.env.gives tr → s.env.answersNext tr.length →
    ∃ t, exec (.oneshot len) s = .next t ∧ t.fmt = { s.fmt with result := true, lastCause := .none } ∧
      t.path = s.path ∧ t.fb = (landRaces s).fb ∧
      t.env = { s.env.after tr with racing := [], fbDraws := s.env.fbDraws + racedBefore s 8192 }

/-- 41_gif_formatter.md R166(b) to (d): the requests of ONESHOT where OPEN fails, where WRITE number `k` is the first to
fail, and where CLOSE fails; the answers of the clean-up requests do not matter. (Writes in flight: log 11.) -/
def Obligations.OneShotFailureCleanUp : Prop :=
  ∀ (s : State) (len : BitVec 24) (k : Nat) (closed deleted : Bool) (tr : Transcript),
    MemoriesCanonical s → ¬ (s.fmt.sess = .started ∧ s.path = s.fmt.workPath) → len.toNat = 8192 →
    let document := oneShotDocument Config.hw (frameSymbols Config.hw s)
    (tr = [(.openSink .oneshot s.path, false)] ∨
      k < document.length ∧ tr = (.openSink .oneshot s.path, true) ::
        (cutOff .oneshot document k ++ [(.close .oneshot, closed), (.delete s.path, deleted)]) ∨
      tr = (.openSink .oneshot s.path, true) ::
        (accepted .oneshot document ++ [(.close .oneshot, false), (.delete s.path, deleted)])) →
    s.env.gives tr → s.env.answersNext tr.length →
    ∃ t, exec (.oneshot len) s = .next t ∧ t.fmt = { s.fmt with result := false, lastCause := .ioFailure } ∧
      t.path = s.path ∧ t.fb = (landRaces s).fb ∧
      t.env.log = s.env.log ++ tr ∧ t.env.answers = s.env.answers.drop tr.length

/-- 41_gif_formatter.md R166(f): ONESHOT with the work path of an open session is refused (the model refuses it whatever
`LEN` is: log 10). -/
def Obligations.OneShotSharedPathRefused : Prop :=
  ∀ (s : State) (len : BitVec 24), s.fmt.sess = .started → s.path = s.fmt.workPath →
    exec (.oneshot len) s = .refused .sharedPath

/-! ### Rules of the whole machine -/

/-- 20_memory.md R80, 41_gif_formatter.md R167: ONESHOT leaves the session's state alone and issues no request on `S`; the
session's commands issue none on `O`; the engine driven alone issues none. -/
def Obligations.ContextsAreIndependent : Prop :=
  ∀ (i : Instr) (s t : State), exec i s = .next t →
    ∃ tr : Transcript, t.env.log = s.env.log ++ tr ∧
      match i with
      | .start _ => ∀ p ∈ tr, p.1.ctx? ≠ some .oneshot
      | .addframe _ => ∀ p ∈ tr, p.1.ctx? = some .session
      | .finish _ => ∀ p ∈ tr, p.1.ctx? ≠ some .oneshot
      | .oneshot _ =>
        (∀ p ∈ tr, p.1.ctx? ≠ some .session) ∧ t.fmt.sess = s.fmt.sess ∧
          t.fmt.firstPending = s.fmt.firstPending ∧ t.fmt.workPath = s.fmt.workPath
      | .lzwBegin => tr = []
      | .lzwSymbol _ => tr = []
      | .lzwEnd => tr = []
      | .quant _ => tr = []

/-- 10_state.md R28: over all steps, only a successful START opens a session, and only FINISH or a reset ends one. -/
def Obligations.SessionChangesOnlyByStartAndFinish : Prop :=
  ∀ s t : State, step s = .next t →
    (s.fmt.sess = .idle → t.fmt.sess = .started →
      ∃ (w : Word) (len : BitVec 24) (rest : List HostMove), s.env.inbox = .writeReg 0 w :: rest ∧
        decode (.cmd w) = .ok (.start len) ∧ t.fmt.result = true ∧ t.fmt.workPath = s.path ∧
        t.fmt.firstPending = true) ∧
    (s.fmt.sess = .started → t.fmt.sess = .idle →
      ∃ rest : List HostMove, s.env.inbox = .reset :: rest ∨
        ∃ (w : Word) (len : BitVec 24), s.env.inbox = .writeReg 0 w :: rest ∧ decode (.cmd w) = .ok (.finish len))

/-- 10_state.md R31, R32: after a command `RESULT` is 1 exactly when the ghost cause is none; an engine operation leaves
the formatter alone. -/
def Obligations.ResultAgreesWithCause : Prop :=
  ∀ (s t : State) (len : BitVec 24) (sym : BitVec 8) (pixel : Word),
    (∀ i ∈ [Instr.start len, .addframe len, .finish len, .oneshot len], exec i s = .next t →
      (t.fmt.result = true ↔ t.fmt.lastCause = .none)) ∧
    ∀ i ∈ [Instr.lzwBegin, .lzwSymbol sym, .lzwEnd, .quant pixel], exec i s = .next t → t.fmt = s.fmt

/-- 60_exceptions.md R240: which commands report which cause, and when; the first three causes issue no request, and
`IOFailure` follows a request answered `fail`. -/
def Obligations.CausesAndTheirConditions : Prop :=
  ∀ (s t : State) (len : BitVec 24), ∀ i ∈ [Instr.start len, .addframe len, .finish len, .oneshot len],
    exec i s = .next t →
    (t.fmt.lastCause = .alreadyStarted → i = .start len ∧ s.fmt.sess = .started ∧ t.env.log = s.env.log) ∧
    (t.fmt.lastCause = .notStarted →
      (i = .addframe len ∨ i = .finish len) ∧ s.fmt.sess = .idle ∧ t.env.log = s.env.log) ∧
    (t.fmt.lastCause = .sizeMismatch →
      (i = .addframe len ∨ i = .oneshot len) ∧ len.toNat ≠ 8192 ∧ t.env.log = s.env.log) ∧
    (t.fmt.lastCause = .ioFailure → ∃ tr, t.env.log = s.env.log ++ tr ∧ ∃ p ∈ tr, p.2 = false) ∧
    t.fmt.lastCause ≠ .illegalCommand

/-- 41_gif_formatter.md R141, R160 (state written): the frame of START and FINISH. -/
def Obligations.FrameOfStartAndFinish : Prop :=
  ∀ (s t : State) (len : BitVec 24),
    (∀ i ∈ [Instr.start len, .finish len], exec i s = .next t →
      t.path = s.path ∧ t.pixIdx = s.pixIdx ∧ t.eng = s.eng ∧ t.fb = s.fb ∧
        t.env = { s.env with answers := t.env.answers, log := t.env.log }) ∧
    (exec (.start len) s = .next t → t.fmt.result = false →
      t.fmt = { s.fmt with result := false, lastCause := t.fmt.lastCause }) ∧
    (exec (.finish len) s = .next t →
      t.fmt = { s.fmt with sess := .idle, result := t.fmt.result, lastCause := t.fmt.lastCause })

/-- 41_gif_formatter.md R145, R165 (state written), 20_memory.md R78: the frame of ADDFRAME and ONESHOT. The frame buffer
changes only where the host's own writes in flight land; a command rejected before its first request leaves the engine
alone too. (The landing is the model's choice: log 11.) -/
def Obligations.FrameOfFrameCommands : Prop :=
  ∀ (s t : State) (len : BitVec 24), ∀ i ∈ [Instr.addframe len, .oneshot len], exec i s = .next t →
    t.path = s.path ∧ t.fmt.sess = s.fmt.sess ∧ t.fmt.workPath = s.fmt.workPath ∧
    (t.fmt.firstPending = true → s.fmt.firstPending = true) ∧
    (i = .oneshot len → t.fmt.firstPending = s.fmt.firstPending) ∧
    t.env = { s.env with
      answers := t.env.answers, log := t.env.log, racing := [], fbDraws := t.env.fbDraws } ∧
    (∀ a, raced s a = false → Memory.read unlistedPixel t.fb a = Memory.read unlistedPixel s.fb a) ∧
    (t.env.log = s.env.log → t.eng = s.eng ∧ t.pixIdx = s.pixIdx ∧ t.env.fbDraws = s.env.fbDraws)

/-- 10_state.md R20, R21 (written by), 42_lzw_engine.md R183, R185, R198: the frame of the engine operations driven alone. -/
def Obligations.FrameOfEngineOperations : Prop :=
  ∀ (s t : State) (sym : BitVec 8),
    (∀ i ∈ [Instr.lzwBegin, .lzwSymbol sym, .lzwEnd], exec i s = .next t →
      t.fmt = s.fmt ∧ t.path = s.path ∧ t.pixIdx = s.pixIdx ∧ t.fb = s.fb ∧
        t.env = { s.env with engineOut := t.env.engineOut } ∧
        ∃ bytes, t.env.engineOut = s.env.engineOut ++ bytes) ∧
    (exec .lzwBegin s = .next t → t.eng.ent = s.eng.ent ∧ t.eng.pkt = s.eng.pkt) ∧
    (exec (.lzwSymbol sym) s = .next t → t.eng.lzwActive = s.eng.lzwActive) ∧
    (exec .lzwEnd s = .next t →
      t.eng.ent = s.eng.ent ∧ t.eng.haveEnt = s.eng.haveEnt ∧ t.eng.freeEnt = s.eng.freeEnt ∧ t.eng.ht = s.eng.ht)

/-- 20_memory.md R71, R73: an instruction's requests are appended to the log in order, and each carries the host's next
answer. (The list of answers and the free value after it: log 2.) -/
def Obligations.RequestsTakeHostAnswersInOrder : Prop :=
  ∀ (i : Instr) (s t : State), exec i s = .next t →
    ∃ tr : Transcript, t.env.log = s.env.log ++ tr ∧ s.env.gives tr ∧
      t.env.answers = s.env.answers.drop tr.length

/-- 20_memory.md R81: a command that issues the request the host never answers does not end; any other ends as it would.
The fault is the model's form of the stall (log 3). -/
def Obligations.UnansweredRequestStalls : Prop :=
  ∀ (s t : State) (len : BitVec 24) (n : Nat), ∀ i ∈ [Instr.start len, .addframe len, .finish len, .oneshot len],
    s.env.unanswered = some n → exec i { s with env := { s.env with unanswered := none } } = .next t →
    exec i s =
      if n < t.env.log.length then .fault .sinkStall
      else .next { t with env := { t.env with unanswered := some n } }

/-- 70_reset_and_hazards.md R278, R284: where the host answers every request, every command ends, with either result. -/
def Obligations.CommandsCompleteWhenAnswered : Prop :=
  ∀ (s : State) (len : BitVec 24), MemoriesCanonical s → s.env.unanswered = none →
    (∀ i ∈ [Instr.start len, .addframe len, .finish len], ∃ t, exec i s = .next t) ∧
    (¬ (s.fmt.sess = .started ∧ s.path = s.fmt.workPath) → ∃ t, exec (.oneshot len) s = .next t)

/-- 10_state.md R45, 70_reset_and_hazards.md R282: what an earlier use of the engine left in it and in `pix_idx` changes
nothing that a command does outside it. -/
def Obligations.EngineStateDoesNotLeak : Prop :=
  ∀ (s u : State) (len : BitVec 24), MemoriesCanonical s → MemoriesCanonical u →
    s.fmt = u.fmt → s.path = u.path → s.fb = u.fb → s.env = u.env →
    ∀ i ∈ [Instr.start len, .addframe len, .finish len, .oneshot len],
      (∀ t, exec i s = .next t →
        ∃ v, exec i u = .next v ∧ t.fmt = v.fmt ∧ t.path = v.path ∧ t.fb = v.fb ∧ t.env = v.env) ∧
      (∀ f, exec i s = .fault f → exec i u = .fault f) ∧ (∀ r, exec i s = .refused r → exec i u = .refused r)

/-- 41_gif_formatter.md R170, 30_encoding.md R93: START, one ADDFRAME for each frame, FINISH, with every answer ok, open
the work file, write exactly the session document, close and rename. -/
def Obligations.SessionDocumentIsPublished : Prop :=
  ∀ (s : State) (frames : List (Memory Word)) (finalPath : Word) (len len' : BitVec 24),
    MemoriesCanonical s → s.fmt.sess = .idle → s.env.racing = [] →
    (∀ fb ∈ frames, Memory.wf unlistedPixel fb = true ∧ ∀ cell ∈ fb, cell.1 < 8192) →
    let document := sessionDocument Config.hw (frames.map fun fb => frameSymbols Config.hw (s.setFb fb))
    let tr : Transcript :=
      (.openSink .session s.path, true) ::
        (accepted .session document ++ [(.close .session, true), (.rename s.path finalPath, true)])
    s.env.gives tr → s.env.answersNext tr.length →
    ∃ t u v, exec (.start len) s = .next t ∧ addFrames frames t = .next u ∧
      exec (.finish len') (u.setPath finalPath) = .next v ∧
      v.env.log = s.env.log ++ tr ∧ v.fmt.result = true ∧ v.fmt.sess = .idle

/-! ### Invariants -/

/-- 10_state.md R24, R36, R37 (the sizes of the memories) and the model's canonical form (logs 5, 6): every step keeps
the memories canonical and within their sizes. -/
def Obligations.StepKeepsMemoriesCanonical : Prop :=
  ∀ s t : State, MemoriesCanonical s → EngineInRange s → step s = .next t → MemoriesCanonical t

/-- 42_lzw_engine.md R214, 10_state.md R21: every step keeps the registers of an active engine in their ranges. -/
def Obligations.StepKeepsEngineInRange : Prop :=
  ∀ s t : State, MemoriesCanonical s → EngineInRange s → step s = .next t → EngineInRange t

/-- 42_lzw_engine.md R210, R186: every step keeps the dictionary of an active engine well formed. -/
def Obligations.StepKeepsDictionaryInOrder : Prop :=
  ∀ s t : State, MemoriesCanonical s → EngineInRange s → DictionaryInOrder s → step s = .next t → DictionaryInOrder t

/-- The reset state meets the invariants. -/
def Obligations.ResetMeetsInvariants : Prop :=
  MemoriesCanonical State.reset ∧ EngineInRange State.reset ∧ DictionaryInOrder State.reset

/-! ### The LZW engine -/

/-- 42_lzw_engine.md R183: LZW_BEGIN completes in every state, with the values the rule lists for `ICS = 2`. -/
def Obligations.LzwBeginStartsFrame : Prop :=
  ∀ s : State, ∃ t, exec .lzwBegin s = .next t ∧
    t.eng.freeEnt = 6#13 ∧ t.eng.nBits = 3#4 ∧ t.eng.acc = 0b100#19 ∧ t.eng.accBits = 3#5 ∧ t.eng.pktCnt = 0#8 ∧
    t.eng.haveEnt = false ∧ t.eng.lzwActive = true ∧ (∀ k, (t.eng.slot k).valid = false) ∧
    t.env.engineOut = s.env.engineOut ++ [0x02#8]

/-- 42_lzw_engine.md R185: the first symbol of a frame becomes the current match; nothing else changes. -/
def Obligations.LzwFirstSymbolStartsMatch : Prop :=
  ∀ (s : State) (sym : BitVec 8), s.eng.lzwActive = true → s.eng.haveEnt = false → sym.toNat < 4 →
    exec (.lzwSymbol sym) s = .next
      { s with eng := { s.eng with ent := sym.setWidth 12, haveEnt := true } }

/-- 42_lzw_engine.md R192: a hit extends the match to its assigned code; nothing else changes. -/
def Obligations.LzwHitExtendsMatch : Prop :=
  ∀ (s : State) (sym : BitVec 8) (code : Nat), s.eng.lzwActive = true → s.eng.haveEnt = true → sym.toNat < 4 →
    DictionaryWf Config.hw s.eng → HasEntry s.eng s.eng.ent.toNat sym.toNat code →
    exec (.lzwSymbol sym) s = .next { s with eng := { s.eng with ent := BitVec.ofNat 12 code } }

/-- 42_lzw_engine.md R193, R196: a miss with room emits the match, starts a new one at the symbol, and inserts the pair
with the next free code at the slot the search stopped at; the width grows by the test on the old `free_ent`. -/
def Obligations.LzwMissInsertsPair : Prop :=
  ∀ (s : State) (sym : BitVec 8), MemoriesCanonical s → s.eng.lzwActive = true → s.eng.haveEnt = true →
    sym.toNat < 4 → EngineRanges Config.hw s.eng → DictionaryWf Config.hw s.eng →
    (∀ code, ¬ HasEntry s.eng s.eng.ent.toNat sym.toNat code) → s.eng.freeEnt.toNat < 4096 →
    ∃ t i, exec (.lzwSymbol sym) s = .next t ∧ lookup Config.hw s.eng sym.toNat s.eng.ent.toNat = some (false, i) ∧
      t.eng.ent.toNat = sym.toNat ∧ t.eng.haveEnt = true ∧ t.eng.lzwActive = true ∧
      t.eng.freeEnt.toNat = s.eng.freeEnt.toNat + 1 ∧
      (t.eng.slot i).valid = true ∧ (t.eng.slot i).prefixCode = s.eng.ent.toNat ∧
      (t.eng.slot i).symbol = sym.toNat ∧ (t.eng.slot i).code.toNat = s.eng.freeEnt.toNat ∧
      (∀ k, k ≠ i → t.eng.slot k = s.eng.slot k) ∧
      t.eng.nBits.toNat =
        if (if s.eng.nBits.toNat = 12 then 4096 else 2 ^ s.eng.nBits.toNat - 1) < s.eng.freeEnt.toNat
        then s.eng.nBits.toNat + 1 else s.eng.nBits.toNat

/-- 42_lzw_engine.md R194: a miss with the dictionary full keeps the symbol as the match, empties the dictionary and
resets the width; the pair is not inserted. -/
def Obligations.LzwMissWhenFullClears : Prop :=
  ∀ (s : State) (sym : BitVec 8) (i : Nat), s.eng.lzwActive = true → s.eng.haveEnt = true → sym.toNat < 4 →
    lookup Config.hw s.eng sym.toNat s.eng.ent.toNat = some (false, i) → s.eng.freeEnt.toNat = 4096 →
    ∃ t, exec (.lzwSymbol sym) s = .next t ∧ t.eng.ent.toNat = sym.toNat ∧ t.eng.haveEnt = true ∧
      t.eng.lzwActive = true ∧ t.eng.freeEnt = 6#13 ∧ t.eng.nBits = 3#4 ∧ ∀ k, (t.eng.slot k).valid = false

/-- 42_lzw_engine.md R198: LZW_END completes with a match in hand, leaves nothing buffered and stops the engine; it
inserts nothing. -/
def Obligations.LzwEndFlushesEverything : Prop :=
  ∀ s : State, s.eng.lzwActive = true → s.eng.haveEnt = true →
    ∃ t, exec .lzwEnd s = .next t ∧ t.eng.accBits = 0#5 ∧ t.eng.pktCnt = 0#8 ∧ t.eng.lzwActive = false ∧
      t.eng.ht = s.eng.ht ∧ t.eng.freeEnt = s.eng.freeEnt

/-- 42_lzw_engine.md R184, R199: what the engine refuses. -/
def Obligations.EngineRefusals : Prop :=
  ∀ (s : State) (sym : BitVec 8),
    (s.eng.lzwActive = false →
      exec (.lzwSymbol sym) s = .refused .engineInactive ∧ exec .lzwEnd s = .refused .engineInactive) ∧
    (s.eng.lzwActive = true → 4 ≤ sym.toNat → exec (.lzwSymbol sym) s = .refused .illegalSymbol) ∧
    (s.eng.lzwActive = true → s.eng.haveEnt = false → exec .lzwEnd s = .refused .endWithoutSymbol)

/-- 42_lzw_engine.md R195 to R197, R200, R201: `emit` puts the code above the buffered bits, moves whole bytes to the
packet, flushes a packet of 254, and sets the next width; a packet byte it does not store to is as before. -/
def Obligations.EmitPacksCode : Prop :=
  ∀ (s : State) (v : Nat), EngineRanges Config.hw s.eng → Memory.wf unlistedByte s.eng.pkt = true →
    v < 2 ^ s.eng.nBits.toNat →
    let bits := s.eng.accBits.toNat + s.eng.nBits.toNat
    let value := s.eng.acc.toNat + v * 2 ^ s.eng.accBits.toNat
    let n := bits / 8
    let bytes := packetBytes s.eng s.eng.pktCnt.toNat ++ (List.range n).map fun i => BitVec.ofNat 8 (value / 256 ^ i)
    ∃ t, emit Config.hw .list v s = .ok t ∧
      t.eng.accBits.toNat = bits % 8 ∧ t.eng.acc.toNat = value / 256 ^ n ∧
      (t.eng.nBits.toNat =
        if v = 4 then 3
        else if (if s.eng.nBits.toNat = 12 then 4096 else 2 ^ s.eng.nBits.toNat - 1) < s.eng.freeEnt.toNat
        then s.eng.nBits.toNat + 1 else s.eng.nBits.toNat) ∧
      (bytes.length < 254 →
        packetBytes t.eng t.eng.pktCnt.toNat = bytes ∧ t.env.engineOut = s.env.engineOut) ∧
      (254 ≤ bytes.length →
        packetBytes t.eng t.eng.pktCnt.toNat = bytes.drop 254 ∧
          t.env.engineOut = s.env.engineOut ++ 0xFE#8 :: bytes.take 254) ∧
      ∀ a, (∀ j, j < n → a ≠ (s.eng.pktCnt.toNat + j) % 254) → t.eng.pktByte a = s.eng.pktByte a

/-- 42_lzw_engine.md R189: with at most 4090 valid slots the probe meets its key or an empty slot within 4091 probes. -/
def Obligations.ProbeEndsWithin4091 : Prop :=
  ∀ (e : Engine) (sym ent : Nat), Memory.wf unlistedSlot e.ht = true → validCount e ≤ 4090 →
    sym < 256 → ent < 4096 →
    let i0 := hashIndex Config.hw sym ent
    ∃ r, probeFrom Config.hw e (fcodeOf Config.hw sym ent) (displacement Config.hw i0) 4091 i0 = some r ∧
      lookup Config.hw e sym ent = some r

/-- 42_lzw_engine.md R188: the closed form of the `k`-th slot probed. -/
def Obligations.ProbeSequenceClosedForm : Prop :=
  ∀ i0 k : Nat, i0 < 5003 →
    (nextProbe Config.hw (displacement Config.hw i0))^[k] i0 =
      if i0 = 0 then (5003 - k % 5003) % 5003 else (k + 1) * i0 % 5003

/-- 42_lzw_engine.md R186: what the search answers, in terms of the abstract dictionary. -/
def Obligations.LookupFindsDictionaryEntry : Prop :=
  ∀ (e : Engine) (sym ent : Nat) (hit : Bool) (i : Nat), DictionaryWf Config.hw e → sym < 256 → ent < 4096 →
    lookup Config.hw e sym ent = some (hit, i) →
    (hit = true ↔ ∃ code, HasEntry e ent sym code) ∧
    (hit = true → HasEntry e ent sym (e.slot i).code.toNat) ∧ (hit = false → (e.slot i).valid = false)

/-- 42_lzw_engine.md R181, R191, R211: LZW_BEGIN, the symbols, LZW_END output the code-size byte and the sub-blocks of the
payload of the code stream, whose dictionary is a finite map. -/
def Obligations.EngineOutputIsBlock : Prop :=
  ∀ (s : State) (q : List Nat), MemoriesCanonical s → q ≠ [] → (∀ x ∈ q, x < 4) →
    ∃ t, execAll (.lzwBegin :: (q.map (fun x => Instr.lzwSymbol (BitVec.ofNat 8 x)) ++ [.lzwEnd])) s = .next t ∧
      t.env.engineOut = s.env.engineOut ++ engineBytes Config.hw q

/-- 41_gif_formatter.md R172, 42_lzw_engine.md R215: the standard decoder (95_test_vectors.md section 5; log 23) gives the
symbols back from every block. -/
def Obligations.BlockDecodesToFrame : Prop :=
  ∀ q : List Nat, q ≠ [] → (∀ x ∈ q, x < 4) → decodeBlock Config.hw (lzwData Config.hw q) = some q

/-- 30_encoding.md R115, 42_lzw_engine.md R212: every code's width is that of its position in its segment. -/
def Obligations.CodeWidthDependsOnPosition : Prop :=
  ∀ q : List Nat, (∀ x ∈ q, x < 4) → onSchedule Config.hw 0 (codes Config.hw q)

/-- 42_lzw_engine.md R213: the payload of a one-symbol frame has 2 bytes, no payload has fewer, and there is always a
sub-block. -/
def Obligations.PayloadHasTwoBytes : Prop :=
  (∀ x : Nat, codes Config.hw [x] = [(4, 3), (x, 3), (5, 3)] ∧ (payload (codes Config.hw [x])).length = 2) ∧
  ∀ q : List Nat, q ≠ [] →
    2 ≤ (payload (codes Config.hw q)).length ∧ subBlocks Config.hw (payload (codes Config.hw q)) ≠ []

/-! ### The stream, the channel, the frame buffer -/

/-- 30_encoding.md R95 to R100, R103: the structural bytes for `W = 128`, `H = 64`. -/
def Obligations.StructuralBytes : Prop :=
  sigBytes = [0x47#8, 0x49#8, 0x46#8, 0x38#8, 0x39#8, 0x61#8] ∧
  lsdBytes Config.hw = [0x80#8, 0x00#8, 0x40#8, 0x00#8, 0x88#8, 0x00#8, 0x00#8] ∧
  gctBytes Config.hw = [0x00#8, 0x00#8, 0x00#8, 0xFF#8, 0xFF#8, 0xFF#8] ∧
  gceBytes Config.hw = [0x21#8, 0xF9#8, 0x04#8, 0x00#8, 0x02#8, 0x00#8, 0x00#8, 0x00#8] ∧
  idBytes Config.hw =
    [0x2C#8, 0x00#8, 0x00#8, 0x00#8, 0x00#8, 0x80#8, 0x00#8, 0x40#8, 0x00#8, 0x00#8] ∧
  trailerByte = 0x3B#8

/-- 20_memory.md R70 and 60_exceptions.md R240: the channel records of the five request kinds, and the cause codes. -/
def Obligations.ChannelRecordsAndCauseCodes : Prop :=
  (∀ (a b : Word) (byte : Byte) (ctx : Ctx),
    (Request.openSink ctx a).record = { kind := 1#3, ctx := ctx.bit, a := a, b := 0#32 } ∧
    (Request.write ctx byte).record.kind = 2#3 ∧ (Request.write ctx byte).record.ctx = ctx.bit ∧
    (Request.write ctx byte).record.a.toNat = byte.toNat ∧ (Request.write ctx byte).record.b = 0#32 ∧
    (Request.close ctx).record = { kind := 3#3, ctx := ctx.bit, a := 0#32, b := 0#32 } ∧
    (Request.rename a b).record = { kind := 4#3, ctx := 0#1, a := a, b := b } ∧
    (Request.delete a).record = { kind := 5#3, ctx := 0#1, a := a, b := 0#32 }) ∧
  Ctx.session.bit = 0#1 ∧ Ctx.oneshot.bit = 1#1 ∧
  [Cause.none, .alreadyStarted, .notStarted, .sizeMismatch, .ioFailure, .illegalCommand].map Cause.code =
    [0#3, 1#3, 2#3, 3#3, 4#3, 5#3]

/-- 10_state.md R36, 20_memory.md R78: the host's write between commands changes one word; a word that the host is
writing while a command runs reads as the old or the new one, and any other as it stands. (The fault at an index of 8192 or
more is log 15, the racing read's free choice log 11.) -/
def Obligations.FrameBufferReadsAndWrites : Prop :=
  (∀ (s : State) (i : Nat) (w : Word) (rest : List HostMove), MemoriesCanonical s →
    s.env.inbox = .writeFb i w :: rest → i < 8192 →
    ∃ t, step s = .next t ∧ Memory.read unlistedPixel t.fb i = w ∧
      (∀ a, a ≠ i → Memory.read unlistedPixel t.fb a = Memory.read unlistedPixel s.fb a) ∧
      t = { s with fb := t.fb, env := { s.env with inbox := rest } }) ∧
  (∀ (s : State) (i : Nat) (w : Word) (rest : List HostMove), s.env.inbox = .writeFb i w :: rest → 8192 ≤ i →
    step s = .fault .fbIndexOutOfRange) ∧
  (∀ (s : State) (i : Nat), raced s i = false → readPixel i s = (Memory.read unlistedPixel s.fb i, s)) ∧
  ∀ (s : State) (i : Nat) (w : Word), s.env.racing = [(i, w)] →
    (readPixel i s).1 = Memory.read unlistedPixel s.fb i ∨ (readPixel i s).1 = w
end

