-- ==== Sys2Proof/Laws/Config.lean ====
section
/-! SUPPORT. The parameters of this hardware, field by field (00_scope.md R5), and that they meet 00_scope.md R6. -/

namespace Sys2Proof.Config

@[simp] theorem hw_width : hw.width = 128 := rfl
@[simp] theorem hw_height : hw.height = 64 := rfl
@[simp] theorem hw_ics : hw.ics = 2 := rfl
@[simp] theorem hw_maxBits : hw.maxBits = 12 := rfl
@[simp] theorem hw_hsize : hw.hsize = 5003 := rfl
@[simp] theorem hw_hshift : hw.hshift = 4 := rfl
@[simp] theorem hw_pktMax : hw.pktMax = 254 := rfl
@[simp] theorem hw_delay : hw.delay = 2 := rfl
@[simp] theorem hw_qr : hw.qr = 306 := rfl
@[simp] theorem hw_qg : hw.qg = 601 := rfl
@[simp] theorem hw_qb : hw.qb = 117 := rfl
@[simp] theorem hw_qt : hw.qt = 512 := rfl
@[simp] theorem hw_npix : hw.npix = 8192 := rfl
@[simp] theorem hw_maxMaxCode : hw.maxMaxCode = 4096 := rfl
@[simp] theorem hw_clear : hw.clear = 4 := rfl
@[simp] theorem hw_eofc : hw.eofc = 5 := rfl
@[simp] theorem hw_first : hw.first = 6 := rfl

theorem hw_wf : hw.wf = true := by decide

end Sys2Proof.Config
end

