-- ==== Sys2Proof/Laws/Memory.lean ====
section
/-! SUPPORT. The laws of memories: read after write, the canonical form kept by every operation, equality of canonical
memories by their reads. -/

namespace Sys2Proof.Machine

variable {α : Type} [DecidableEq α] {unlisted : α}

omit [DecidableEq α] in
@[simp] theorem Memory.read_nil (i : Nat) : Memory.read unlisted [] i = unlisted := rfl

omit [DecidableEq α] in
@[simp] theorem Memory.read_cons (j i : Nat) (w : α) (rest : Memory α) :
    Memory.read unlisted ((j, w) :: rest) i = if j = i then w else Memory.read unlisted rest i := rfl

@[simp] theorem Memory.wf_nil : Memory.wf unlisted ([] : Memory α) = true := rfl

theorem Memory.wf_cons {i : Nat} {v : α} {rest : Memory α} :
    Memory.wf unlisted ((i, v) :: rest) = true ↔
      v ≠ unlisted ∧ (∀ cell ∈ rest, i < cell.1) ∧ Memory.wf unlisted rest = true := by
  simp [Memory.wf, and_assoc]

omit [DecidableEq α] in
/-- Below its first listed index a memory reads as unlisted. -/
theorem Memory.read_of_lt {m : Memory α} {i : Nat} (h : ∀ cell ∈ m, i < cell.1) :
    Memory.read unlisted m i = unlisted := by
  induction m with
  | nil => rfl
  | cons cell rest ih =>
    obtain ⟨j, w⟩ := cell
    have hj : i < j := h (j, w) (by simp)
    rw [Memory.read_cons, if_neg (by omega)]
    exact ih fun c hc => h c (by simp [hc])

theorem Memory.read_write_same {m : Memory α} (h : Memory.wf unlisted m = true) (i : Nat) (v : α) :
    Memory.read unlisted (Memory.write unlisted m i v) i = v := by
  induction m with
  | nil => by_cases hv : v = unlisted <;> simp [Memory.write, hv]
  | cons cell rest ih =>
    obtain ⟨j, w⟩ := cell
    obtain ⟨-, hlow, hrest⟩ := Memory.wf_cons.mp h
    rcases lt_trichotomy i j with hij | rfl | hij
    · by_cases hv : v = unlisted
      · have : Memory.read unlisted rest i = unlisted := Memory.read_of_lt fun c hc => hij.trans (hlow c hc)
        simp [Memory.write, hij, hv, this, show j ≠ i by omega]
      · simp [Memory.write, hij, hv]
    · by_cases hv : v = unlisted
      · simp [Memory.write, hv, Memory.read_of_lt hlow]
      · simp [Memory.write, hv]
    · simp [Memory.write, show ¬ i < j by omega, show i ≠ j by omega, show j ≠ i by omega, ih hrest]

theorem Memory.read_write_ne (m : Memory α) {i k : Nat} (hk : k ≠ i) (v : α) :
    Memory.read unlisted (Memory.write unlisted m i v) k = Memory.read unlisted m k := by
  induction m with
  | nil => by_cases hv : v = unlisted <;> simp [Memory.write, hv, hk.symm]
  | cons cell rest ih =>
    obtain ⟨j, w⟩ := cell
    rcases lt_trichotomy i j with hij | rfl | hij
    · by_cases hv : v = unlisted <;> simp [Memory.write, hij, hv, hk.symm]
    · by_cases hv : v = unlisted <;> simp [Memory.write, hv, hk.symm]
    · simp [Memory.write, show ¬ i < j by omega, show i ≠ j by omega, ih]

/-- The cells of a written memory are the written one and old ones. -/
theorem Memory.mem_write {m : Memory α} {i : Nat} {v : α} {cell : Nat × α}
    (h : cell ∈ Memory.write unlisted m i v) : cell = (i, v) ∨ cell ∈ m := by
  induction m with
  | nil =>
    simp only [Memory.write] at h
    split at h <;> simp_all
  | cons c rest ih =>
    obtain ⟨j, w⟩ := c
    simp only [Memory.write] at h
    split at h
    · split at h <;> simp_all
    · split at h
      · split at h
        · exact .inr (List.mem_cons_of_mem _ h)
        · rcases List.mem_cons.mp h with rfl | h
          · exact .inl rfl
          · exact .inr (List.mem_cons_of_mem _ h)
      · rcases List.mem_cons.mp h with rfl | h
        · exact .inr (by simp)
        · exact (ih h).imp id (List.mem_cons_of_mem _)

theorem Memory.wf_write {m : Memory α} (h : Memory.wf unlisted m = true) (i : Nat) (v : α) :
    Memory.wf unlisted (Memory.write unlisted m i v) = true := by
  induction m with
  | nil => by_cases hv : v = unlisted <;> simp [Memory.write, Memory.wf, hv]
  | cons cell rest ih =>
    obtain ⟨j, w⟩ := cell
    obtain ⟨hw, hlow, hrest⟩ := Memory.wf_cons.mp h
    rcases lt_trichotomy i j with hij | rfl | hij
    · by_cases hv : v = unlisted
      · simpa [Memory.write, hij, hv] using h
      · simp only [Memory.write, if_pos hij, if_neg hv]
        refine Memory.wf_cons.mpr ⟨hv, fun c hc => ?_, h⟩
        rcases List.mem_cons.mp hc with rfl | hc
        · exact hij
        · exact hij.trans (hlow c hc)
    · by_cases hv : v = unlisted
      · simpa [Memory.write, hv] using hrest
      · simp only [Memory.write, lt_irrefl, if_false, if_true, if_neg hv]
        exact Memory.wf_cons.mpr ⟨hv, hlow, hrest⟩
    · simp only [Memory.write, if_neg (show ¬ i < j by omega), if_neg (show i ≠ j by omega)]
      refine Memory.wf_cons.mpr ⟨hw, fun c hc => ?_, ih hrest⟩
      rcases Memory.mem_write hc with rfl | hc
      · exact hij
      · exact hlow c hc

theorem Memory.mem_mapAll {f : α → α} {m : Memory α} {cell : Nat × α}
    (h : cell ∈ Memory.mapAll unlisted f m) : ∃ v, (cell.1, v) ∈ m ∧ cell.2 = f v := by
  induction m with
  | nil => simp [Memory.mapAll] at h
  | cons c rest ih =>
    obtain ⟨j, w⟩ := c
    simp only [Memory.mapAll] at h
    split at h
    · obtain ⟨v, hv, hf⟩ := ih h
      exact ⟨v, List.mem_cons_of_mem _ hv, hf⟩
    · rcases List.mem_cons.mp h with rfl | h
      · exact ⟨w, by simp, rfl⟩
      · obtain ⟨v, hv, hf⟩ := ih h
        exact ⟨v, List.mem_cons_of_mem _ hv, hf⟩

theorem Memory.wf_mapAll (f : α → α) {m : Memory α} (h : Memory.wf unlisted m = true) :
    Memory.wf unlisted (Memory.mapAll unlisted f m) = true := by
  induction m with
  | nil => rfl
  | cons cell rest ih =>
    obtain ⟨j, w⟩ := cell
    obtain ⟨-, hlow, hrest⟩ := Memory.wf_cons.mp h
    by_cases hf : f w = unlisted
    · simpa [Memory.mapAll, hf] using ih hrest
    · simp only [Memory.mapAll, if_neg hf]
      refine Memory.wf_cons.mpr ⟨hf, fun c hc => ?_, ih hrest⟩
      obtain ⟨v, hv, -⟩ := Memory.mem_mapAll hc
      exact hlow (c.1, v) hv

theorem Memory.read_mapAll {f : α → α} (hf : f unlisted = unlisted) {m : Memory α}
    (h : Memory.wf unlisted m = true) (i : Nat) :
    Memory.read unlisted (Memory.mapAll unlisted f m) i = f (Memory.read unlisted m i) := by
  induction m with
  | nil => simp [Memory.mapAll, hf]
  | cons cell rest ih =>
    obtain ⟨j, w⟩ := cell
    obtain ⟨-, hlow, hrest⟩ := Memory.wf_cons.mp h
    by_cases hw : f w = unlisted
    · simp only [Memory.mapAll, if_pos hw, Memory.read_cons, ih hrest]
      split
      · next hji =>
        subst hji
        rw [Memory.read_of_lt hlow, hf, hw]
      · rfl
    · simp only [Memory.mapAll, if_neg hw, Memory.read_cons, ih hrest]
      split <;> rfl

/-- Every element of a mapped memory satisfies what `f` establishes and the unlisted element has. -/
theorem Memory.read_mapAll_prop {P : α → Prop} {f : α → α} (h0 : P unlisted) (hf : ∀ v, P (f v)) (m : Memory α)
    (i : Nat) : P (Memory.read unlisted (Memory.mapAll unlisted f m) i) := by
  induction m with
  | nil => exact h0
  | cons cell rest ih =>
    obtain ⟨j, w⟩ := cell
    simp only [Memory.mapAll]
    split
    · exact ih
    · rw [Memory.read_cons]
      split
      · exact hf w
      · exact ih

/-- A listed element is what its index reads as. -/
theorem Memory.read_of_mem {m : Memory α} (h : Memory.wf unlisted m = true) {i : Nat} {v : α} (hm : (i, v) ∈ m) :
    Memory.read unlisted m i = v := by
  induction m with
  | nil => simp at hm
  | cons cell rest ih =>
    obtain ⟨j, w⟩ := cell
    obtain ⟨-, hlow, hrest⟩ := Memory.wf_cons.mp h
    rcases List.mem_cons.mp hm with heq | hm
    · cases heq
      simp
    · rw [Memory.read_cons, if_neg (by have := hlow _ hm; simp at this; omega)]
      exact ih hrest hm

omit [DecidableEq α] in
/-- An index that does not read as unlisted is listed. -/
theorem Memory.mem_of_read {m : Memory α} {i : Nat} (h : Memory.read unlisted m i ≠ unlisted) :
    (i, Memory.read unlisted m i) ∈ m := by
  induction m with
  | nil => exact absurd rfl h
  | cons cell rest ih =>
    obtain ⟨j, w⟩ := cell
    rw [Memory.read_cons] at h ⊢
    split
    · next hji => simp [hji]
    · next hji =>
      rw [if_neg hji] at h
      exact List.mem_cons_of_mem _ (ih h)

/-- Canonical memories with equal reads are equal. -/
theorem Memory.ext_of_wf {m n : Memory α} (hm : Memory.wf unlisted m = true) (hn : Memory.wf unlisted n = true)
    (h : ∀ i, Memory.read unlisted m i = Memory.read unlisted n i) : m = n := by
  induction m generalizing n with
  | nil =>
    cases n with
    | nil => rfl
    | cons cell rest =>
      obtain ⟨j, w⟩ := cell
      have := h j
      simp only [Memory.read_nil, Memory.read_cons, if_true] at this
      exact absurd this.symm (Memory.wf_cons.mp hn).1
  | cons cell rest ih =>
    obtain ⟨j, w⟩ := cell
    obtain ⟨hw, hlow, hrest⟩ := Memory.wf_cons.mp hm
    cases n with
    | nil =>
      have := h j
      simp only [Memory.read_nil, Memory.read_cons, if_true] at this
      exact absurd this hw
    | cons cell' rest' =>
      obtain ⟨k, u⟩ := cell'
      obtain ⟨hu, hlow', hrest'⟩ := Memory.wf_cons.mp hn
      have hjk : j = k := by
        rcases lt_trichotomy j k with hlt | heq | hgt
        · have := h j
          rw [Memory.read_cons, if_pos rfl, Memory.read_cons, if_neg (by omega),
            Memory.read_of_lt fun c hc => hlt.trans (hlow' c hc)] at this
          exact absurd this hw
        · exact heq
        · have := h k
          rw [Memory.read_cons, if_neg (by omega), Memory.read_of_lt fun c hc => hgt.trans (hlow c hc),
            Memory.read_cons, if_pos rfl] at this
          exact absurd this.symm hu
      subst hjk
      have hwu : w = u := by simpa using h j
      subst hwu
      rw [ih hrest hrest' fun i => ?_]
      by_cases hi : i = j
      · subst hi
        rw [Memory.read_of_lt hlow, Memory.read_of_lt hlow']
      · have := h i
        rwa [Memory.read_cons, if_neg (by omega), Memory.read_cons, if_neg (by omega)] at this

end Sys2Proof.Machine
end

