-- ==== Sys2Proof/Laws/State.lean ====
section
/-! SUPPORT. One lemma for each field and each update of the state's records, all by rfl. -/

namespace Sys2Proof.Machine

/-! ### State -/

@[simp] theorem setFmt_fmt (s : State) (v : Formatter) : (s.setFmt v).fmt = v := rfl
@[simp] theorem setFmt_path (s : State) (v : Formatter) : (s.setFmt v).path = s.path := rfl
@[simp] theorem setFmt_pixIdx (s : State) (v : Formatter) : (s.setFmt v).pixIdx = s.pixIdx := rfl
@[simp] theorem setFmt_eng (s : State) (v : Formatter) : (s.setFmt v).eng = s.eng := rfl
@[simp] theorem setFmt_fb (s : State) (v : Formatter) : (s.setFmt v).fb = s.fb := rfl
@[simp] theorem setFmt_env (s : State) (v : Formatter) : (s.setFmt v).env = s.env := rfl
@[simp] theorem setPath_fmt (s : State) (v : Word) : (s.setPath v).fmt = s.fmt := rfl
@[simp] theorem setPath_path (s : State) (v : Word) : (s.setPath v).path = v := rfl
@[simp] theorem setPath_pixIdx (s : State) (v : Word) : (s.setPath v).pixIdx = s.pixIdx := rfl
@[simp] theorem setPath_eng (s : State) (v : Word) : (s.setPath v).eng = s.eng := rfl
@[simp] theorem setPath_fb (s : State) (v : Word) : (s.setPath v).fb = s.fb := rfl
@[simp] theorem setPath_env (s : State) (v : Word) : (s.setPath v).env = s.env := rfl
@[simp] theorem setPixIdx_fmt (s : State) (v : BitVec 24) : (s.setPixIdx v).fmt = s.fmt := rfl
@[simp] theorem setPixIdx_path (s : State) (v : BitVec 24) : (s.setPixIdx v).path = s.path := rfl
@[simp] theorem setPixIdx_pixIdx (s : State) (v : BitVec 24) : (s.setPixIdx v).pixIdx = v := rfl
@[simp] theorem setPixIdx_eng (s : State) (v : BitVec 24) : (s.setPixIdx v).eng = s.eng := rfl
@[simp] theorem setPixIdx_fb (s : State) (v : BitVec 24) : (s.setPixIdx v).fb = s.fb := rfl
@[simp] theorem setPixIdx_env (s : State) (v : BitVec 24) : (s.setPixIdx v).env = s.env := rfl
@[simp] theorem setEng_fmt (s : State) (v : Engine) : (s.setEng v).fmt = s.fmt := rfl
@[simp] theorem setEng_path (s : State) (v : Engine) : (s.setEng v).path = s.path := rfl
@[simp] theorem setEng_pixIdx (s : State) (v : Engine) : (s.setEng v).pixIdx = s.pixIdx := rfl
@[simp] theorem setEng_eng (s : State) (v : Engine) : (s.setEng v).eng = v := rfl
@[simp] theorem setEng_fb (s : State) (v : Engine) : (s.setEng v).fb = s.fb := rfl
@[simp] theorem setEng_env (s : State) (v : Engine) : (s.setEng v).env = s.env := rfl
@[simp] theorem setFb_fmt (s : State) (v : Memory Word) : (s.setFb v).fmt = s.fmt := rfl
@[simp] theorem setFb_path (s : State) (v : Memory Word) : (s.setFb v).path = s.path := rfl
@[simp] theorem setFb_pixIdx (s : State) (v : Memory Word) : (s.setFb v).pixIdx = s.pixIdx := rfl
@[simp] theorem setFb_eng (s : State) (v : Memory Word) : (s.setFb v).eng = s.eng := rfl
@[simp] theorem setFb_fb (s : State) (v : Memory Word) : (s.setFb v).fb = v := rfl
@[simp] theorem setFb_env (s : State) (v : Memory Word) : (s.setFb v).env = s.env := rfl
@[simp] theorem setEnv_fmt (s : State) (v : Env) : (s.setEnv v).fmt = s.fmt := rfl
@[simp] theorem setEnv_path (s : State) (v : Env) : (s.setEnv v).path = s.path := rfl
@[simp] theorem setEnv_pixIdx (s : State) (v : Env) : (s.setEnv v).pixIdx = s.pixIdx := rfl
@[simp] theorem setEnv_eng (s : State) (v : Env) : (s.setEnv v).eng = s.eng := rfl
@[simp] theorem setEnv_fb (s : State) (v : Env) : (s.setEnv v).fb = s.fb := rfl
@[simp] theorem setEnv_env (s : State) (v : Env) : (s.setEnv v).env = v := rfl
@[simp] theorem setInbox_fmt (s : State) (l : List HostMove) : (s.setInbox l).fmt = s.fmt := rfl
@[simp] theorem setInbox_path (s : State) (l : List HostMove) : (s.setInbox l).path = s.path := rfl
@[simp] theorem setInbox_pixIdx (s : State) (l : List HostMove) : (s.setInbox l).pixIdx = s.pixIdx := rfl
@[simp] theorem setInbox_eng (s : State) (l : List HostMove) : (s.setInbox l).eng = s.eng := rfl
@[simp] theorem setInbox_fb (s : State) (l : List HostMove) : (s.setInbox l).fb = s.fb := rfl
@[simp] theorem setInbox_env (s : State) (l : List HostMove) : (s.setInbox l).env = { s.env with inbox := l } := rfl
@[simp] theorem failCommand_fmt (cause : Cause) (s : State) : (failCommand cause s).fmt = s.fmt.returned false cause := rfl
@[simp] theorem failCommand_path (cause : Cause) (s : State) : (failCommand cause s).path = s.path := rfl
@[simp] theorem failCommand_pixIdx (cause : Cause) (s : State) : (failCommand cause s).pixIdx = s.pixIdx := rfl
@[simp] theorem failCommand_eng (cause : Cause) (s : State) : (failCommand cause s).eng = s.eng := rfl
@[simp] theorem failCommand_fb (cause : Cause) (s : State) : (failCommand cause s).fb = s.fb := rfl
@[simp] theorem failCommand_env (cause : Cause) (s : State) : (failCommand cause s).env = s.env := rfl
@[simp] theorem completeCommand_fmt (s : State) : (completeCommand s).fmt = s.fmt.returned true .none := rfl
@[simp] theorem completeCommand_path (s : State) : (completeCommand s).path = s.path := rfl
@[simp] theorem completeCommand_pixIdx (s : State) : (completeCommand s).pixIdx = s.pixIdx := rfl
@[simp] theorem completeCommand_eng (s : State) : (completeCommand s).eng = s.eng := rfl
@[simp] theorem completeCommand_fb (s : State) : (completeCommand s).fb = s.fb := rfl
@[simp] theorem completeCommand_env (s : State) : (completeCommand s).env = s.env := rfl
@[simp] theorem abandonEngine_fmt (s : State) : (abandonEngine s).fmt = s.fmt := rfl
@[simp] theorem abandonEngine_path (s : State) : (abandonEngine s).path = s.path := rfl
@[simp] theorem abandonEngine_pixIdx (s : State) : (abandonEngine s).pixIdx = s.pixIdx := rfl
@[simp] theorem abandonEngine_eng (s : State) : (abandonEngine s).eng = s.eng.stop := rfl
@[simp] theorem abandonEngine_fb (s : State) : (abandonEngine s).fb = s.fb := rfl
@[simp] theorem abandonEngine_env (s : State) : (abandonEngine s).env = s.env := rfl
@[simp] theorem landRaces_fmt (s : State) : (landRaces s).fmt = s.fmt := rfl
@[simp] theorem landRaces_path (s : State) : (landRaces s).path = s.path := rfl
@[simp] theorem landRaces_pixIdx (s : State) : (landRaces s).pixIdx = s.pixIdx := rfl
@[simp] theorem landRaces_eng (s : State) : (landRaces s).eng = s.eng := rfl
@[simp] theorem landRaces_env (s : State) : (landRaces s).env = { s.env with racing := [] } := rfl

/-! ### Formatter -/

@[simp] theorem Formatter.returned_sess (f : Formatter) (r : Bool) (k : Cause) : (f.returned r k).sess = f.sess := rfl
@[simp] theorem Formatter.returned_firstPending (f : Formatter) (r : Bool) (k : Cause) : (f.returned r k).firstPending = f.firstPending := rfl
@[simp] theorem Formatter.returned_workPath (f : Formatter) (r : Bool) (k : Cause) : (f.returned r k).workPath = f.workPath := rfl
@[simp] theorem Formatter.returned_result (f : Formatter) (r : Bool) (k : Cause) : (f.returned r k).result = r := rfl
@[simp] theorem Formatter.returned_lastCause (f : Formatter) (r : Bool) (k : Cause) : (f.returned r k).lastCause = k := rfl
@[simp] theorem Formatter.openSession_sess (f : Formatter) (p : Word) : (f.openSession p).sess = .started := rfl
@[simp] theorem Formatter.openSession_firstPending (f : Formatter) (p : Word) : (f.openSession p).firstPending = true := rfl
@[simp] theorem Formatter.openSession_workPath (f : Formatter) (p : Word) : (f.openSession p).workPath = p := rfl
@[simp] theorem Formatter.openSession_result (f : Formatter) (p : Word) : (f.openSession p).result = f.result := rfl
@[simp] theorem Formatter.openSession_lastCause (f : Formatter) (p : Word) : (f.openSession p).lastCause = f.lastCause := rfl
@[simp] theorem Formatter.headerWritten_sess (f : Formatter) : f.headerWritten.sess = f.sess := rfl
@[simp] theorem Formatter.headerWritten_firstPending (f : Formatter) : f.headerWritten.firstPending = false := rfl
@[simp] theorem Formatter.headerWritten_workPath (f : Formatter) : f.headerWritten.workPath = f.workPath := rfl
@[simp] theorem Formatter.headerWritten_result (f : Formatter) : f.headerWritten.result = f.result := rfl
@[simp] theorem Formatter.headerWritten_lastCause (f : Formatter) : f.headerWritten.lastCause = f.lastCause := rfl
@[simp] theorem Formatter.closeSession_sess (f : Formatter) : f.closeSession.sess = .idle := rfl
@[simp] theorem Formatter.closeSession_firstPending (f : Formatter) : f.closeSession.firstPending = f.firstPending := rfl
@[simp] theorem Formatter.closeSession_workPath (f : Formatter) : f.closeSession.workPath = f.workPath := rfl
@[simp] theorem Formatter.closeSession_result (f : Formatter) : f.closeSession.result = f.result := rfl
@[simp] theorem Formatter.closeSession_lastCause (f : Formatter) : f.closeSession.lastCause = f.lastCause := rfl

/-! ### Engine -/

@[simp] theorem Engine.clearValid_ent (e : Engine) : e.clearValid.ent = e.ent := rfl
@[simp] theorem Engine.clearValid_haveEnt (e : Engine) : e.clearValid.haveEnt = e.haveEnt := rfl
@[simp] theorem Engine.clearValid_freeEnt (e : Engine) : e.clearValid.freeEnt = e.freeEnt := rfl
@[simp] theorem Engine.clearValid_nBits (e : Engine) : e.clearValid.nBits = e.nBits := rfl
@[simp] theorem Engine.clearValid_acc (e : Engine) : e.clearValid.acc = e.acc := rfl
@[simp] theorem Engine.clearValid_accBits (e : Engine) : e.clearValid.accBits = e.accBits := rfl
@[simp] theorem Engine.clearValid_pktCnt (e : Engine) : e.clearValid.pktCnt = e.pktCnt := rfl
@[simp] theorem Engine.clearValid_lzwActive (e : Engine) : e.clearValid.lzwActive = e.lzwActive := rfl
@[simp] theorem Engine.clearValid_ht (e : Engine) :
    e.clearValid.ht = Memory.mapAll unlistedSlot (fun slot => { slot with valid := false }) e.ht := rfl
@[simp] theorem Engine.clearValid_pkt (e : Engine) : e.clearValid.pkt = e.pkt := rfl
@[simp] theorem Engine.begin_ent (e : Engine) (c : Config) : (e.begin c).ent = e.ent := rfl
@[simp] theorem Engine.begin_haveEnt (e : Engine) (c : Config) : (e.begin c).haveEnt = false := rfl
@[simp] theorem Engine.begin_freeEnt (e : Engine) (c : Config) : (e.begin c).freeEnt = BitVec.ofNat 13 c.first := rfl
@[simp] theorem Engine.begin_nBits (e : Engine) (c : Config) : (e.begin c).nBits = BitVec.ofNat 4 (c.ics + 1) := rfl
@[simp] theorem Engine.begin_acc (e : Engine) (c : Config) : (e.begin c).acc = 0#19 := rfl
@[simp] theorem Engine.begin_accBits (e : Engine) (c : Config) : (e.begin c).accBits = 0#5 := rfl
@[simp] theorem Engine.begin_pktCnt (e : Engine) (c : Config) : (e.begin c).pktCnt = 0#8 := rfl
@[simp] theorem Engine.begin_lzwActive (e : Engine) (c : Config) : (e.begin c).lzwActive = true := rfl
@[simp] theorem Engine.begin_ht (e : Engine) (c : Config) :
    (e.begin c).ht = Memory.mapAll unlistedSlot (fun slot => { slot with valid := false }) e.ht := rfl
@[simp] theorem Engine.begin_pkt (e : Engine) (c : Config) : (e.begin c).pkt = e.pkt := rfl
@[simp] theorem Engine.pack_ent (e : Engine) (v : Nat) : (e.pack v).ent = e.ent := rfl
@[simp] theorem Engine.pack_haveEnt (e : Engine) (v : Nat) : (e.pack v).haveEnt = e.haveEnt := rfl
@[simp] theorem Engine.pack_freeEnt (e : Engine) (v : Nat) : (e.pack v).freeEnt = e.freeEnt := rfl
@[simp] theorem Engine.pack_nBits (e : Engine) (v : Nat) : (e.pack v).nBits = e.nBits := rfl
@[simp] theorem Engine.pack_acc (e : Engine) (v : Nat) :
    (e.pack v).acc = BitVec.ofNat 19 (e.acc.toNat ||| (v <<< e.accBits.toNat)) := rfl
@[simp] theorem Engine.pack_accBits (e : Engine) (v : Nat) :
    (e.pack v).accBits = BitVec.ofNat 5 (e.accBits.toNat + e.nBits.toNat) := rfl
@[simp] theorem Engine.pack_pktCnt (e : Engine) (v : Nat) : (e.pack v).pktCnt = e.pktCnt := rfl
@[simp] theorem Engine.pack_lzwActive (e : Engine) (v : Nat) : (e.pack v).lzwActive = e.lzwActive := rfl
@[simp] theorem Engine.pack_ht (e : Engine) (v : Nat) : (e.pack v).ht = e.ht := rfl
@[simp] theorem Engine.pack_pkt (e : Engine) (v : Nat) : (e.pack v).pkt = e.pkt := rfl
@[simp] theorem Engine.dropByte_ent (e : Engine) : e.dropByte.ent = e.ent := rfl
@[simp] theorem Engine.dropByte_haveEnt (e : Engine) : e.dropByte.haveEnt = e.haveEnt := rfl
@[simp] theorem Engine.dropByte_freeEnt (e : Engine) : e.dropByte.freeEnt = e.freeEnt := rfl
@[simp] theorem Engine.dropByte_nBits (e : Engine) : e.dropByte.nBits = e.nBits := rfl
@[simp] theorem Engine.dropByte_acc (e : Engine) : e.dropByte.acc = e.acc >>> 8 := rfl
@[simp] theorem Engine.dropByte_accBits (e : Engine) :
    e.dropByte.accBits = BitVec.ofNat 5 (e.accBits.toNat - 8) := rfl
@[simp] theorem Engine.dropByte_pktCnt (e : Engine) : e.dropByte.pktCnt = e.pktCnt := rfl
@[simp] theorem Engine.dropByte_lzwActive (e : Engine) : e.dropByte.lzwActive = e.lzwActive := rfl
@[simp] theorem Engine.dropByte_ht (e : Engine) : e.dropByte.ht = e.ht := rfl
@[simp] theorem Engine.dropByte_pkt (e : Engine) : e.dropByte.pkt = e.pkt := rfl
@[simp] theorem Engine.setWidth_ent (e : Engine) (n : Nat) : (e.setWidth n).ent = e.ent := rfl
@[simp] theorem Engine.setWidth_haveEnt (e : Engine) (n : Nat) : (e.setWidth n).haveEnt = e.haveEnt := rfl
@[simp] theorem Engine.setWidth_freeEnt (e : Engine) (n : Nat) : (e.setWidth n).freeEnt = e.freeEnt := rfl
@[simp] theorem Engine.setWidth_nBits (e : Engine) (n : Nat) : (e.setWidth n).nBits = BitVec.ofNat 4 n := rfl
@[simp] theorem Engine.setWidth_acc (e : Engine) (n : Nat) : (e.setWidth n).acc = e.acc := rfl
@[simp] theorem Engine.setWidth_accBits (e : Engine) (n : Nat) : (e.setWidth n).accBits = e.accBits := rfl
@[simp] theorem Engine.setWidth_pktCnt (e : Engine) (n : Nat) : (e.setWidth n).pktCnt = e.pktCnt := rfl
@[simp] theorem Engine.setWidth_lzwActive (e : Engine) (n : Nat) : (e.setWidth n).lzwActive = e.lzwActive := rfl
@[simp] theorem Engine.setWidth_ht (e : Engine) (n : Nat) : (e.setWidth n).ht = e.ht := rfl
@[simp] theorem Engine.setWidth_pkt (e : Engine) (n : Nat) : (e.setWidth n).pkt = e.pkt := rfl
@[simp] theorem Engine.storePkt_ent (e : Engine) (b : Byte) : (e.storePkt b).ent = e.ent := rfl
@[simp] theorem Engine.storePkt_haveEnt (e : Engine) (b : Byte) : (e.storePkt b).haveEnt = e.haveEnt := rfl
@[simp] theorem Engine.storePkt_freeEnt (e : Engine) (b : Byte) : (e.storePkt b).freeEnt = e.freeEnt := rfl
@[simp] theorem Engine.storePkt_nBits (e : Engine) (b : Byte) : (e.storePkt b).nBits = e.nBits := rfl
@[simp] theorem Engine.storePkt_acc (e : Engine) (b : Byte) : (e.storePkt b).acc = e.acc := rfl
@[simp] theorem Engine.storePkt_accBits (e : Engine) (b : Byte) : (e.storePkt b).accBits = e.accBits := rfl
@[simp] theorem Engine.storePkt_pktCnt (e : Engine) (b : Byte) :
    (e.storePkt b).pktCnt = BitVec.ofNat 8 (e.pktCnt.toNat + 1) := rfl
@[simp] theorem Engine.storePkt_lzwActive (e : Engine) (b : Byte) : (e.storePkt b).lzwActive = e.lzwActive := rfl
@[simp] theorem Engine.storePkt_ht (e : Engine) (b : Byte) : (e.storePkt b).ht = e.ht := rfl
@[simp] theorem Engine.storePkt_pkt (e : Engine) (b : Byte) :
    (e.storePkt b).pkt = Memory.write unlistedByte e.pkt e.pktCnt.toNat b := rfl
@[simp] theorem Engine.emptyPkt_ent (e : Engine) : e.emptyPkt.ent = e.ent := rfl
@[simp] theorem Engine.emptyPkt_haveEnt (e : Engine) : e.emptyPkt.haveEnt = e.haveEnt := rfl
@[simp] theorem Engine.emptyPkt_freeEnt (e : Engine) : e.emptyPkt.freeEnt = e.freeEnt := rfl
@[simp] theorem Engine.emptyPkt_nBits (e : Engine) : e.emptyPkt.nBits = e.nBits := rfl
@[simp] theorem Engine.emptyPkt_acc (e : Engine) : e.emptyPkt.acc = e.acc := rfl
@[simp] theorem Engine.emptyPkt_accBits (e : Engine) : e.emptyPkt.accBits = e.accBits := rfl
@[simp] theorem Engine.emptyPkt_pktCnt (e : Engine) : e.emptyPkt.pktCnt = 0#8 := rfl
@[simp] theorem Engine.emptyPkt_lzwActive (e : Engine) : e.emptyPkt.lzwActive = e.lzwActive := rfl
@[simp] theorem Engine.emptyPkt_ht (e : Engine) : e.emptyPkt.ht = e.ht := rfl
@[simp] theorem Engine.emptyPkt_pkt (e : Engine) : e.emptyPkt.pkt = e.pkt := rfl
@[simp] theorem Engine.clearAcc_ent (e : Engine) : e.clearAcc.ent = e.ent := rfl
@[simp] theorem Engine.clearAcc_haveEnt (e : Engine) : e.clearAcc.haveEnt = e.haveEnt := rfl
@[simp] theorem Engine.clearAcc_freeEnt (e : Engine) : e.clearAcc.freeEnt = e.freeEnt := rfl
@[simp] theorem Engine.clearAcc_nBits (e : Engine) : e.clearAcc.nBits = e.nBits := rfl
@[simp] theorem Engine.clearAcc_acc (e : Engine) : e.clearAcc.acc = 0#19 := rfl
@[simp] theorem Engine.clearAcc_accBits (e : Engine) : e.clearAcc.accBits = 0#5 := rfl
@[simp] theorem Engine.clearAcc_pktCnt (e : Engine) : e.clearAcc.pktCnt = e.pktCnt := rfl
@[simp] theorem Engine.clearAcc_lzwActive (e : Engine) : e.clearAcc.lzwActive = e.lzwActive := rfl
@[simp] theorem Engine.clearAcc_ht (e : Engine) : e.clearAcc.ht = e.ht := rfl
@[simp] theorem Engine.clearAcc_pkt (e : Engine) : e.clearAcc.pkt = e.pkt := rfl
@[simp] theorem Engine.setEnt_ent (e : Engine) (v : Nat) : (e.setEnt v).ent = BitVec.ofNat 12 v := rfl
@[simp] theorem Engine.setEnt_haveEnt (e : Engine) (v : Nat) : (e.setEnt v).haveEnt = e.haveEnt := rfl
@[simp] theorem Engine.setEnt_freeEnt (e : Engine) (v : Nat) : (e.setEnt v).freeEnt = e.freeEnt := rfl
@[simp] theorem Engine.setEnt_nBits (e : Engine) (v : Nat) : (e.setEnt v).nBits = e.nBits := rfl
@[simp] theorem Engine.setEnt_acc (e : Engine) (v : Nat) : (e.setEnt v).acc = e.acc := rfl
@[simp] theorem Engine.setEnt_accBits (e : Engine) (v : Nat) : (e.setEnt v).accBits = e.accBits := rfl
@[simp] theorem Engine.setEnt_pktCnt (e : Engine) (v : Nat) : (e.setEnt v).pktCnt = e.pktCnt := rfl
@[simp] theorem Engine.setEnt_lzwActive (e : Engine) (v : Nat) : (e.setEnt v).lzwActive = e.lzwActive := rfl
@[simp] theorem Engine.setEnt_ht (e : Engine) (v : Nat) : (e.setEnt v).ht = e.ht := rfl
@[simp] theorem Engine.setEnt_pkt (e : Engine) (v : Nat) : (e.setEnt v).pkt = e.pkt := rfl
@[simp] theorem Engine.markEnt_ent (e : Engine) : e.markEnt.ent = e.ent := rfl
@[simp] theorem Engine.markEnt_haveEnt (e : Engine) : e.markEnt.haveEnt = true := rfl
@[simp] theorem Engine.markEnt_freeEnt (e : Engine) : e.markEnt.freeEnt = e.freeEnt := rfl
@[simp] theorem Engine.markEnt_nBits (e : Engine) : e.markEnt.nBits = e.nBits := rfl
@[simp] theorem Engine.markEnt_acc (e : Engine) : e.markEnt.acc = e.acc := rfl
@[simp] theorem Engine.markEnt_accBits (e : Engine) : e.markEnt.accBits = e.accBits := rfl
@[simp] theorem Engine.markEnt_pktCnt (e : Engine) : e.markEnt.pktCnt = e.pktCnt := rfl
@[simp] theorem Engine.markEnt_lzwActive (e : Engine) : e.markEnt.lzwActive = e.lzwActive := rfl
@[simp] theorem Engine.markEnt_ht (e : Engine) : e.markEnt.ht = e.ht := rfl
@[simp] theorem Engine.markEnt_pkt (e : Engine) : e.markEnt.pkt = e.pkt := rfl
@[simp] theorem Engine.insert_ent (e : Engine) (i : Nat) (fcode : BitVec 20) : (e.insert i fcode).ent = e.ent := rfl
@[simp] theorem Engine.insert_haveEnt (e : Engine) (i : Nat) (fcode : BitVec 20) :
    (e.insert i fcode).haveEnt = e.haveEnt := rfl
@[simp] theorem Engine.insert_freeEnt (e : Engine) (i : Nat) (fcode : BitVec 20) :
    (e.insert i fcode).freeEnt = BitVec.ofNat 13 (e.freeEnt.toNat + 1) := rfl
@[simp] theorem Engine.insert_nBits (e : Engine) (i : Nat) (fcode : BitVec 20) :
    (e.insert i fcode).nBits = e.nBits := rfl
@[simp] theorem Engine.insert_acc (e : Engine) (i : Nat) (fcode : BitVec 20) : (e.insert i fcode).acc = e.acc := rfl
@[simp] theorem Engine.insert_accBits (e : Engine) (i : Nat) (fcode : BitVec 20) :
    (e.insert i fcode).accBits = e.accBits := rfl
@[simp] theorem Engine.insert_pktCnt (e : Engine) (i : Nat) (fcode : BitVec 20) :
    (e.insert i fcode).pktCnt = e.pktCnt := rfl
@[simp] theorem Engine.insert_lzwActive (e : Engine) (i : Nat) (fcode : BitVec 20) :
    (e.insert i fcode).lzwActive = e.lzwActive := rfl
@[simp] theorem Engine.insert_ht (e : Engine) (i : Nat) (fcode : BitVec 20) :
    (e.insert i fcode).ht = Memory.write unlistedSlot e.ht i
      { valid := true, fcode := fcode, code := BitVec.ofNat 12 e.freeEnt.toNat } := rfl
@[simp] theorem Engine.insert_pkt (e : Engine) (i : Nat) (fcode : BitVec 20) : (e.insert i fcode).pkt = e.pkt := rfl
@[simp] theorem Engine.restart_ent (e : Engine) (c : Config) : (e.restart c).ent = e.ent := rfl
@[simp] theorem Engine.restart_haveEnt (e : Engine) (c : Config) : (e.restart c).haveEnt = e.haveEnt := rfl
@[simp] theorem Engine.restart_freeEnt (e : Engine) (c : Config) :
    (e.restart c).freeEnt = BitVec.ofNat 13 c.first := rfl
@[simp] theorem Engine.restart_nBits (e : Engine) (c : Config) : (e.restart c).nBits = e.nBits := rfl
@[simp] theorem Engine.restart_acc (e : Engine) (c : Config) : (e.restart c).acc = e.acc := rfl
@[simp] theorem Engine.restart_accBits (e : Engine) (c : Config) : (e.restart c).accBits = e.accBits := rfl
@[simp] theorem Engine.restart_pktCnt (e : Engine) (c : Config) : (e.restart c).pktCnt = e.pktCnt := rfl
@[simp] theorem Engine.restart_lzwActive (e : Engine) (c : Config) : (e.restart c).lzwActive = e.lzwActive := rfl
@[simp] theorem Engine.restart_ht (e : Engine) (c : Config) :
    (e.restart c).ht = Memory.mapAll unlistedSlot (fun slot => { slot with valid := false }) e.ht := rfl
@[simp] theorem Engine.restart_pkt (e : Engine) (c : Config) : (e.restart c).pkt = e.pkt := rfl
@[simp] theorem Engine.stop_ent (e : Engine) : e.stop.ent = e.ent := rfl
@[simp] theorem Engine.stop_haveEnt (e : Engine) : e.stop.haveEnt = e.haveEnt := rfl
@[simp] theorem Engine.stop_freeEnt (e : Engine) : e.stop.freeEnt = e.freeEnt := rfl
@[simp] theorem Engine.stop_nBits (e : Engine) : e.stop.nBits = e.nBits := rfl
@[simp] theorem Engine.stop_acc (e : Engine) : e.stop.acc = e.acc := rfl
@[simp] theorem Engine.stop_accBits (e : Engine) : e.stop.accBits = e.accBits := rfl
@[simp] theorem Engine.stop_pktCnt (e : Engine) : e.stop.pktCnt = e.pktCnt := rfl
@[simp] theorem Engine.stop_lzwActive (e : Engine) : e.stop.lzwActive = false := rfl
@[simp] theorem Engine.stop_ht (e : Engine) : e.stop.ht = e.ht := rfl
@[simp] theorem Engine.stop_pkt (e : Engine) : e.stop.pkt = e.pkt := rfl

/-! ### Env -/

@[simp] theorem Env.answered_inbox (env : Env) (r : Request) : (env.answered r).inbox = env.inbox := rfl
@[simp] theorem Env.answered_answers (env : Env) (r : Request) : (env.answered r).answers = env.answers.tail := rfl
@[simp] theorem Env.answered_unanswered (env : Env) (r : Request) : (env.answered r).unanswered = env.unanswered := rfl
@[simp] theorem Env.answered_log (env : Env) (r : Request) : (env.answered r).log = env.log ++ [(r, env.nextAnswer)] := rfl
@[simp] theorem Env.answered_racing (env : Env) (r : Request) : (env.answered r).racing = env.racing := rfl
@[simp] theorem Env.answered_fbDraws (env : Env) (r : Request) : (env.answered r).fbDraws = env.fbDraws := rfl
@[simp] theorem Env.answered_controller (env : Env) (r : Request) : (env.answered r).controller = env.controller := rfl
@[simp] theorem Env.answered_readData (env : Env) (r : Request) : (env.answered r).readData = env.readData := rfl
@[simp] theorem Env.answered_engineOut (env : Env) (r : Request) : (env.answered r).engineOut = env.engineOut := rfl
@[simp] theorem Env.answered_quantOut (env : Env) (r : Request) : (env.answered r).quantOut = env.quantOut := rfl

end Sys2Proof.Machine
end

