-- ==== Sys2Proof/Laws/Ops.lean ====
section
/-! SUPPORT. What each shared operation can do, said once: sink requests and `Write`, operations that may raise, `Out`,
frame-buffer reads, the end of a command. -/

namespace Sys2Proof.Machine

/-! ### Transcripts -/

@[simp] theorem Env.after_nil (env : Env) : env.after [] = env := by simp [Env.after]

theorem Env.after_after (env : Env) (tr tr' : Transcript) : (env.after tr).after tr' = env.after (tr ++ tr') := by
  simp [Env.after, List.drop_drop]

theorem Env.nextAnswer_eq (env : Env) : env.nextAnswer = env.answerAt 0 := by
  unfold Env.nextAnswer Env.answerAt
  cases env.answers <;> simp

theorem Env.answered_eq (env : Env) (r : Request) : env.answered r = env.after [(r, env.answerAt 0)] := by
  rw [← Env.nextAnswer_eq]
  simp [Env.answered, Env.after]

theorem Env.answerAt_after (env : Env) (tr : Transcript) (k : Nat) :
    (env.after tr).answerAt k = env.answerAt (tr.length + k) := by
  simp [Env.answerAt, Env.after, List.getElem?_drop, Nat.add_assoc]

@[simp] theorem Env.gives_nil (env : Env) : env.gives [] := fun k hk => absurd hk (by simp)

theorem Env.gives_append (env : Env) (tr tr' : Transcript) :
    env.gives (tr ++ tr') ↔ env.gives tr ∧ (env.after tr).gives tr' := by
  constructor
  · intro h
    refine ⟨fun k hk => ?_, fun k hk => ?_⟩
    · have := h k (by simp; omega)
      rwa [List.map_append, List.getElem?_append_left (by simpa using hk)] at this
    · have := h (tr.length + k) (by simp; omega)
      rw [List.map_append, List.getElem?_append_right (by simp)] at this
      simpa [Env.answerAt_after] using this
  · rintro ⟨h, h'⟩ k hk
    by_cases hkt : k < tr.length
    · rw [List.map_append, List.getElem?_append_left (by simpa using hkt)]
      exact h k hkt
    · have := h' (k - tr.length) (by simp at hk; omega)
      rw [Env.answerAt_after, show tr.length + (k - tr.length) = k by omega] at this
      rw [List.map_append, List.getElem?_append_right (by simp; omega)]
      simpa using this

theorem Env.gives_cons (env : Env) (p : Request × Bool) (tr : Transcript) :
    env.gives (p :: tr) ↔ env.answerAt 0 = p.2 ∧ (env.after [p]).gives tr := by
  rw [show p :: tr = [p] ++ tr from rfl, Env.gives_append]
  refine and_congr ⟨fun h => ?_, fun h k hk => ?_⟩ Iff.rfl
  · simpa using (h 0 (by simp)).symm
  · obtain rfl : k = 0 := by simpa using hk
    simpa using h.symm

theorem Env.gives_all_ok (env : Env) (tr : Transcript) (h : ∀ p ∈ tr, p.2 = true) :
    env.gives tr ↔ ∀ k, k < tr.length → env.answerAt k = true := by
  refine forall_congr' fun k => forall_congr' fun hk => ?_
  have : (tr.map Prod.snd)[k]? = some true := by
    rw [List.getElem?_map, List.getElem?_eq_getElem hk]
    simpa using h _ (List.getElem_mem hk)
  rw [this]
  exact ⟨fun e => (Option.some.inj e).symm, fun e => by rw [e]⟩

/-- Answers listed for exactly the transcript. -/
theorem Env.gives_of_answers {env : Env} {tr : Transcript} (h : env.answers = tr.map Prod.snd) : env.gives tr := by
  intro k hk
  have hk' : k < (tr.map Prod.snd).length := by simpa using hk
  rw [Env.answerAt, h, List.getElem?_eq_getElem hk', Option.getD_some]

@[simp] theorem accepted_nil (ctx : Ctx) : accepted ctx [] = [] := rfl

@[simp] theorem accepted_cons (ctx : Ctx) (b : Byte) (bytes : List Byte) :
    accepted ctx (b :: bytes) = (.write ctx b, true) :: accepted ctx bytes := rfl

theorem accepted_append (ctx : Ctx) (a b : List Byte) : accepted ctx (a ++ b) = accepted ctx a ++ accepted ctx b := by
  simp [accepted]

@[simp] theorem accepted_length (ctx : Ctx) (bytes : List Byte) : (accepted ctx bytes).length = bytes.length := by
  simp [accepted]

/-! ### Requests and `Write` -/

/-- One request: the host's next answer, and the environment after it. -/
theorem sinkReq_eq (r : Request) (s : State) :
    sinkReq r s = (s.env.answerAt 0, s.setEnv (s.env.after [(r, s.env.answerAt 0)])) := by
  rw [sinkReq, Env.answered_eq, Env.nextAnswer_eq]

/-- A request whose answer is known. -/
theorem sinkReq_of_gives {r : Request} {s : State} {a : Bool} (h : s.env.gives [(r, a)]) :
    sinkReq r s = (a, s.setEnv (s.env.after [(r, a)])) := by
  rw [Env.gives_cons] at h
  rw [sinkReq_eq, h.1]

@[simp] theorem setEnv_self (s : State) : s.setEnv s.env = s := rfl

@[simp] theorem setEnv_setEnv (s : State) (a b : Env) : (s.setEnv a).setEnv b = s.setEnv b := rfl

@[simp] theorem setEng_self (s : State) : s.setEng s.eng = s := rfl

@[simp] theorem setEng_setEng (s : State) (a b : Engine) : (s.setEng a).setEng b = s.setEng b := rfl

@[simp] theorem writeAll_nil (ctx : Ctx) (s : State) : writeAll ctx [] s = (true, s) := rfl

theorem writeAll_cons (ctx : Ctx) (b : Byte) (bytes : List Byte) (s : State) :
    writeAll ctx (b :: bytes) s =
      if s.env.answerAt 0 then writeAll ctx bytes (s.setEnv (s.env.after [(.write ctx b, true)]))
      else (false, s.setEnv (s.env.after [(.write ctx b, false)])) := by
  rw [writeAll, sinkReq_eq]
  cases s.env.answerAt 0 <;> rfl

/-- All that `Write` can do (20_memory.md R72): every byte accepted, or cut off at the first `fail`; nothing but the
environment changes. -/
theorem writeAll_cases (ctx : Ctx) (bytes : List Byte) (s : State) :
    (s.env.gives (accepted ctx bytes) ∧ writeAll ctx bytes s = (true, s.setEnv (s.env.after (accepted ctx bytes)))) ∨
      ∃ k, k < bytes.length ∧ s.env.gives (cutOff ctx bytes k) ∧
        writeAll ctx bytes s = (false, s.setEnv (s.env.after (cutOff ctx bytes k))) := by
  induction bytes generalizing s with
  | nil => exact .inl ⟨by simp, by simp⟩
  | cons b bytes ih =>
    rw [writeAll_cons]
    cases ha : s.env.answerAt 0 with
    | false =>
      refine .inr ⟨0, by simp, ?_, by simp [cutOff, accepted]⟩
      simp [cutOff, accepted, Env.gives_cons, ha]
    | true =>
      rw [if_pos rfl]
      rcases ih (s.setEnv (s.env.after [(.write ctx b, true)])) with ⟨hg, heq⟩ | ⟨k, hk, hg, heq⟩
      · refine .inl ⟨?_, ?_⟩
        · rw [accepted_cons, Env.gives_cons]
          exact ⟨ha, hg⟩
        · rw [heq]
          simp [Env.after_after]
      · refine .inr ⟨k + 1, by simpa using hk, ?_, ?_⟩
        · have : cutOff ctx (b :: bytes) (k + 1) = (.write ctx b, true) :: cutOff ctx bytes k := by simp [cutOff]
          rw [this, Env.gives_cons]
          exact ⟨ha, hg⟩
        · rw [heq]
          simp [Env.after_after, cutOff]

/-- `Write` when every byte is accepted. -/
theorem writeAll_of_gives {ctx : Ctx} {bytes : List Byte} {s : State} (h : s.env.gives (accepted ctx bytes)) :
    writeAll ctx bytes s = (true, s.setEnv (s.env.after (accepted ctx bytes))) := by
  induction bytes generalizing s with
  | nil => simp
  | cons b bytes ih =>
    rw [accepted_cons, Env.gives_cons] at h
    rw [writeAll_cons, if_pos h.1, ih h.2]
    simp [Env.after_after]

/-- `Write` when byte `k` is the first answered `fail`. -/
theorem writeAll_of_cutOff {ctx : Ctx} {bytes : List Byte} {k : Nat} {s : State} (hk : k < bytes.length)
    (h : s.env.gives (cutOff ctx bytes k)) :
    writeAll ctx bytes s = (false, s.setEnv (s.env.after (cutOff ctx bytes k))) := by
  induction bytes generalizing s k with
  | nil => simp at hk
  | cons b bytes ih =>
    cases k with
    | zero =>
      have h' : s.env.answerAt 0 = false := by simpa [cutOff, accepted, Env.gives_cons] using h
      rw [writeAll_cons, h']
      simp [cutOff, accepted]
    | succ k =>
      have hc : cutOff ctx (b :: bytes) (k + 1) = (.write ctx b, true) :: cutOff ctx bytes k := by simp [cutOff]
      rw [hc, Env.gives_cons] at h
      rw [writeAll_cons, if_pos h.1, ih (by simpa using hk) h.2, hc]
      simp [Env.after_after]

/-! ### Operations that may raise -/

@[simp] theorem Res.bind_ok (s : State) (f : State → Res) : (Res.ok s).bind f = f s := rfl

@[simp] theorem Res.bind_raised (s : State) (f : State → Res) : (Res.raised s).bind f = .raised s := rfl

@[simp] theorem Res.bind_endless (f : State → Res) : Res.endless.bind f = .endless := rfl

theorem Res.bind_assoc (r : Res) (f g : State → Res) : (r.bind f).bind g = r.bind fun s => (f s).bind g := by
  cases r <;> rfl

/-- Whatever state the operation ends in has the property. -/
def Res.All (P : State → Prop) : Res → Prop
  | .ok s => P s
  | .raised s => P s
  | .endless => True

@[simp] theorem Res.all_ok (P : State → Prop) (s : State) : (Res.ok s).All P ↔ P s := Iff.rfl

@[simp] theorem Res.all_raised (P : State → Prop) (s : State) : (Res.raised s).All P ↔ P s := Iff.rfl

@[simp] theorem Res.all_endless (P : State → Prop) : Res.endless.All P := trivial

theorem Res.All.bind {P Q : State → Prop} {r : Res} {f : State → Res} (hr : r.All P) (hPQ : ∀ s, P s → Q s)
    (hf : ∀ s, P s → (f s).All Q) : (r.bind f).All Q := by
  cases r with
  | ok s => exact hf s hr
  | raised s => exact hPQ s hr
  | endless => trivial

theorem Res.All.mono {P Q : State → Prop} {r : Res} (hr : r.All P) (h : ∀ s, P s → Q s) : r.All Q := by
  cases r with
  | ok s => exact h s hr
  | raised s => exact h s hr
  | endless => trivial

/-- All that `Out` can do on a sink (42_lzw_engine.md R181). -/
theorem out_sink_cases (ctx : Ctx) (bytes : List Byte) (s : State) :
    (s.env.gives (accepted ctx bytes) ∧ out (.sink ctx) bytes s = .ok (s.setEnv (s.env.after (accepted ctx bytes)))) ∨
      ∃ k, k < bytes.length ∧ s.env.gives (cutOff ctx bytes k) ∧
        out (.sink ctx) bytes s = .raised (s.setEnv (s.env.after (cutOff ctx bytes k))) := by
  rcases writeAll_cases ctx bytes s with ⟨hg, h⟩ | ⟨k, hk, hg, h⟩
  · exact .inl ⟨hg, by simp [out, h]⟩
  · exact .inr ⟨k, hk, hg, by simp [out, h]⟩

theorem out_sink_of_gives {ctx : Ctx} {bytes : List Byte} {s : State} (h : s.env.gives (accepted ctx bytes)) :
    out (.sink ctx) bytes s = .ok (s.setEnv (s.env.after (accepted ctx bytes))) := by
  simp [out, writeAll_of_gives h]

/-- `Out` of the engine driven alone never fails. -/
@[simp] theorem out_list (bytes : List Byte) (s : State) :
    out .list bytes s = .ok (s.setEnv { s.env with engineOut := s.env.engineOut ++ bytes }) := rfl

/-! ### The frame buffer -/

/-- A read that no write races returns the word `FB` holds and changes nothing. -/
theorem readPixel_of_not_raced {s : State} {i : Nat} (h : raced s i = false) :
    readPixel i s = (Memory.read unlistedPixel s.fb i, s) := by
  simp [readPixel, h]

/-- A read changes the draw counter at most. -/
theorem readPixel_state (i : Nat) (s : State) :
    (readPixel i s).2 = s ∨ (readPixel i s).2 = s.setEnv { s.env with fbDraws := s.env.fbDraws + 1 } := by
  unfold readPixel
  split
  · exact .inr rfl
  · exact .inl rfl

/-- The frame as read depends on the frame buffer, the writes in flight and the draw counter alone. -/
theorem frameSymbols_congr (c : Config) {s t : State} (hfb : s.fb = t.fb) (hr : s.env.racing = t.env.racing)
    (hd : s.env.fbDraws = t.env.fbDraws) : frameSymbols c s = frameSymbols c t := by
  have hraced : raced s = raced t := by
    funext i
    simp [raced, hr]
  unfold frameSymbols
  congr 1
  funext i
  simp [framePixel, racedBefore, pixelCandidates, hraced, hfb, hr, hd]

/-! ### The end of a command -/

/-- All that the end of a command can answer (20_memory.md R81). -/
theorem settle_cases (s t : State) :
    settle s t = .next t ∨ settle s t = .fault .sinkStall ∧ ∃ n, s.env.unanswered = some n ∧ n < t.env.log.length := by
  unfold settle
  split
  · exact .inl rfl
  · next n hn =>
    split
    · next h => exact .inr ⟨rfl, n, hn, h⟩
    · exact .inl rfl

theorem settle_eq_next {s t u : State} (h : settle s t = .next u) : u = t := by
  rcases settle_cases s t with h' | ⟨h', -⟩
  · exact (Host.Outcome.next.inj (h'.symm.trans h)).symm
  · rw [h'] at h
    cases h

/-- The command ends if the host answers every request it issues. -/
theorem settle_of_answersNext {s t : State} {n : Nat} (h : s.env.answersNext n)
    (ht : t.env.log.length ≤ s.env.log.length + n) : settle s t = .next t := by
  unfold settle
  split
  · rfl
  · next m hm => exact if_neg (by have := h m hm; omega)

/-- What the end of a frame-reading command answers, if it answers a next state. -/
theorem frameOutcome_eq_next {s u : State} {r : Option State} (h : frameOutcome s r = .next u) :
    ∃ t, r = some t ∧ u = landRaces t := by
  cases r with
  | none => cases h
  | some t => exact ⟨t, rfl, settle_eq_next h⟩

end Sys2Proof.Machine
end

