-- ==== Sys2Proof/Laws/Engine.lean ====
section
/-! SUPPORT. What the engine's operations leave alone, said once for each: outside the engine only the environment's
answers, log and output list change (`EngineStep`), and the bit packer leaves the match and the dictionary alone
(`PackerFrame`). The engine driven alone never raises. -/

namespace Sys2Proof.Machine

/-- From `s` to `t` only the engine and the output changed: on a sink by WRITE requests to its context, else by bytes
appended to the output list. -/
def EngineStep (port : Port) (s t : State) : Prop :=
  ∃ (e : Engine) (tr : Transcript) (bytes : List Byte),
    t = (s.setEng e).setEnv { s.env.after tr with engineOut := s.env.engineOut ++ bytes } ∧ s.env.gives tr ∧
      (∀ p ∈ tr, ∃ ctx b, port = .sink ctx ∧ p.1 = .write ctx b) ∧ (∀ ctx, port = .sink ctx → bytes = [])

theorem EngineStep.refl (port : Port) (s : State) : EngineStep port s s :=
  ⟨s.eng, [], [], by simp [State.setEng, State.setEnv], by simp, by simp, fun _ _ => rfl⟩

theorem EngineStep.trans {port : Port} {s t u : State} (h : EngineStep port s t) (h' : EngineStep port t u) :
    EngineStep port s u := by
  obtain ⟨e, tr, bytes, rfl, hg, hw, hb⟩ := h
  obtain ⟨e', tr', bytes', rfl, hg', hw', hb'⟩ := h'
  refine ⟨e', tr ++ tr', bytes ++ bytes', ?_, (Env.gives_append _ _ _).mpr ⟨hg, hg'⟩, ?_, ?_⟩
  · simp [State.setEng, State.setEnv, Env.after, List.drop_drop]
  · intro p hp
    rcases List.mem_append.mp hp with hp | hp
    · exact hw p hp
    · exact hw' p hp
  · intro ctx hc
    rw [hb ctx hc, hb' ctx hc, List.append_nil]

theorem EngineStep.setEng (port : Port) (s : State) (e : Engine) : EngineStep port s (s.setEng e) :=
  ⟨e, [], [], by simp [State.setEng, State.setEnv], by simp, by simp, fun _ _ => rfl⟩

/-- A chain of engine steps through an operation that may raise. -/
theorem EngineStep.bind {port : Port} {s : State} {r : Res} {f : State → Res} (hr : r.All (EngineStep port s))
    (hf : ∀ t, (f t).All (EngineStep port t)) : (r.bind f).All (EngineStep port s) :=
  hr.bind (fun _ h => h) fun t ht => (hf t).mono fun _ h => ht.trans h

theorem EngineStep.after_setEng {port : Port} {s : State} {e : Engine} {r : Res}
    (hr : r.All (EngineStep port (s.setEng e))) : r.All (EngineStep port s) :=
  hr.mono fun _ h => (EngineStep.setEng port s e).trans h

theorem out_step (port : Port) (bytes : List Byte) (s : State) : (out port bytes s).All (EngineStep port s) := by
  cases port with
  | list =>
    exact ⟨s.eng, [], bytes, by simp, by simp, by simp, fun _ h => nomatch h⟩
  | sink ctx =>
    have hacc : ∀ l : List Byte, ∀ p ∈ accepted ctx l, ∃ ctx' b, Port.sink ctx = .sink ctx' ∧ p.1 = .write ctx' b := by
      intro l p hp
      obtain ⟨b, -, rfl⟩ := List.mem_map.mp hp
      exact ⟨ctx, b, rfl, rfl⟩
    rcases out_sink_cases ctx bytes s with ⟨hg, h⟩ | ⟨k, -, hg, h⟩
    · rw [h]
      exact ⟨s.eng, accepted ctx bytes, [], by simp [State.setEng, State.setEnv, Env.after], hg, hacc bytes,
        fun _ _ => rfl⟩
    · rw [h]
      refine ⟨s.eng, cutOff ctx bytes k, [], by simp [State.setEng, State.setEnv, Env.after], hg, ?_, fun _ _ => rfl⟩
      intro p hp
      rcases List.mem_append.mp hp with hp | hp
      · exact hacc _ p hp
      · obtain ⟨b, -, rfl⟩ := List.mem_map.mp hp
        exact ⟨ctx, b, rfl, rfl⟩

theorem flushPacket_step (port : Port) (s : State) : (flushPacket port s).All (EngineStep port s) := by
  unfold flushPacket
  split
  · exact EngineStep.refl port s
  · exact EngineStep.bind (out_step port _ s) fun t => EngineStep.setEng port t _

theorem flushIfFull_step (c : Config) (port : Port) (s : State) : (flushIfFull c port s).All (EngineStep port s) := by
  unfold flushIfFull
  split
  · exact flushPacket_step port s
  · exact EngineStep.refl port s

theorem pushByte_step (c : Config) (port : Port) (b : Byte) (s : State) :
    (pushByte c port b s).All (EngineStep port s) :=
  EngineStep.after_setEng (flushIfFull_step c port _)

theorem peelBytes_step (c : Config) (port : Port) (n : Nat) (s : State) :
    (peelBytes c port n s).All (EngineStep port s) := by
  induction n generalizing s with
  | zero => exact EngineStep.refl port s
  | succ n ih => exact EngineStep.bind (pushByte_step c port _ s) fun t => EngineStep.after_setEng (ih _)

theorem emit_step (c : Config) (port : Port) (v : Nat) (s : State) : (emit c port v s).All (EngineStep port s) :=
  EngineStep.bind (EngineStep.after_setEng (peelBytes_step c port _ _)) fun t => EngineStep.setEng port t _

theorem lzwBegin_step (c : Config) (port : Port) (s : State) : (lzwBegin c port s).All (EngineStep port s) :=
  EngineStep.bind (out_step port _ s) fun _ => EngineStep.after_setEng (emit_step c port _ _)

theorem lzwMiss_step (c : Config) (port : Port) (sym i : Nat) (s : State) :
    (lzwMiss c port sym i s).All (EngineStep port s) := by
  refine EngineStep.bind (emit_step c port _ s) fun t => ?_
  split
  · exact EngineStep.setEng port t _
  · exact EngineStep.bind (EngineStep.after_setEng (emit_step c port _ _)) fun u => EngineStep.setEng port u _

theorem lzwSymbol_step (c : Config) (port : Port) (sym : Nat) (s : State) :
    (lzwSymbol c port sym s).All (EngineStep port s) := by
  unfold lzwSymbol
  split
  · split
    · trivial
    · exact EngineStep.setEng port s _
    · exact lzwMiss_step c port sym _ s
  · exact EngineStep.setEng port s _

theorem flushBits_step (c : Config) (port : Port) (s : State) : (flushBits c port s).All (EngineStep port s) := by
  unfold flushBits
  split
  · exact EngineStep.refl port s
  · exact EngineStep.bind (pushByte_step c port _ s) fun t => EngineStep.setEng port t _

theorem lzwEnd_step (c : Config) (port : Port) (s : State) : (lzwEnd c port s).All (EngineStep port s) :=
  EngineStep.bind (emit_step c port _ s) fun t1 =>
    EngineStep.bind (emit_step c port _ t1) fun t2 =>
      EngineStep.bind (flushBits_step c port t2) fun t3 =>
        EngineStep.bind (flushPacket_step port t3) fun t4 => EngineStep.setEng port t4 _

/-! ### The bit packer -/

/-- The match, the dictionary and the activity flag are as before. -/
def PackerFrame (s t : State) : Prop :=
  t.eng.ent = s.eng.ent ∧ t.eng.haveEnt = s.eng.haveEnt ∧ t.eng.freeEnt = s.eng.freeEnt ∧
    t.eng.lzwActive = s.eng.lzwActive ∧ t.eng.ht = s.eng.ht

theorem PackerFrame.refl (s : State) : PackerFrame s s := ⟨rfl, rfl, rfl, rfl, rfl⟩

theorem PackerFrame.trans {s t u : State} (h : PackerFrame s t) (h' : PackerFrame t u) : PackerFrame s u :=
  ⟨h'.1.trans h.1, h'.2.1.trans h.2.1, h'.2.2.1.trans h.2.2.1, h'.2.2.2.1.trans h.2.2.2.1,
    h'.2.2.2.2.trans h.2.2.2.2⟩

theorem PackerFrame.bind {s : State} {r : Res} {f : State → Res} (hr : r.All (PackerFrame s))
    (hf : ∀ t, (f t).All (PackerFrame t)) : (r.bind f).All (PackerFrame s) :=
  hr.bind (fun _ h => h) fun t ht => (hf t).mono fun _ h => ht.trans h

theorem out_packerFrame (port : Port) (bytes : List Byte) (s : State) : (out port bytes s).All (PackerFrame s) := by
  cases port with
  | list => exact PackerFrame.refl s
  | sink ctx =>
    rcases out_sink_cases ctx bytes s with ⟨-, h⟩ | ⟨k, -, -, h⟩ <;> rw [h] <;> exact PackerFrame.refl s

theorem flushPacket_packerFrame (port : Port) (s : State) : (flushPacket port s).All (PackerFrame s) := by
  unfold flushPacket
  split
  · exact PackerFrame.refl s
  · exact PackerFrame.bind (out_packerFrame port _ s) fun t => ⟨rfl, rfl, rfl, rfl, rfl⟩

theorem pushByte_packerFrame (c : Config) (port : Port) (b : Byte) (s : State) :
    (pushByte c port b s).All (PackerFrame s) := by
  unfold pushByte flushIfFull
  split
  · exact (flushPacket_packerFrame port _).mono fun t h =>
      PackerFrame.trans (s := s) (t := s.setEng (s.eng.storePkt b)) ⟨rfl, rfl, rfl, rfl, rfl⟩ h
  · exact ⟨rfl, rfl, rfl, rfl, rfl⟩

theorem peelBytes_packerFrame (c : Config) (port : Port) (n : Nat) (s : State) :
    (peelBytes c port n s).All (PackerFrame s) := by
  induction n generalizing s with
  | zero => exact PackerFrame.refl s
  | succ n ih =>
    exact PackerFrame.bind (pushByte_packerFrame c port _ s) fun t => (ih _).mono fun _ h =>
      PackerFrame.trans (s := t) (t := t.setEng t.eng.dropByte) ⟨rfl, rfl, rfl, rfl, rfl⟩ h

/-- `emit` "does not touch `HT`" (42_lzw_engine.md R185), nor the match. -/
theorem emit_packerFrame (c : Config) (port : Port) (v : Nat) (s : State) : (emit c port v s).All (PackerFrame s) :=
  PackerFrame.bind ((peelBytes_packerFrame c port _ _).mono fun _ h =>
    PackerFrame.trans (s := s) (t := s.setEng (s.eng.pack v)) ⟨rfl, rfl, rfl, rfl, rfl⟩ h)
    fun _ => ⟨rfl, rfl, rfl, rfl, rfl⟩

/-! ### The engine driven alone -/

/-- The operation completes. -/
def Res.IsOk (r : Res) : Prop := ∃ t, r = .ok t

theorem Res.IsOk.bind {r : Res} {f : State → Res} (hr : r.IsOk) (hf : ∀ t, (f t).IsOk) : (r.bind f).IsOk := by
  obtain ⟨t, rfl⟩ := hr
  exact hf t

theorem flushPacket_list_isOk (s : State) : (flushPacket .list s).IsOk := by
  unfold flushPacket
  split
  · exact ⟨_, rfl⟩
  · exact Res.IsOk.bind ⟨_, out_list _ s⟩ fun _ => ⟨_, rfl⟩

theorem pushByte_list_isOk (c : Config) (b : Byte) (s : State) : (pushByte c .list b s).IsOk := by
  unfold pushByte flushIfFull
  split
  · exact flushPacket_list_isOk _
  · exact ⟨_, rfl⟩

theorem peelBytes_list_isOk (c : Config) (n : Nat) (s : State) : (peelBytes c .list n s).IsOk := by
  induction n generalizing s with
  | zero => exact ⟨_, rfl⟩
  | succ n ih => exact Res.IsOk.bind (pushByte_list_isOk c _ s) fun _ => ih _

theorem emit_list_isOk (c : Config) (v : Nat) (s : State) : (emit c .list v s).IsOk :=
  Res.IsOk.bind (peelBytes_list_isOk c _ _) fun _ => ⟨_, rfl⟩

theorem lzwBegin_list_isOk (c : Config) (s : State) : (lzwBegin c .list s).IsOk :=
  Res.IsOk.bind ⟨_, out_list _ s⟩ fun _ => emit_list_isOk c _ _

theorem lzwMiss_list_isOk (c : Config) (sym i : Nat) (s : State) : (lzwMiss c .list sym i s).IsOk := by
  refine Res.IsOk.bind (emit_list_isOk c _ s) fun t => ?_
  split
  · exact ⟨_, rfl⟩
  · exact Res.IsOk.bind (emit_list_isOk c _ _) fun _ => ⟨_, rfl⟩

theorem flushBits_list_isOk (c : Config) (s : State) : (flushBits c .list s).IsOk := by
  unfold flushBits
  split
  · exact ⟨_, rfl⟩
  · exact Res.IsOk.bind (pushByte_list_isOk c _ s) fun _ => ⟨_, rfl⟩

theorem lzwEnd_list_isOk (c : Config) (s : State) : (lzwEnd c .list s).IsOk :=
  Res.IsOk.bind (emit_list_isOk c _ s) fun _ =>
    Res.IsOk.bind (emit_list_isOk c _ _) fun _ =>
      Res.IsOk.bind (flushBits_list_isOk c _) fun _ =>
        Res.IsOk.bind (flushPacket_list_isOk _) fun _ => ⟨_, rfl⟩

end Sys2Proof.Machine
end

