-- ==== Sys2Proof/Laws/PerInstr.lean ====
section
/-! SUPPORT. For each instruction, the row of spec/opcode_table.json that its encoded word selects (30_encoding.md R109). -/

namespace Sys2Proof.Laws.TableRow

/-- A row of 30_encoding.md R109: format width, match and mask. -/
structure Row where
  width : Nat
  pattern : Nat
  mask : Nat
deriving DecidableEq, Repr

/-- The table's row of an instruction. -/
def rowOf : Instr → Row
  | .start _ => { width := 32, pattern := 0x00000001, mask := 0x000000FF }
  | .addframe _ => { width := 32, pattern := 0x00000002, mask := 0x000000FF }
  | .finish _ => { width := 32, pattern := 0x00000003, mask := 0x000000FF }
  | .oneshot _ => { width := 32, pattern := 0x00000004, mask := 0x000000FF }
  | .lzwBegin => { width := 35, pattern := 0x100000000, mask := 0x7FFFFFFFF }
  | .lzwSymbol _ => { width := 35, pattern := 0x200000000, mask := 0x7FFFFFF00 }
  | .lzwEnd => { width := 35, pattern := 0x300000000, mask := 0x7FFFFFFFF }
  | .quant _ => { width := 35, pattern := 0x400000000, mask := 0x700000000 }

/-- A word fits a row: it has the row's width, and `(w & mask) = match`. -/
def Fits (word : InWord) (row : Row) : Prop :=
  match word with
  | .cmd w => row.width = 32 ∧ w.toNat &&& row.mask = row.pattern
  | .eop w => row.width = 35 ∧ w.toNat &&& row.mask = row.pattern

/-- The encoded word of an instruction fits the instruction's row. -/
def Statement (i : Instr) : Prop := Fits (encode i) (rowOf i)

/-- The value of a command word: `(len << 8) | op` (30_encoding.md R116). -/
theorem cmd_toNat (len : BitVec 24) (op : BitVec 4) : (len ++ (0x0#4 ++ op)).toNat = 256 * len.toNat + op.toNat := by
  have hop : op.toNat < 2 ^ 4 := op.isLt
  rw [BitVec.toNat_append, BitVec.toNat_append, ← Nat.shiftLeft_add_eq_or_of_lt (by simp; omega),
    ← Nat.shiftLeft_add_eq_or_of_lt hop, Nat.shiftLeft_eq, Nat.shiftLeft_eq]
  simp
  omega

/-- The value of an engine-operation word. -/
theorem eop_toNat (code : BitVec 3) (arg : BitVec 32) : (code ++ arg).toNat = 2 ^ 32 * code.toNat + arg.toNat := by
  rw [BitVec.toNat_append, ← Nat.shiftLeft_add_eq_or_of_lt arg.isLt, Nat.shiftLeft_eq]
  omega

theorem cmd_fits (len : BitVec 24) (op : BitVec 4) :
    (len ++ (0x0#4 ++ op)).toNat &&& 0x000000FF = op.toNat := by
  have hop : op.toNat < 2 ^ 4 := op.isLt
  rw [cmd_toNat, show (0x000000FF : Nat) = 2 ^ 8 - 1 by rfl, Nat.and_two_pow_sub_one_eq_mod]
  omega

theorem start (len : BitVec 24) : Statement (.start len) := ⟨rfl, cmd_fits len 0x1#4⟩

theorem addframe (len : BitVec 24) : Statement (.addframe len) := ⟨rfl, cmd_fits len 0x2#4⟩

theorem finish (len : BitVec 24) : Statement (.finish len) := ⟨rfl, cmd_fits len 0x3#4⟩

theorem oneshot (len : BitVec 24) : Statement (.oneshot len) := ⟨rfl, cmd_fits len 0x4#4⟩

theorem lzwBegin : Statement .lzwBegin := ⟨rfl, by decide⟩

theorem lzwSymbol (sym : BitVec 8) : Statement (.lzwSymbol sym) := by
  refine ⟨rfl, ?_⟩
  have hs : sym.toNat < 256 := sym.isLt
  have hw : (0b010#3 ++ (0#24 ++ sym)).toNat = 2 ^ 33 + sym.toNat := by
    rw [eop_toNat, BitVec.toNat_append]
    simp
  have hm : (0x7FFFFFF00 : Nat) = (2 ^ 27 - 1) <<< 8 := by rfl
  show (0b010#3 ++ (0#24 ++ sym)).toNat &&& 0x7FFFFFF00 = 0x200000000
  rw [hw, hm]
  apply Nat.eq_of_testBit_eq
  intro i
  have hsplit : 2 ^ 33 + sym.toNat = 2 ^ 25 <<< 8 ||| sym.toNat := by
    rw [← Nat.shiftLeft_add_eq_or_of_lt hs, Nat.shiftLeft_eq]
    omega
  rw [hsplit, Nat.testBit_and, Nat.testBit_or, Nat.testBit_shiftLeft, Nat.testBit_shiftLeft,
    Nat.testBit_two_pow_sub_one, show (0x200000000 : Nat) = 2 ^ 25 <<< 8 by rfl, Nat.testBit_shiftLeft]
  by_cases hi : 8 ≤ i
  · have h8 : 2 ^ 8 ≤ 2 ^ i := Nat.pow_le_pow_right (by omega) hi
    have : sym.toNat.testBit i = false := Nat.testBit_lt_two_pow (by omega)
    by_cases hj : i - 8 < 27
    · simp [hi, this, hj]
    · have h25 : (33554432 : Nat).testBit (i - 8) = false := by
        rw [show (33554432 : Nat) = 2 ^ 25 by rfl, Nat.testBit_two_pow]
        simp
        omega
      simp [hi, this, h25]
  · simp [hi]

theorem lzwEnd : Statement .lzwEnd := ⟨rfl, by decide⟩

theorem quant (pixel : Word) : Statement (.quant pixel) := by
  refine ⟨rfl, ?_⟩
  have hp : pixel.toNat < 2 ^ 32 := pixel.isLt
  show (0b100#3 ++ pixel).toNat &&& 0x700000000 = 0x400000000
  rw [eop_toNat]
  apply Nat.eq_of_testBit_eq
  intro i
  have hsplit : 2 ^ 32 * (0b100#3).toNat + pixel.toNat = 4 <<< 32 ||| pixel.toNat := by
    rw [← Nat.shiftLeft_add_eq_or_of_lt hp, Nat.shiftLeft_eq]
    simp
  rw [hsplit, Nat.testBit_and, Nat.testBit_or, Nat.testBit_shiftLeft, show (0x700000000 : Nat) = 7 <<< 32 by rfl,
    Nat.testBit_shiftLeft, show (0x400000000 : Nat) = 4 <<< 32 by rfl, Nat.testBit_shiftLeft]
  by_cases hi : 32 ≤ i
  · have : pixel.toNat.testBit i = false :=
      Nat.testBit_lt_two_pow (hp.trans_le (Nat.pow_le_pow_right (by omega) hi))
    have hand : ((4 : Nat).testBit (i - 32) && (7 : Nat).testBit (i - 32)) = (4 : Nat).testBit (i - 32) := by
      rw [← Nat.testBit_and]
      rfl
    simp only [this, hi, decide_true, Bool.true_and, Bool.or_false, hand]
  · simp [hi]

end Sys2Proof.Laws.TableRow
end

