-- ==== Sys2Proof/Tests/Slice0.lean ====
section
/-! SUPPORT. Tests whose expected results come from 95_test_vectors.md and the encodings of 30_encoding.md, and a witness
for the hypotheses of each statement. -/

namespace Sys2Proof.Tests

open Sys2Proof.Machine

/-! ### Well-formedness: one ill-formed term for each check -/

theorem test_wf_width_zero : Config.wf { Config.hw with width := 0 } = false := by decide
theorem test_wf_width_high : Config.wf { Config.hw with width := 65536 } = false := by decide
theorem test_wf_height_zero : Config.wf { Config.hw with height := 0 } = false := by decide
theorem test_wf_height_high : Config.wf { Config.hw with height := 65536 } = false := by decide
theorem test_wf_npix_high : Config.wf { Config.hw with width := 65535, height := 65535 } = false := by decide
theorem test_wf_ics_low : Config.wf { Config.hw with ics := 1 } = false := by decide
theorem test_wf_ics_high : Config.wf { Config.hw with ics := 9 } = false := by decide
theorem test_wf_symbol_high : Instr.wf Config.hw (.lzwSymbol 4#8) = false := by decide
theorem test_wf_symbol_legal : Instr.wf Config.hw (.lzwSymbol 3#8) = true := by decide

/-! ### Decoding: words written out from 30_encoding.md R91, R92 and 95_test_vectors.md sections 2 to 4 -/

theorem test_decode_start : decode (.cmd 0x00000001#32) = .ok (.start 0#24) := by decide
theorem test_decode_addframe : decode (.cmd 0x00200002#32) = .ok (.addframe 8192#24) := by decide
theorem test_decode_finish : decode (.cmd 0x00000003#32) = .ok (.finish 0#24) := by decide
theorem test_decode_oneshot : decode (.cmd 0x00000804#32) = .ok (.oneshot 8#24) := by decide
theorem test_decode_begin : decode (.eop 0x100000000#35) = .ok .lzwBegin := by decide
theorem test_decode_symbol : decode (.eop 0x200000001#35) = .ok (.lzwSymbol 1#8) := by decide
theorem test_decode_end : decode (.eop 0x300000000#35) = .ok .lzwEnd := by decide
theorem test_decode_quant : decode (.eop 0x4FF010002#35) = .ok (.quant 0xFF010002#32) := by decide
theorem test_decode_op_zero : decode (.cmd 0x00000000#32) = .error .illegalCommand := by decide
theorem test_decode_op_five : decode (.cmd 0x00000005#32) = .error .illegalCommand := by decide
theorem test_decode_rsv : decode (.cmd 0x00000812#32) = .error .illegalCommand := by decide
theorem test_decode_eopc_five : decode (.eop 0x500000000#35) = .error .reservedOpcode := by decide
theorem test_decode_begin_earg : decode (.eop 0x100000001#35) = .error .nonzeroArgument := by decide
theorem test_decode_symbol_earg : decode (.eop 0x200000100#35) = .error .nonzeroArgument := by decide
theorem test_decode_table_word : decodeTableWord 40 0x200000003 = some (.lzwSymbol 3#8) := by decide
theorem test_encode_oneshot : encode (.oneshot 8192#24) = .cmd 0x00200004#32 := by decide

/-! ### Small states -/

/-- The 4x2 instance of 95_test_vectors.md section 4. -/
def small : Config := { Config.hw with width := 4, height := 2 }

theorem small_wf : small.wf = true := by decide

/-- The reset state with the host's coming answers. -/
def answering (answers : List Bool) : State := { State.reset with env := { State.reset.env with answers := answers } }

/-- A started session, work path 7, current path 9. -/
def inSession (answers : List Bool) : State :=
  { answering answers with
    fmt := { State.reset.fmt with sess := .started, workPath := 7#32 }
    path := 9#32 }

/-- The state with a frame buffer that holds these words from index 0 on (none of them 0). -/
def showing (pixels : List Word) (s : State) : State := { s with fb := pixels.zipIdx.map fun p => (p.2, p.1) }

/-- The state with one host move to come. -/
def offered (m : HostMove) (s : State) : State := { s with env := { s.env with inbox := [m] } }

/-- The state whose host never answers that request. -/
def unanswering (n : Option Nat) (s : State) : State := { s with env := { s.env with unanswered := n } }

/-- The state with these frame-buffer writes in flight. -/
def racing (writes : List (Nat × Word)) (s : State) : State := { s with env := { s.env with racing := writes } }

/-- `BLACK WHITE WHITE BLACK WHITE BLACK BLACK WHITE` (95_test_vectors.md P2). -/
def mix : List Word :=
  [0xFF000000#32, 0xFFFFFFFF#32, 0xFFFFFFFF#32, 0xFF000000#32, 0xFFFFFFFF#32, 0xFF000000#32, 0xFF000000#32, 0xFFFFFFFF#32]

/-- The engine after LZW_BEGIN and the symbols 0 0 (95_test_vectors.md section 3.1). -/
def oneEntry : Engine where
  ent := 0#12
  haveEnt := true
  freeEnt := 7#13
  nBits := 3#4
  acc := 0b000100#19
  accBits := 6#5
  pktCnt := 0#8
  lzwActive := true
  ht := [(0, { valid := true, fcode := 0#20, code := 6#12 })]
  pkt := []

/-- The reset state with this engine. -/
def running (e : Engine) : State := { State.reset with eng := e }

/-- A property of the next state. -/
def nextSatisfies (o : Host.Outcome State Fault Refusal) (p : State → Bool) : Bool :=
  match o with
  | .next s => p s
  | .fault _ => false
  | .refused _ => false

/-! ### One step each -/

theorem test_step_start : nextSatisfies (step (State.reset.withFetchWord 32 0x00000001)) (fun _ => true) = true := by
  decide

theorem test_step_addframe :
    nextSatisfies (step (State.reset.withFetchWord 32 0x00200002)) (fun t => t.fmt.lastCause = .notStarted) = true := by
  decide

theorem test_step_oneshot :
    nextSatisfies (step (State.reset.withFetchWord 32 0x00000704)) (fun t => t.fmt.lastCause = .sizeMismatch) = true := by
  decide

theorem test_step_finish :
    nextSatisfies (step (State.reset.withFetchWord 32 0x00000003)) (fun t => t.fmt.lastCause = .notStarted) = true := by
  decide

theorem test_step_begin :
    nextSatisfies (step (State.reset.withFetchWord 40 0x100000000)) (fun t => t.eng.freeEnt = 6#13) = true := by
  decide

/-- 95_test_vectors.md P9: the third signature byte fails. -/
theorem test_start_signature_fails :
    nextSatisfies (exec (.start 0#24) (answering [true, true, true, false, true])) (fun t =>
      t.fmt.sess = .idle ∧ t.fmt.lastCause = .ioFailure ∧ t.env.log.map Prod.fst =
        [.openSink .session 0#32, .write .session 0x47#8, .write .session 0x49#8, .write .session 0x46#8,
          .close .session]) = true := by
  decide

/-- 95_test_vectors.md P7, third row. -/
theorem test_finish_close_fails :
    nextSatisfies (exec (.finish 0#24) (inSession [true, false, true])) (fun t =>
      t.fmt.sess = .idle ∧ t.fmt.result = false ∧ t.env.log =
        [(.write .session 0x3B#8, true), (.close .session, false), (.delete 7#32, true)]) = true := by
  decide

/-- 41_gif_formatter.md R145, the example: the first ADDFRAME of a session, 4x2, all zero pixels. -/
theorem test_addframe_small :
    (match addFrame small 8#24 (inSession (List.replicate 37 true)) with
      | some t => acceptedBytes .session t.env.log
      | none => []) =
      [0x04#8, 0x00#8, 0x02#8, 0x00#8, 0x88#8, 0x00#8, 0x00#8, 0x00#8, 0x00#8, 0x00#8, 0xFF#8, 0xFF#8, 0xFF#8,
        0x21#8, 0xF9#8, 0x04#8, 0x00#8, 0x02#8, 0x00#8, 0x00#8, 0x00#8,
        0x2C#8, 0x00#8, 0x00#8, 0x00#8, 0x00#8, 0x04#8, 0x00#8, 0x02#8, 0x00#8, 0x00#8,
        0x02#8, 0x03#8, 0x84#8, 0x6F#8, 0x05#8, 0x00#8] := by
  decide

/-- 95_test_vectors.md P5: the failing byte is in the colour table, and the header is still to come. -/
theorem test_addframe_fails_in_table :
    (addFrame small 8#24 (inSession (List.replicate 9 true ++ [false]))).map
      (fun t => (t.fmt.firstPending, t.fmt.lastCause, t.env.log.length)) = some (true, .ioFailure, 10) := by
  decide

/-- 95_test_vectors.md P2: the LZW data of the one-shot document. -/
theorem test_oneshot_small :
    (match oneShot small 8#24 (showing mix (answering (List.replicate 39 true))) with
      | some t => (acceptedBytes .oneshot t.env.log).drop 29
      | none => []) = [0x02#8, 0x04#8, 0x44#8, 0x62#8, 0x60#8, 0x05#8, 0x00#8, 0x3B#8] := by
  decide

/-- 95_test_vectors.md P8: WRITE of the `ICS` byte fails. -/
theorem test_oneshot_fails_at_ics :
    (oneShot small 8#24 (showing mix (answering (List.replicate 30 true ++ [false, true, true])))).map
      (fun t => (t.fmt.result, (t.env.log.drop 30).map Prod.fst)) =
      some (false, [.write .oneshot 0x02#8, .close .oneshot, .delete 0#32]) := by
  decide

/-- 95_test_vectors.md section 3.1, input 0 0 0: the second symbol misses. -/
theorem test_symbol_miss :
    nextSatisfies (exec (.lzwSymbol 0#8) (running { oneEntry with freeEnt := 6#13, acc := 0b100#19, accBits := 3#5, ht := [] }))
      (fun t => t.eng = oneEntry) = true := by
  decide

/-- 95_test_vectors.md section 3.1, input 0 0 0: the third symbol hits. -/
theorem test_symbol_hit :
    nextSatisfies (exec (.lzwSymbol 0#8) (running oneEntry)) (fun t => t.eng.ent = 6#12 ∧ t.eng.accBits = 6#5) = true := by
  decide

/-- 95_test_vectors.md section 3.1, input 0: LZW_END. -/
theorem test_end :
    nextSatisfies (exec .lzwEnd (running { oneEntry with acc := 0b100#19, accBits := 3#5 }))
      (fun t => t.env.engineOut = [0x02#8, 0x44#8, 0x01#8] ∧ t.eng.pktCnt = 0#8) = true := by
  decide

/-- 95_test_vectors.md section 3.1, LZW_BEGIN. -/
theorem test_begin :
    nextSatisfies (exec .lzwBegin State.reset)
      (fun t => t.eng.acc = 0b100#19 ∧ t.eng.accBits = 3#5 ∧ t.env.engineOut = [0x02#8]) = true := by
  decide

/-- 95_test_vectors.md section 2: weight 540. -/
theorem test_quant_white :
    nextSatisfies (exec (.quant 0xFF010002#32) State.reset) (fun t => t.env.quantOut = true) = true := by
  decide

/-- 95_test_vectors.md section 2: weight 468, and the alpha byte ignored. -/
theorem test_quant_black :
    nextSatisfies (exec (.quant 0x77000004#32) State.reset) (fun t => t.env.quantOut = false) = true := by
  decide

/-- 40_quantizer.md R132: the comparator at 511 and 512. -/
theorem test_comparator : isWhite Config.hw 511 = false ∧ isWhite Config.hw 512 = true := by decide

/-- 95_test_vectors.md section 3.4, symbol index 45: slots 17, 34. -/
theorem test_probe_collision :
    lookup Config.hw { oneEntry with ht := [(17, { valid := true, fcode := 4097#20, code := 10#12 })] } 0 17 =
      some (false, 34) := by
  decide

/-- 95_test_vectors.md section 3.4, symbol index 54: the first index is 0 and the probe wraps to 5002. -/
theorem test_probe_wrap : lookup Config.hw oneEntry 1 16 = some (false, 5002) := by decide

/-- 95_test_vectors.md section 3.1: the closed form of the output agrees with the vector. -/
theorem test_lzwData : lzwData Config.hw [0, 1, 1, 0, 1, 0, 0, 1] =
    [0x02#8, 0x04#8, 0x44#8, 0x62#8, 0x60#8, 0x05#8, 0x00#8] := by
  decide

/-- 41_gif_formatter.md R166(f). -/
theorem test_oneshot_shared_path :
    exec (.oneshot 8192#24) { inSession [] with path := 7#32 } = .refused .sharedPath := rfl

/-- 20_memory.md R81: the host never answers RENAME. -/
theorem test_stall :
    exec (.finish 0#24) (unanswering (some 2) (inSession [true, true, true])) = .fault .sinkStall := rfl

/-! ### Witnesses: states and operands that meet the hypotheses of each statement

Where a hypothesis is "the host gives these answers", the state lists exactly them. -/

theorem answers_all (env : Env) (n : Nat) (h : env.unanswered = none) : env.answersNext n := fun m hm => by
  rw [h] at hm
  cases hm

theorem next_of_nextSatisfies {o : Host.Outcome State Fault Refusal} {p : State → Bool} (h : nextSatisfies o p = true) :
    ∃ t, o = .next t ∧ p t = true := by
  cases o with
  | next t => exact ⟨t, rfl, h⟩
  | fault _ => cases h
  | refused _ => cases h

theorem canonical_of_checks {s : State}
    (h : (Memory.wf unlistedSlot s.eng.ht && Memory.wf unlistedByte s.eng.pkt && Memory.wf unlistedPixel s.fb
      && s.eng.ht.all (fun cell => decide (cell.1 < 5003)) && s.eng.pkt.all (fun cell => decide (cell.1 < 254))
      && s.fb.all (fun cell => decide (cell.1 < 8192)) && s.env.racing.all (fun cell => decide (cell.1 < 8192))) = true) :
    MemoriesCanonical s := by
  simp only [Bool.and_eq_true, List.all_eq_true, decide_eq_true_eq] at h
  obtain ⟨⟨⟨⟨⟨⟨h1, h2⟩, h3⟩, h4⟩, h5⟩, h6⟩, h7⟩ := h
  exact ⟨h1, h2, h3, h4, h5, h6, h7⟩

theorem answering_canonical (answers : List Bool) : MemoriesCanonical (answering answers) := canonical_of_checks rfl

theorem not_started_answering (answers : List Bool) :
    ¬ ((answering answers).fmt.sess = .started ∧ (answering answers).path = (answering answers).fmt.workPath) :=
  fun h => Session.noConfusion (show Session.idle = .started from h.1)

theorem inSession_canonical (answers : List Bool) : MemoriesCanonical (inSession answers) := canonical_of_checks rfl

/-! #### Encoding and the step -/

theorem witness_UndefinedCommandWordFails :
    (∀ w, (offered (.writeReg 0 w) State.reset).env.inbox = .writeReg 0 w :: []) ∧
      ∀ w ∈ [0x00000000#32, 0x00000005#32, 0x0000000F#32, 0x00000812#32, 0x000000F1#32],
        w.toNat % 16 = 0 ∨ 4 < w.toNat % 16 ∨ w.toNat / 16 % 16 ≠ 0 :=
  ⟨fun _ => rfl, by simp⟩

theorem witness_ReservedEngineWordRefused :
    (∀ w s, (offered (.engineOp w) s).env.inbox = .engineOp w :: []) ∧
    (∀ w ∈ [0x000000000#35, 0x500000000#35, 0x7FFFFFFFF#35, 0x100000001#35, 0x380000000#35, 0x200000100#35],
      w.toNat / 2 ^ 32 = 0 ∨ 5 ≤ w.toNat / 2 ^ 32 ∨
        (w.toNat / 2 ^ 32 = 1 ∨ w.toNat / 2 ^ 32 = 3) ∧ w.toNat % 2 ^ 32 ≠ 0 ∨
        w.toNat / 2 ^ 32 = 2 ∧ 256 ≤ w.toNat % 2 ^ 32) ∧
    ∀ w ∈ [0x200000004#35, 0x2000000FF#35, 0x200000100#35], w.toNat / 2 ^ 32 = 2 ∧ 4 ≤ w.toNat % 2 ^ 32 :=
  ⟨fun _ _ => rfl, by simp, by simp⟩

theorem witness_StepRunsDecodedInstruction :
    (State.reset.offer (.cmd 0x00000001#32)).env.inbox = moveOf (.cmd 0x00000001#32) :: [] ∧
      decode (.cmd 0x00000001#32) = .ok (.start 0#24) ∧
    (State.reset.offer (.eop 0x4FF010002#35)).env.inbox = moveOf (.eop 0x4FF010002#35) :: [] ∧
      decode (.eop 0x4FF010002#35) = .ok (.quant 0xFF010002#32) := by
  decide

theorem witness_IdleUntilInput : State.reset.env.inbox = [] := rfl

theorem witness_StatusRegisterIsResult :
    (offered (.readReg 2) State.reset).env.inbox = .readReg 2 :: [] ∧
      (offered (.writeReg 2 0xFFFFFFFF#32) State.reset).env.inbox = .writeReg 2 0xFFFFFFFF#32 :: [] := ⟨rfl, rfl⟩

theorem witness_PathAndCmdRegisters :
    (offered (.readReg 0) State.reset).env.inbox = .readReg 0 :: [] ∧
      (offered (.readReg 1) State.reset).env.inbox = .readReg 1 :: [] ∧
      (offered (.writeReg 1 0xFFFFFFFF#32) State.reset).env.inbox = .writeReg 1 0xFFFFFFFF#32 :: [] ∧
      ∃ t, exec (.start 0#24) State.reset = .next t := ⟨rfl, rfl, rfl, _, rfl⟩

theorem witness_ResetAbandonsSession :
    (offered .reset (inSession [])).env.inbox = .reset :: [] ∧ (offered .reset (inSession [])).fmt.sess = .started :=
  ⟨rfl, rfl⟩

theorem witness_TickExpansion :
    (offered .tick State.reset).env.inbox = .tick :: [] ∧
      (offered .clearSingle State.reset).env.inbox = .clearSingle :: [] := ⟨rfl, rfl⟩

/-! #### START -/

theorem witness_StartOpensSession :
    let s := answering (List.replicate 7 true)
    s.fmt.sess = .idle ∧
      s.env.gives ((.openSink .session s.path, true) ::
        accepted .session [0x47#8, 0x49#8, 0x46#8, 0x38#8, 0x39#8, 0x61#8]) ∧ s.env.answersNext 7 :=
  ⟨rfl, Env.gives_of_answers rfl, answers_all _ _ rfl⟩

theorem witness_StartWhileStartedFails : (inSession []).fmt.sess = .started ∧ (inSession []).env.answersNext 0 :=
  ⟨rfl, answers_all _ _ rfl⟩

theorem witness_StartFailuresReleaseSink_open :
    let s := answering [false]
    s.fmt.sess = .idle ∧ s.env.gives [(.openSink .session s.path, false)] ∧ s.env.answersNext 1 :=
  ⟨rfl, Env.gives_of_answers rfl, answers_all _ _ rfl⟩

theorem witness_StartFailuresReleaseSink_write (k : Nat) (hk : k = 0 ∨ k = 5) (closed : Bool) :
    let tr : Transcript := (.openSink .session 0#32, true) ::
      (cutOff .session [0x47#8, 0x49#8, 0x46#8, 0x38#8, 0x39#8, 0x61#8] k ++ [(.close .session, closed)])
    let s := answering (tr.map Prod.snd)
    s.fmt.sess = .idle ∧ s.path = 0#32 ∧ k < 6 ∧ s.env.gives tr ∧ s.env.answersNext tr.length :=
  ⟨rfl, rfl, by omega, Env.gives_of_answers rfl, answers_all _ _ rfl⟩

/-! #### ADDFRAME -/

/-- The listed answers do not change the frame as read. -/
theorem symbols_answering : ∃ q, ∀ answers, frameSymbols Config.hw (answering answers) = q :=
  ⟨frameSymbols Config.hw (answering []), fun _ => frameSymbols_congr _ rfl rfl rfl⟩

theorem symbols_inSession : ∃ q, ∀ answers, frameSymbols Config.hw (inSession answers) = q :=
  ⟨frameSymbols Config.hw (inSession []), fun _ => frameSymbols_congr _ rfl rfl rfl⟩

theorem witness_AddFrameAppendsRecord :
    ∃ s : State, MemoriesCanonical s ∧ s.fmt.sess = .started ∧ s.fmt.firstPending = true ∧ (8192#24).toNat = 8192 ∧
      s.env.gives (accepted .session (addedBytes Config.hw s.fmt.firstPending (frameSymbols Config.hw s))) ∧
      ∀ n, s.env.answersNext n := by
  obtain ⟨q, hq⟩ := symbols_inSession
  refine ⟨inSession ((accepted .session (addedBytes Config.hw true q)).map Prod.snd), inSession_canonical _, rfl, rfl, rfl,
    ?_, fun n => answers_all _ n rfl⟩
  rw [hq]
  exact Env.gives_of_answers rfl

/-- The failing WRITE is the first, the last of the colour table, the first after it. -/
theorem witness_AddFrameStopsAtFailedWrite (k : Nat) (hk : k = 0 ∨ k = 12 ∨ k = 13) :
    ∃ s : State, MemoriesCanonical s ∧ s.fmt.sess = .started ∧ s.fmt.firstPending = true ∧ (8192#24).toNat = 8192 ∧
      k < (addedBytes Config.hw s.fmt.firstPending (frameSymbols Config.hw s)).length ∧
      s.env.gives (cutOff .session (addedBytes Config.hw s.fmt.firstPending (frameSymbols Config.hw s)) k) ∧
      ∀ n, s.env.answersNext n := by
  obtain ⟨q, hq⟩ := symbols_inSession
  refine ⟨inSession ((cutOff .session (addedBytes Config.hw true q) k).map Prod.snd), inSession_canonical _, rfl, rfl, rfl,
    ?_, ?_, fun n => answers_all _ n rfl⟩
  · rw [hq]
    have hh : (lsdBytes Config.hw ++ gctBytes Config.hw).length = 13 := by decide
    have hg : (gceBytes Config.hw ++ idBytes Config.hw).length = 18 := by decide
    show k < ((lsdBytes Config.hw ++ gctBytes Config.hw) ++ ((gceBytes Config.hw ++ idBytes Config.hw) ++ lzwData Config.hw q)).length
    simp only [List.length_append] at hh hg ⊢
    omega
  · rw [hq]
    exact Env.gives_of_answers rfl

theorem witness_RejectedWithoutSession : State.reset.fmt.sess = .idle ∧ State.reset.env.answersNext 0 :=
  ⟨rfl, answers_all _ _ rfl⟩

theorem witness_SizeMismatchChangesNothing :
    (8191#24).toNat ≠ 8192 ∧ (inSession []).env.answersNext 0 ∧ (inSession []).fmt.sess = .started ∧
      ¬ ((inSession []).fmt.sess = .started ∧ (inSession []).path = (inSession []).fmt.workPath) :=
  ⟨by decide, answers_all _ _ rfl, rfl, by decide⟩

/-! #### FINISH -/

theorem witness_FinishRequestTable (deleted : Bool) :
    ∀ tr ∈ [[(Request.write .session 0x3B#8, true), (.close .session, true), (.rename 7#32 9#32, true)],
        [(.write .session 0x3B#8, true), (.close .session, true), (.rename 7#32 9#32, false), (.delete 7#32, deleted)],
        [(.write .session 0x3B#8, true), (.close .session, false), (.delete 7#32, deleted)],
        [(.write .session 0x3B#8, false), (.close .session, true), (.delete 7#32, deleted)],
        [(.write .session 0x3B#8, false), (.close .session, false), (.delete 7#32, deleted)]],
      let s := inSession (tr.map Prod.snd)
      s.fmt.sess = .started ∧ s.fmt.workPath = 7#32 ∧ s.path = 9#32 ∧ s.env.gives tr ∧ s.env.answersNext tr.length :=
  fun _ _ => ⟨rfl, rfl, rfl, Env.gives_of_answers rfl, answers_all _ _ rfl⟩

/-! #### ONESHOT -/

theorem witness_OneShotWritesDocument :
    ∃ s : State, MemoriesCanonical s ∧ ¬ (s.fmt.sess = .started ∧ s.path = s.fmt.workPath) ∧ (8192#24).toNat = 8192 ∧
      s.env.gives ((.openSink .oneshot s.path, true) ::
        (accepted .oneshot (oneShotDocument Config.hw (frameSymbols Config.hw s)) ++ [(.close .oneshot, true)])) ∧
      ∀ n, s.env.answersNext n := by
  obtain ⟨q, hq⟩ := symbols_answering
  refine ⟨answering (((.openSink .oneshot 0#32, true) ::
      (accepted .oneshot (oneShotDocument Config.hw q) ++ [(.close .oneshot, true)]) : Transcript).map Prod.snd),
    answering_canonical _, not_started_answering _, rfl, ?_, fun n => answers_all _ n rfl⟩
  rw [hq]
  exact Env.gives_of_answers rfl

/-- Each of the three forms of transcript: OPEN fails, the first WRITE fails, CLOSE fails. -/
theorem witness_OneShotFailureCleanUp (closed deleted : Bool) :
    ∃ q, 0 < (oneShotDocument Config.hw q).length ∧
    ∀ tr : Transcript,
      (tr = [(.openSink .oneshot 0#32, false)] ∨
        tr = (.openSink .oneshot 0#32, true) ::
          (cutOff .oneshot (oneShotDocument Config.hw q) 0 ++ [(.close .oneshot, closed), (.delete 0#32, deleted)]) ∨
        tr = (.openSink .oneshot 0#32, true) ::
          (accepted .oneshot (oneShotDocument Config.hw q) ++ [(.close .oneshot, false), (.delete 0#32, deleted)])) →
      let s := answering (tr.map Prod.snd)
      MemoriesCanonical s ∧ ¬ (s.fmt.sess = .started ∧ s.path = s.fmt.workPath) ∧ s.path = 0#32 ∧
        frameSymbols Config.hw s = q ∧ s.env.gives tr ∧ s.env.answersNext tr.length := by
  obtain ⟨q, hq⟩ := symbols_answering
  refine ⟨q, ?_, fun tr _ => ⟨answering_canonical _, not_started_answering _, rfl, hq _,
    Env.gives_of_answers rfl, answers_all _ _ rfl⟩⟩
  simp [oneShotDocument, sigBytes]

theorem witness_OneShotSharedPathRefused :
    ({ inSession [] with path := 7#32 } : State).fmt.sess = .started ∧
      ({ inSession [] with path := 7#32 } : State).path = ({ inSession [] with path := 7#32 } : State).fmt.workPath :=
  ⟨rfl, rfl⟩

/-! #### Rules of the whole machine -/

theorem completes_start : ∃ t, exec (.start 0#24) State.reset = .next t := ⟨_, rfl⟩

theorem completes_start_open : ∃ t, exec (.start 0#24) (answering (List.replicate 7 true)) = .next t ∧
    t.fmt.sess = .started ∧ t.fmt.lastCause = .none := ⟨_, rfl, rfl, rfl⟩

theorem completes_addframe_idle : ∃ t, exec (.addframe 8192#24) State.reset = .next t ∧ t.fmt.lastCause = .notStarted :=
  ⟨_, rfl, rfl⟩

theorem completes_addframe_fails : ∃ t, exec (.addframe 8192#24) (inSession [false]) = .next t ∧
    t.fmt.lastCause = .ioFailure ∧ t.fmt.firstPending = true := ⟨_, rfl, rfl, rfl⟩

theorem completes_addframe_size : ∃ t, exec (.addframe 8#24) (inSession []) = .next t ∧
    t.fmt.lastCause = .sizeMismatch ∧ t.env.log = (inSession []).env.log := ⟨_, rfl, rfl, rfl⟩

theorem completes_finish : ∃ t, exec (.finish 0#24) (inSession [true, true, true]) = .next t ∧
    t.fmt.sess = .idle ∧ t.fmt.result = true := ⟨_, rfl, rfl, rfl⟩

theorem completes_oneshot_fails : ∃ t, exec (.oneshot 8192#24) (answering [false]) = .next t ∧
    t.fmt.lastCause = .ioFailure := ⟨_, rfl, rfl⟩

theorem completes_start_started : ∃ t, exec (.start 0#24) (inSession []) = .next t ∧
    t.fmt.lastCause = .alreadyStarted ∧ t.fmt.result = false := ⟨_, rfl, rfl, rfl⟩

theorem completes_lzwBegin : ∃ t, exec .lzwBegin State.reset = .next t := by
  obtain ⟨t, h, -⟩ := next_of_nextSatisfies (p := fun _ => true) (o := exec .lzwBegin State.reset) (by decide)
  exact ⟨t, h⟩

theorem completes_lzwSymbol : ∃ t, exec (.lzwSymbol 0#8) (running oneEntry) = .next t := by
  obtain ⟨t, h, -⟩ := next_of_nextSatisfies (p := fun _ => true) (o := exec (.lzwSymbol 0#8) (running oneEntry)) (by decide)
  exact ⟨t, h⟩

theorem completes_lzwEnd : ∃ t, exec .lzwEnd (running oneEntry) = .next t := by
  obtain ⟨t, h, -⟩ := next_of_nextSatisfies (p := fun _ => true) (o := exec .lzwEnd (running oneEntry)) (by decide)
  exact ⟨t, h⟩

theorem completes_quant : ∃ t, exec (.quant 0xFF010002#32) State.reset = .next t := ⟨_, rfl⟩

/-- ContextsAreIndependent, RequestsTakeHostAnswersInOrder, ResultAgreesWithCause and the three frames ask for a state
from which an instruction answers a next state: each instruction has one. -/
theorem witness_each_instruction_completes :
    (∃ s t, exec (.start 0#24) s = .next t) ∧ (∃ s t, exec (.addframe 8192#24) s = .next t) ∧
      (∃ s t, exec (.finish 0#24) s = .next t) ∧ (∃ s t, exec (.oneshot 8192#24) s = .next t) ∧
      (∃ s t, exec .lzwBegin s = .next t) ∧ (∃ s t, exec (.lzwSymbol 0#8) s = .next t) ∧
      (∃ s t, exec .lzwEnd s = .next t) ∧ ∃ s t, exec (.quant 0#32) s = .next t :=
  ⟨⟨_, completes_start⟩, ⟨_, _, completes_addframe_idle.choose_spec.1⟩, ⟨_, _, completes_finish.choose_spec.1⟩,
    ⟨_, _, completes_oneshot_fails.choose_spec.1⟩, ⟨_, completes_lzwBegin⟩, ⟨_, completes_lzwSymbol⟩,
    ⟨_, completes_lzwEnd⟩, ⟨State.reset, _, rfl⟩⟩

/-- Each clause of CausesAndTheirConditions, and the failing START of FrameOfStartAndFinish. -/
theorem witness_CausesAndTheirConditions :
    (∃ t, exec (.start 0#24) (inSession []) = .next t ∧ t.fmt.lastCause = .alreadyStarted ∧ t.fmt.result = false) ∧
      (∃ t, exec (.addframe 8192#24) State.reset = .next t ∧ t.fmt.lastCause = .notStarted) ∧
      (∃ t, exec (.addframe 8#24) (inSession []) = .next t ∧ t.fmt.lastCause = .sizeMismatch ∧
        t.env.log = (inSession []).env.log) ∧
      ∃ t, exec (.oneshot 8192#24) (answering [false]) = .next t ∧ t.fmt.lastCause = .ioFailure :=
  ⟨completes_start_started, completes_addframe_idle, completes_addframe_size, completes_oneshot_fails⟩

/-- FrameOfFrameCommands: the flag still set, a request issued, and no request issued. -/
theorem witness_FrameOfFrameCommands :
    (∃ t, exec (.addframe 8192#24) (inSession [false]) = .next t ∧ t.fmt.lastCause = .ioFailure ∧
      t.fmt.firstPending = true) ∧
      ∃ t, exec (.addframe 8#24) (inSession []) = .next t ∧ t.fmt.lastCause = .sizeMismatch ∧
        t.env.log = (inSession []).env.log := ⟨completes_addframe_fails, completes_addframe_size⟩

theorem witness_SessionChangesOnlyByStartAndFinish :
    (∃ t, step ((answering (List.replicate 7 true)).offer (.cmd 0x00000001#32)) = .next t ∧
      (answering (List.replicate 7 true)).fmt.sess = .idle ∧ t.fmt.sess = .started) ∧
    (∃ t, step ((inSession [true, true, true]).offer (.cmd 0x00000003#32)) = .next t ∧
      (inSession [true, true, true]).fmt.sess = .started ∧ t.fmt.sess = .idle) ∧
    ∃ t, step (offered .reset (inSession [])) = .next t ∧ t.fmt.sess = .idle :=
  ⟨⟨_, rfl, rfl, rfl⟩, ⟨_, rfl, rfl, rfl⟩, ⟨_, rfl, rfl⟩⟩

/-- Both clauses: request 2 is issued (RENAME), request 3 is not. -/
theorem witness_UnansweredRequestStalls (n : Nat) (hn : n = 2 ∨ n = 3) :
    let s := unanswering (some n) (inSession [true, true, true])
    s.env.unanswered = some n ∧
      ∃ t, exec (.finish 0#24) { s with env := { s.env with unanswered := none } } = .next t ∧
        (n < t.env.log.length ↔ n = 2) := by
  refine ⟨rfl, _, rfl, ?_⟩
  show n < 3 ↔ n = 2
  omega

theorem witness_CommandsCompleteWhenAnswered :
    MemoriesCanonical (inSession []) ∧ (inSession []).env.unanswered = none ∧
      ¬ ((inSession []).fmt.sess = .started ∧ (inSession []).path = (inSession []).fmt.workPath) :=
  ⟨inSession_canonical _, rfl, by decide⟩

theorem witness_EngineStateDoesNotLeak :
    let s := inSession [false]
    let u : State := { inSession [false] with eng := oneEntry, pixIdx := 17#24 }
    MemoriesCanonical s ∧ MemoriesCanonical u ∧ s.fmt = u.fmt ∧ s.path = u.path ∧ s.fb = u.fb ∧ s.env = u.env ∧
      s.eng ≠ u.eng ∧ (∃ t, exec (.addframe 8192#24) s = .next t) ∧
      exec (.finish 0#24) (unanswering (some 0) s) = .fault .sinkStall :=
  ⟨inSession_canonical _, canonical_of_checks rfl, rfl, rfl, rfl, rfl, by decide, ⟨_, rfl⟩, rfl⟩

theorem witness_SessionDocumentIsPublished :
    ∃ s : State, MemoriesCanonical s ∧ s.fmt.sess = .idle ∧ s.env.racing = [] ∧
      (∀ fb ∈ [[], [(0, 0xFFFFFFFF#32), (8191, 0xFFFFFFFF#32)]],
        Memory.wf unlistedPixel fb = true ∧ ∀ cell ∈ fb, cell.1 < 8192) ∧
      s.env.gives ((.openSink .session s.path, true) ::
        (accepted .session (sessionDocument Config.hw
          (([[], [(0, 0xFFFFFFFF#32), (8191, 0xFFFFFFFF#32)]] : List (Memory Word)).map
            fun fb => frameSymbols Config.hw (s.setFb fb))) ++
          [(.close .session, true), (.rename s.path 9#32, true)])) ∧
      ∀ n, s.env.answersNext n := by
  obtain ⟨f, hf⟩ : ∃ f : Memory Word → List Nat, ∀ answers,
      (fun fb => frameSymbols Config.hw ((answering answers).setFb fb)) = f :=
    ⟨fun fb => frameSymbols Config.hw ((answering []).setFb fb), fun _ => funext fun _ => frameSymbols_congr _ rfl rfl rfl⟩
  refine ⟨answering (((.openSink .session 0#32, true) ::
      (accepted .session (sessionDocument Config.hw ([[], [(0, 0xFFFFFFFF#32), (8191, 0xFFFFFFFF#32)]].map f)) ++
        [(.close .session, true), (.rename 0#32 9#32, true)]) : Transcript).map Prod.snd),
    answering_canonical _, rfl, rfl, by decide, ?_, fun n => answers_all _ n rfl⟩
  rw [hf]
  exact Env.gives_of_answers rfl

/-! #### The invariants and the LZW engine -/

theorem oneEntry_slot (k : Nat) :
    oneEntry.slot k = if 0 = k then { valid := true, fcode := 0#20, code := 6#12 } else unlistedSlot := rfl

theorem oneEntry_valid {k : Nat} (h : (oneEntry.slot k).valid = true) : k = 0 := by
  rw [oneEntry_slot] at h
  split at h
  · omega
  · cases h

theorem oneEntry_ranges : EngineRanges Config.hw oneEntry where
  free_low := by decide
  free_high := by decide
  width_low := by decide
  width_high := by decide
  width_fits := by decide
  bits_high := by decide
  acc_fits := by decide
  packet_high := by decide
  ent_range := by decide
  code_range := fun k h => by
    obtain rfl := oneEntry_valid h
    decide

theorem oneEntry_dictionary : DictionaryWf Config.hw oneEntry where
  index_range := fun k h => by
    obtain rfl := oneEntry_valid h
    decide
  code_once := fun code h1 h2 => by
    have e1 : Config.hw.first = 6 := rfl
    have e2 : oneEntry.freeEnt.toNat = 7 := rfl
    obtain rfl : code = 6 := by omega
    exact ⟨0, by decide, fun j hj _ => oneEntry_valid hj⟩
  key_once := fun j k hj hk _ => by rw [oneEntry_valid hj, oneEntry_valid hk]
  symbol_legal := fun k h => by
    obtain rfl := oneEntry_valid h
    decide
  prefix_older := fun k h => by
    obtain rfl := oneEntry_valid h
    decide
  found := fun k h => by
    obtain rfl := oneEntry_valid h
    decide

theorem running_canonical : MemoriesCanonical (running oneEntry) := canonical_of_checks rfl

/-- The three invariants that a step keeps, at a step of an active engine that inserts a pair. -/
theorem witness_StepKeepsInvariants :
    let s := offered (.engineOp 0x200000001#35) (running oneEntry)
    s.eng.lzwActive = true ∧ MemoriesCanonical s ∧ EngineInRange s ∧ DictionaryInOrder s ∧
      ∃ t, step s = .next t ∧ decide (t.eng.freeEnt = 8#13) = true :=
  ⟨rfl, canonical_of_checks rfl, fun _ => oneEntry_ranges, fun _ => oneEntry_dictionary,
    next_of_nextSatisfies (by decide)⟩

theorem witness_LzwFirstSymbolStartsMatch :
    let s := running { oneEntry with haveEnt := false }
    s.eng.lzwActive = true ∧ s.eng.haveEnt = false ∧ (3#8).toNat < 4 := by
  decide

theorem witness_LzwHitExtendsMatch :
    let s := running oneEntry
    s.eng.lzwActive = true ∧ s.eng.haveEnt = true ∧ (0#8).toNat < 4 ∧ DictionaryWf Config.hw s.eng ∧
      HasEntry s.eng s.eng.ent.toNat (0#8).toNat 6 :=
  ⟨rfl, rfl, by decide, oneEntry_dictionary, 0, by decide⟩

theorem oneEntry_lacks (sym : Nat) (h : sym ≠ 0) (code : Nat) : ¬ HasEntry oneEntry 0 sym code := by
  rintro ⟨k, hk, -, hs, -⟩
  obtain rfl := oneEntry_valid hk
  exact h (hs.symm.trans (by decide))

theorem witness_LzwMissInsertsPair :
    let s := running oneEntry
    MemoriesCanonical s ∧ s.eng.lzwActive = true ∧ s.eng.haveEnt = true ∧ (3#8).toNat < 4 ∧
      EngineRanges Config.hw s.eng ∧ DictionaryWf Config.hw s.eng ∧
      (∀ code, ¬ HasEntry s.eng s.eng.ent.toNat (3#8).toNat code) ∧ s.eng.freeEnt.toNat < 4096 :=
  ⟨running_canonical, rfl, rfl, by decide, oneEntry_ranges, oneEntry_dictionary, oneEntry_lacks 3 (by decide), by decide⟩

theorem witness_LzwMissWhenFullClears :
    let s := running { oneEntry with freeEnt := 4096#13, nBits := 12#4 }
    s.eng.lzwActive = true ∧ s.eng.haveEnt = true ∧ (1#8).toNat < 4 ∧
      lookup Config.hw s.eng (1#8).toNat s.eng.ent.toNat = some (false, 16) ∧ s.eng.freeEnt.toNat = 4096 := by
  decide

theorem witness_LzwEndFlushesEverything :
    (running oneEntry).eng.lzwActive = true ∧ (running oneEntry).eng.haveEnt = true := ⟨rfl, rfl⟩

theorem witness_EngineRefusals :
    State.reset.eng.lzwActive = false ∧ ((running oneEntry).eng.lzwActive = true ∧ 4 ≤ (4#8).toNat) ∧
      (running { oneEntry with haveEnt := false }).eng.lzwActive = true ∧
      (running { oneEntry with haveEnt := false }).eng.haveEnt = false := by
  decide

theorem oneEntry_full_ranges : EngineRanges Config.hw { oneEntry with pktCnt := 253#8 } :=
  { oneEntry_ranges with packet_high := by decide }

/-- A packet that stays open, and one that the code's byte fills. -/
theorem witness_EmitPacksCode :
    (EngineRanges Config.hw (running oneEntry).eng ∧ Memory.wf unlistedByte (running oneEntry).eng.pkt = true ∧
      7 < 2 ^ (running oneEntry).eng.nBits.toNat ∧
      (packetBytes oneEntry oneEntry.pktCnt.toNat).length + 1 < 254) ∧
    EngineRanges Config.hw (running { oneEntry with pktCnt := 253#8 }).eng ∧
      254 ≤ (packetBytes { oneEntry with pktCnt := 253#8 } 253).length + 1 :=
  ⟨⟨oneEntry_ranges, by decide, by decide, by decide⟩, oneEntry_full_ranges, by simp [packetBytes]⟩

theorem witness_ProbeEndsWithin4091 :
    Memory.wf unlistedSlot oneEntry.ht = true ∧ validCount oneEntry ≤ 4090 := by
  decide

/-- Both answers of the search. -/
theorem witness_LookupFindsDictionaryEntry :
    DictionaryWf Config.hw oneEntry ∧ lookup Config.hw oneEntry 0 0 = some (true, 0) ∧
      lookup Config.hw oneEntry 255 4095 = some (false, 15) :=
  ⟨oneEntry_dictionary, by decide, by decide⟩

theorem witness_EngineOutputIsBlock :
    MemoriesCanonical State.reset ∧ [0, 1, 2, 3] ≠ [] ∧ ∀ x ∈ [0, 1, 2, 3], x < 4 :=
  ⟨canonical_of_checks rfl, by decide, by decide⟩

theorem witness_BlockDecodesToFrame : [0, 1, 1, 0] ≠ [] ∧ ∀ x ∈ [0, 1, 1, 0], x < 4 := by decide

theorem witness_CodeWidthDependsOnPosition : ∀ x ∈ [0, 1, 2, 3], x < 4 := by decide

theorem witness_PayloadHasTwoBytes : [0] ≠ ([] : List Nat) := by decide

/-! #### The frame buffer -/

theorem witness_FrameBufferReadsAndWrites :
    MemoriesCanonical (offered (.writeFb 8191 5#32) State.reset) ∧
      (offered (.writeFb 8191 5#32) State.reset).env.inbox = .writeFb 8191 5#32 :: [] ∧
      (offered (.writeFb 8192 5#32) State.reset).env.inbox = .writeFb 8192 5#32 :: [] ∧
      raced State.reset 0 = false ∧
      (racing [(3, 5#32)] State.reset).env.racing = [(3, 5#32)] ∧ raced (racing [(3, 5#32)] State.reset) 3 = true :=
  ⟨canonical_of_checks rfl, rfl, rfl, rfl, rfl, rfl⟩

end Sys2Proof.Tests
end

/-! ### The step: fetching a move and running the instruction it brings (00_scope.md R7) -/

namespace Sys2Proof.Machine

theorem fetch_of_inbox_cons {s : State} {m : HostMove} {rest : List HostMove} (h : s.env.inbox = m :: rest) :
    fetch s = hostMove m (s.setInbox rest) := by
  simp only [fetch, h]

theorem step_of_fetch_run {s t : State} {i : Instr} (h : fetch s = .run i t) : step s = exec i t := by
  simp only [step, h]

/-- On either port, a word that decodes brings its instruction and changes nothing before it runs. -/
theorem hostMove_moveOf_of_decode {word : InWord} {i : Instr} (h : decode word = .ok i) (s : State) :
    hostMove (moveOf word) s = .run i s := by
  cases word with
  | cmd w => simp only [moveOf, hostMove, writeRegister, h]
  | eop w => simp only [moveOf, hostMove, driveEngine, h]

/-- Settles O7: the fetch takes the move, the move brings the decoded instruction, and the step runs it. -/
theorem stepRunsDecodedInstruction : Obligations.StepRunsDecodedInstruction := by
  intro s word i rest hinbox hdecode
  have hfetch : fetch s = .run i (s.setInbox rest) :=
    (fetch_of_inbox_cons hinbox).trans (hostMove_moveOf_of_decode hdecode _)
  exact step_of_fetch_run hfetch

end Sys2Proof.Machine

/-! ### Requests and output read and write nothing but the environment -/

namespace Sys2Proof.Machine

/-- A request's answer and the environment after it come from the environment before it. -/
theorem sinkReq_of_env_eq {s u : State} (h : s.env = u.env) (r : Request) :
    ∃ ok env, sinkReq r s = (ok, s.setEnv env) ∧ sinkReq r u = (ok, u.setEnv env) := by
  refine ⟨_, _, sinkReq_eq r s, ?_⟩
  rw [sinkReq_eq, h]

theorem writeAll_of_env_eq {s u : State} (h : s.env = u.env) (ctx : Ctx) (bytes : List Byte) :
    ∃ ok env, writeAll ctx bytes s = (ok, s.setEnv env) ∧ writeAll ctx bytes u = (ok, u.setEnv env) := by
  rcases writeAll_cases ctx bytes s with ⟨hg, hs⟩ | ⟨k, hk, hg, hs⟩
  · refine ⟨_, _, hs, ?_⟩
    rw [writeAll_of_gives (h ▸ hg), h]
  · refine ⟨_, _, hs, ?_⟩
    rw [writeAll_of_cutOff hk (h ▸ hg), h]

/-- How `Out` ends, and the environment after it, come from the environment before it. -/
theorem out_of_env_eq {s u : State} (h : s.env = u.env) (port : Port) (bytes : List Byte) :
    ∃ env, (out port bytes s = .ok (s.setEnv env) ∧ out port bytes u = .ok (u.setEnv env)) ∨
      (out port bytes s = .raised (s.setEnv env) ∧ out port bytes u = .raised (u.setEnv env)) := by
  cases port with
  | list => exact ⟨_, .inl ⟨out_list bytes s, by rw [out_list, h]⟩⟩
  | sink ctx =>
    obtain ⟨ok, env, hs, hu⟩ := writeAll_of_env_eq h ctx bytes
    cases ok with
    | true => exact ⟨env, .inl ⟨by simp [out, hs], by simp [out, hu]⟩⟩
    | false => exact ⟨env, .inr ⟨by simp [out, hs], by simp [out, hu]⟩⟩

end Sys2Proof.Machine

/-! ### The dictionary search: what its answer points at -/

namespace Sys2Proof.Machine

/-- The search answers "found" at a valid slot only (42_lzw_engine.md R188). -/
theorem probeFrom_found_valid {c : Config} {e : Engine} {fcode : BitVec 20} {disp fuel i k : Nat}
    (h : probeFrom c e fcode disp fuel i = some (true, k)) : (e.slot k).valid = true := by
  induction fuel generalizing i with
  | zero => cases h
  | succ fuel ih =>
    rw [probeFrom] at h
    split at h
    · next hkey =>
      obtain rfl : i = k := by simpa using h
      exact (Bool.and_eq_true_iff.mp hkey).1
    · split at h
      · simp at h
      · exact ih h

theorem lookup_found_valid {c : Config} {e : Engine} {sym ent k : Nat} (h : lookup c e sym ent = some (true, k)) :
    (e.slot k).valid = true :=
  probeFrom_found_valid h

end Sys2Proof.Machine

/-! ### The dictionary's slots after an update -/

namespace Sys2Proof.Machine

theorem clearValid_slot_valid (e : Engine) (k : Nat) : (e.clearValid.slot k).valid = false :=
  Memory.read_mapAll_prop (P := fun slot : Slot => slot.valid = false) rfl (fun _ => rfl) e.ht k

theorem insert_slot_same {e : Engine} (h : Memory.wf unlistedSlot e.ht = true) (i : Nat) (fcode : BitVec 20) :
    (e.insert i fcode).slot i = { valid := true, fcode := fcode, code := BitVec.ofNat 12 e.freeEnt.toNat } :=
  Memory.read_write_same h i _

theorem insert_slot_ne (e : Engine) {i k : Nat} (hk : k ≠ i) (fcode : BitVec 20) :
    (e.insert i fcode).slot k = e.slot k :=
  Memory.read_write_ne e.ht hk _

end Sys2Proof.Machine

/-! ### Two runs that differ in the engine only (10_state.md R45)

A command is run from two states that agree outside the engine and `pix_idx`. LZW_BEGIN makes the two engines agree on
everything a frame can read (`SameCoding`), and from there both runs issue the same requests and end alike. -/

namespace Sys2Proof.Machine

/-- The dictionary and the packet buffer are in canonical form. -/
def Engine.MemoriesWf (e : Engine) : Prop :=
  Memory.wf unlistedSlot e.ht = true ∧ Memory.wf unlistedByte e.pkt = true

theorem Engine.MemoriesWf.clearValid {e : Engine} (h : e.MemoriesWf) : e.clearValid.MemoriesWf :=
  ⟨Memory.wf_mapAll _ h.1, h.2⟩

theorem Engine.MemoriesWf.storePkt {e : Engine} (h : e.MemoriesWf) (b : Byte) : (e.storePkt b).MemoriesWf :=
  ⟨h.1, Memory.wf_write h.2 _ b⟩

theorem Engine.MemoriesWf.insert {e : Engine} (h : e.MemoriesWf) (i : Nat) (fcode : BitVec 20) :
    (e.insert i fcode).MemoriesWf :=
  ⟨Memory.wf_write h.1 i _, h.2⟩

/-- The engines agree on all that can still be read: the match is read only once there is one (`haveEnt`, which is `b`), a
slot's key and code only while it is valid, and of the packet buffer only the bytes below `pktCnt`. -/
structure SameCoding (b : Bool) (e e' : Engine) : Prop where
  haveEnt_left : e.haveEnt = b
  haveEnt_right : e'.haveEnt = b
  ent : b = true → e.ent = e'.ent
  freeEnt : e.freeEnt = e'.freeEnt
  nBits : e.nBits = e'.nBits
  acc : e.acc = e'.acc
  accBits : e.accBits = e'.accBits
  pktCnt : e.pktCnt = e'.pktCnt
  valid : ∀ k, (e.slot k).valid = (e'.slot k).valid
  slot : ∀ k, (e.slot k).valid = true → e.slot k = e'.slot k
  packet : ∀ k, k < e.pktCnt.toNat → e.pktByte k = e'.pktByte k
  wf_left : e.MemoriesWf
  wf_right : e'.MemoriesWf

namespace SameCoding

variable {b : Bool} {e e' : Engine}

theorem begin (c : Config) (h : e.MemoriesWf) (h' : e'.MemoriesWf) :
    SameCoding false (e.begin c) (e'.begin c) where
  haveEnt_left := rfl
  haveEnt_right := rfl
  ent := nofun
  freeEnt := rfl
  nBits := rfl
  acc := rfl
  accBits := rfl
  pktCnt := rfl
  valid k := (clearValid_slot_valid e k).trans (clearValid_slot_valid e' k).symm
  slot k hk := absurd ((clearValid_slot_valid e k).symm.trans hk) (by decide)
  packet k hk := absurd hk (Nat.not_lt_zero k)
  wf_left := h.clearValid
  wf_right := h'.clearValid

theorem pack (h : SameCoding b e e') (v : Nat) : SameCoding b (e.pack v) (e'.pack v) :=
  { h with
    acc := by simp [h.acc, h.accBits]
    accBits := by simp [h.accBits, h.nBits] }

theorem dropByte (h : SameCoding b e e') : SameCoding b e.dropByte e'.dropByte :=
  { h with
    acc := by simp [h.acc]
    accBits := by simp [h.accBits] }

theorem setWidth (h : SameCoding b e e') (n : Nat) : SameCoding b (e.setWidth n) (e'.setWidth n) :=
  { h with
    nBits := rfl }

theorem clearAcc (h : SameCoding b e e') : SameCoding b e.clearAcc e'.clearAcc :=
  { h with
    acc := rfl
    accBits := rfl }

theorem stop (h : SameCoding b e e') : SameCoding b e.stop e'.stop := { h with }

theorem emptyPkt (h : SameCoding b e e') : SameCoding b e.emptyPkt e'.emptyPkt :=
  { h with
    pktCnt := rfl
    packet := fun k hk => absurd hk (Nat.not_lt_zero k) }

theorem setEnt (h : SameCoding b e e') (v : Nat) : SameCoding b (e.setEnt v) (e'.setEnt v) :=
  { h with
    ent := fun _ => rfl }

theorem setEnt_markEnt (h : SameCoding b e e') (v : Nat) :
    SameCoding true (e.setEnt v).markEnt (e'.setEnt v).markEnt :=
  { h with
    haveEnt_left := rfl
    haveEnt_right := rfl
    ent := fun _ => rfl }

theorem storePkt (h : SameCoding b e e') (byte : Byte) : SameCoding b (e.storePkt byte) (e'.storePkt byte) :=
  { h with
    pktCnt := by simp [h.pktCnt]
    packet := fun k hk => by
      rw [Engine.pktByte, Engine.pktByte, Engine.storePkt_pkt, Engine.storePkt_pkt, ← h.pktCnt]
      by_cases hlast : k = e.pktCnt.toNat
      · subst hlast
        rw [Memory.read_write_same h.wf_left.2, Memory.read_write_same h.wf_right.2]
      · have hle : (e.storePkt byte).pktCnt.toNat ≤ e.pktCnt.toNat + 1 := by
          simpa using Nat.mod_le (e.pktCnt.toNat + 1) 256
        rw [Memory.read_write_ne _ hlast, Memory.read_write_ne _ hlast]
        exact h.packet k (by omega)
    wf_left := h.wf_left.storePkt byte
    wf_right := h.wf_right.storePkt byte }

theorem insert (h : SameCoding b e e') (i : Nat) (fcode : BitVec 20) :
    SameCoding b (e.insert i fcode) (e'.insert i fcode) :=
  have hnew : (e.insert i fcode).slot i = (e'.insert i fcode).slot i := by
    rw [insert_slot_same h.wf_left.1, insert_slot_same h.wf_right.1, h.freeEnt]
  { h with
    freeEnt := by simp [h.freeEnt]
    valid := fun k => by
      by_cases hk : k = i
      · rw [hk, hnew]
      · rw [insert_slot_ne e hk, insert_slot_ne e' hk, h.valid]
    slot := fun k hv => by
      by_cases hk : k = i
      · rw [hk, hnew]
      · rw [insert_slot_ne e hk] at hv
        rw [insert_slot_ne e hk, insert_slot_ne e' hk, h.slot k hv]
    wf_left := h.wf_left.insert i fcode
    wf_right := h.wf_right.insert i fcode }

theorem restart (h : SameCoding b e e') (c : Config) : SameCoding b (e.restart c) (e'.restart c) :=
  { h with
    freeEnt := rfl
    valid := fun k => (clearValid_slot_valid e k).trans (clearValid_slot_valid e' k).symm
    slot := fun k hk => absurd ((clearValid_slot_valid e k).symm.trans hk) (by decide)
    wf_left := h.wf_left.clearValid
    wf_right := h.wf_right.clearValid }

theorem packetBytes_eq (h : SameCoding b e e') :
    packetBytes e e.pktCnt.toNat = packetBytes e' e.pktCnt.toNat :=
  List.map_congr_left fun k hk => h.packet k (List.mem_range.mp hk)

theorem nextWidth_eq (h : SameCoding b e e') (c : Config) (v : Nat) : nextWidth c v e = nextWidth c v e' := by
  simp only [nextWidth, h.nBits, h.freeEnt]

theorem hasRoom_eq (h : SameCoding b e e') (c : Config) : hasRoom c e = hasRoom c e' := by
  simp only [hasRoom, h.freeEnt]

theorem lowByte_eq (h : SameCoding b e e') : lowByte e = lowByte e' := by
  rw [lowByte, lowByte, h.acc]

/-- The search reads keys of valid slots only. -/
theorem probeFrom_eq (h : SameCoding b e e') (c : Config) (fcode : BitVec 20) (disp fuel i : Nat) :
    probeFrom c e fcode disp fuel i = probeFrom c e' fcode disp fuel i := by
  induction fuel generalizing i with
  | zero => rfl
  | succ fuel ih =>
    rw [probeFrom, probeFrom, ih]
    cases hv : (e.slot i).valid with
    | true => rw [← h.slot i hv, hv]
    | false => rw [← h.valid i, hv]; rfl

theorem lookup_eq (h : SameCoding b e e') (c : Config) (sym ent : Nat) : lookup c e sym ent = lookup c e' sym ent :=
  h.probeFrom_eq c _ _ _ _

end SameCoding

end Sys2Proof.Machine

/-! ### Two runs that differ in the engine only: the operations and the commands -/

namespace Sys2Proof.Machine

/-- The states agree on all but the engine and `pix_idx`. -/
structure SameOutside (s u : State) : Prop where
  fmt : s.fmt = u.fmt
  path : s.path = u.path
  fb : s.fb = u.fb
  env : s.env = u.env

namespace SameOutside

variable {s u : State}

theorem setEnv (h : SameOutside s u) (env : Env) : SameOutside (s.setEnv env) (u.setEnv env) := { h with env := rfl }

theorem setFmt (h : SameOutside s u) (fmt : Formatter) : SameOutside (s.setFmt fmt) (u.setFmt fmt) :=
  { h with fmt := rfl }

theorem setEng (h : SameOutside s u) (e e' : Engine) : SameOutside (s.setEng e) (u.setEng e') := { h with }

theorem setPixIdx (h : SameOutside s u) (i : BitVec 24) : SameOutside (s.setPixIdx i) (u.setPixIdx i) := { h with }

theorem completeCommand (h : SameOutside s u) : SameOutside (completeCommand s) (completeCommand u) :=
  { h with fmt := by simp [h.fmt] }

theorem failCommand (h : SameOutside s u) (cause : Cause) : SameOutside (failCommand cause s) (failCommand cause u) :=
  { h with fmt := by simp [h.fmt] }

theorem landRaces (h : SameOutside s u) : SameOutside (landRaces s) (landRaces u) where
  fmt := h.fmt
  path := h.path
  fb := by
    show s.env.racing.foldl _ s.fb = u.env.racing.foldl _ u.fb
    rw [h.env, h.fb]
  env := by simp [h.env]

/-- A request gets the same answer in both states. -/
theorem sinkReq (h : SameOutside s u) (r : Request) :
    ∃ ok t v, Machine.sinkReq r s = (ok, t) ∧ Machine.sinkReq r u = (ok, v) ∧ SameOutside t v := by
  obtain ⟨ok, env, hs, hu⟩ := sinkReq_of_env_eq h.env r
  exact ⟨ok, _, _, hs, hu, h.setEnv env⟩

theorem writeAll (h : SameOutside s u) (ctx : Ctx) (bytes : List Byte) :
    ∃ ok t v, Machine.writeAll ctx bytes s = (ok, t) ∧ Machine.writeAll ctx bytes u = (ok, v) ∧ SameOutside t v := by
  obtain ⟨ok, env, hs, hu⟩ := writeAll_of_env_eq h.env ctx bytes
  exact ⟨ok, _, _, hs, hu, h.setEnv env⟩

/-- A pixel reads as the same word, and uses up the same draws. -/
theorem readPixel (h : SameOutside s u) (i : Nat) :
    ∃ w env, Machine.readPixel i s = (w, s.setEnv env) ∧ Machine.readPixel i u = (w, u.setEnv env) := by
  have hraced : raced s i = raced u i := by simp only [raced, h.env]
  have hcand : pixelCandidates s i = pixelCandidates u i := by simp only [pixelCandidates, h.env, h.fb]
  cases hr : raced s i with
  | false =>
    refine ⟨_, s.env, readPixel_of_not_raced hr, ?_⟩
    rw [readPixel_of_not_raced (hraced ▸ hr), h.fb, h.env, setEnv_self]
  | true =>
    refine ⟨_, _, by rw [Machine.readPixel, if_pos hr], ?_⟩
    rw [Machine.readPixel, if_pos (hraced ▸ hr), hcand, h.env]

end SameOutside

theorem EngineStep.pixIdx_eq {port : Port} {s t : State} (h : EngineStep port s t) : t.pixIdx = s.pixIdx := by
  obtain ⟨e, tr, bytes, rfl, -⟩ := h
  rfl

/-- The states agree outside the engine, and the engines are related by `E`. -/
def Agree (E : Engine → Engine → Prop) (s u : State) : Prop := SameOutside s u ∧ E s.eng u.eng

/-- Before a command the memories are canonical; nothing else is known of the engines. -/
abbrev AgreeCanonical : State → State → Prop := Agree fun e e' => e.MemoriesWf ∧ e'.MemoriesWf

/-- The two operations end alike: completed in states related by `P`, or raised in states that agree outside the engine. -/
inductive SameRes (P : State → State → Prop) : Res → Res → Prop
  | ok {s u : State} (h : P s u) : SameRes P (.ok s) (.ok u)
  | raised {s u : State} (h : SameOutside s u) : SameRes P (.raised s) (.raised u)
  | endless : SameRes P .endless .endless

theorem SameRes.bind {P Q : State → State → Prop} {r r' : Res} {f f' : State → Res} (h : SameRes P r r')
    (hf : ∀ s u, P s u → SameRes Q (f s) (f' u)) : SameRes Q (r.bind f) (r'.bind f') := by
  cases h with
  | ok h => exact hf _ _ h
  | raised h => exact .raised h
  | endless => exact .endless

/-- What each of the two runs satisfies by itself, added to what relates them. -/
theorem SameRes.and_all {P : State → State → Prop} {S S' : State → Prop} {r r' : Res} (h : SameRes P r r')
    (hr : r.All S) (hr' : r'.All S') : SameRes (fun s u => P s u ∧ S s ∧ S' u) r r' := by
  cases h with
  | ok h => exact .ok ⟨h, hr, hr'⟩
  | raised h => exact .raised h
  | endless => exact .endless

theorem SameRes.mono {P Q : State → State → Prop} {r r' : Res} (h : SameRes P r r') (hPQ : ∀ s u, P s u → Q s u) :
    SameRes Q r r' := by
  cases h with
  | ok h => exact .ok (hPQ _ _ h)
  | raised h => exact .raised h
  | endless => exact .endless

theorem out_agree {E : Engine → Engine → Prop} {s u : State} (h : Agree E s u) (port : Port) (bytes : List Byte) :
    SameRes (Agree E) (out port bytes s) (out port bytes u) := by
  obtain ⟨hout, heng⟩ := h
  obtain ⟨env, ⟨hs, hu⟩ | ⟨hs, hu⟩⟩ := out_of_env_eq hout.env port bytes
  · rw [hs, hu]
    exact .ok ⟨hout.setEnv env, heng⟩
  · rw [hs, hu]
    exact .raised (hout.setEnv env)

/-! #### The engine -/

section
variable {b : Bool} {s u : State} (c : Config) (port : Port)

theorem flushPacket_agree (h : Agree (SameCoding b) s u) :
    SameRes (Agree (SameCoding b)) (flushPacket port s) (flushPacket port u) := by
  unfold flushPacket
  rw [← h.2.pktCnt, ← h.2.packetBytes_eq]
  split
  · exact .ok h
  · exact (out_agree h port _).bind fun t v ⟨ho, he⟩ => .ok ⟨ho.setEng _ _, he.emptyPkt⟩

theorem flushIfFull_agree (h : Agree (SameCoding b) s u) :
    SameRes (Agree (SameCoding b)) (flushIfFull c port s) (flushIfFull c port u) := by
  unfold flushIfFull
  rw [← h.2.pktCnt]
  split
  · exact flushPacket_agree port h
  · exact .ok h

theorem pushByte_agree (byte : Byte) (h : Agree (SameCoding b) s u) :
    SameRes (Agree (SameCoding b)) (pushByte c port byte s) (pushByte c port byte u) :=
  flushIfFull_agree c port ⟨h.1.setEng _ _, h.2.storePkt byte⟩

theorem peelBytes_agree (n : Nat) (h : Agree (SameCoding b) s u) :
    SameRes (Agree (SameCoding b)) (peelBytes c port n s) (peelBytes c port n u) := by
  induction n generalizing s u with
  | zero => exact .ok h
  | succ n ih =>
    rw [peelBytes, peelBytes, h.2.lowByte_eq]
    exact (pushByte_agree c port _ h).bind fun t v ⟨ho, hc⟩ => ih ⟨ho.setEng _ _, hc.dropByte⟩

theorem emit_agree (code : Nat) (h : Agree (SameCoding b) s u) :
    SameRes (Agree (SameCoding b)) (emit c port code s) (emit c port code u) := by
  obtain ⟨ho, hc⟩ := h
  rw [emit, emit, (hc.pack code).accBits]
  refine (peelBytes_agree c port _ ⟨ho.setEng _ _, hc.pack code⟩).bind fun t v ⟨ho', hc'⟩ => ?_
  rw [hc'.nextWidth_eq]
  exact .ok ⟨ho'.setEng _ _, hc'.setWidth _⟩

/-- LZW_BEGIN forgets what was in the engine (42_lzw_engine.md R183). -/
theorem lzwBegin_agree (h : AgreeCanonical s u) :
    SameRes (Agree (SameCoding false)) (lzwBegin c port s) (lzwBegin c port u) :=
  (out_agree h port _).bind fun _ _ ⟨ho, hwf, hwf'⟩ =>
    emit_agree c port _ ⟨ho.setEng _ _, SameCoding.begin c hwf hwf'⟩

theorem lzwMiss_agree (sym i : Nat) (h : Agree (SameCoding true) s u) :
    SameRes (Agree (SameCoding true)) (lzwMiss c port sym i s) (lzwMiss c port sym i u) := by
  rw [lzwMiss, lzwMiss, ← h.2.ent rfl]
  refine (emit_agree c port _ h).bind fun t v ⟨ho, hc⟩ => ?_
  rw [← hc.hasRoom_eq]
  split
  · exact .ok ⟨ho.setEng _ _, (hc.setEnt sym).insert i _⟩
  · exact (emit_agree c port _ ⟨ho.setEng _ _, hc.setEnt sym⟩).bind fun t' v' ⟨ho', hc'⟩ =>
      .ok ⟨ho'.setEng _ _, hc'.restart c⟩

/-- After a symbol there is a match, and both runs have the same. -/
theorem lzwSymbol_agree (sym : Nat) (h : Agree (SameCoding b) s u) :
    SameRes (Agree (SameCoding true)) (lzwSymbol c port sym s) (lzwSymbol c port sym u) := by
  obtain ⟨ho, hc⟩ := h
  unfold lzwSymbol
  rw [hc.haveEnt_left, hc.haveEnt_right]
  cases b with
  | false => exact .ok ⟨ho.setEng _ _, hc.setEnt_markEnt sym⟩
  | true =>
    rw [if_pos rfl, if_pos rfl, ← hc.ent rfl, ← hc.lookup_eq]
    match hfound : lookup c s.eng sym s.eng.ent.toNat with
    | none => exact .endless
    | some (true, i) =>
      simp only [← hc.slot i (lookup_found_valid hfound)]
      exact .ok ⟨ho.setEng _ _, hc.setEnt _⟩
    | some (false, i) => exact lzwMiss_agree c port sym i ⟨ho, hc⟩

theorem flushBits_agree (h : Agree (SameCoding b) s u) :
    SameRes (Agree (SameCoding b)) (flushBits c port s) (flushBits c port u) := by
  unfold flushBits
  rw [← h.2.accBits, h.2.lowByte_eq]
  split
  · exact .ok h
  · exact (pushByte_agree c port _ h).bind fun t v ⟨ho, hc⟩ => .ok ⟨ho.setEng _ _, hc.clearAcc⟩

/-- LZW_END reads the match, so there must be one (42_lzw_engine.md R199). -/
theorem lzwEnd_agree (h : Agree (SameCoding true) s u) :
    SameRes (Agree (SameCoding true)) (lzwEnd c port s) (lzwEnd c port u) := by
  rw [lzwEnd, lzwEnd, ← h.2.ent rfl]
  exact (emit_agree c port _ h).bind fun _ _ h1 => (emit_agree c port _ h1).bind fun _ _ h2 =>
    (flushBits_agree c port h2).bind fun _ _ h3 => (flushPacket_agree port h3).bind fun _ _ ⟨ho, hc⟩ =>
      .ok ⟨ho.setEng _ _, hc.stop⟩

/-! #### The frame -/

/-- One pixel of a frame: both runs read the same word, so they consume the same symbol. -/
theorem pixelSymbol_agree (h : Agree (SameCoding b) s u) (hidx : s.pixIdx = u.pixIdx) (i : Nat) :
    SameRes (fun t v => Agree (SameCoding true) t v ∧ t.pixIdx = v.pixIdx)
      (lzwSymbol c port (quantize c (readPixel i s).1).toNat (readPixel i s).2)
      (lzwSymbol c port (quantize c (readPixel i u).1).toNat (readPixel i u).2) := by
  obtain ⟨w, env, hs, hu⟩ := h.1.readPixel i
  rw [hs, hu]
  refine ((lzwSymbol_agree c port _ ⟨h.1.setEnv env, h.2⟩).and_all (lzwSymbol_step c port _ _)
    (lzwSymbol_step c port _ _)).mono fun t v ⟨hag, ht, hv⟩ => ⟨hag, ?_⟩
  rw [ht.pixIdx_eq, hv.pixIdx_eq]
  exact hidx

/-- With a match in hand, or at least one pixel to come, both runs end the frame with the same match. -/
theorem frameLoop_agree (n : Nat) (hn : b = true ∨ 0 < n) (h : Agree (SameCoding b) s u) (hidx : s.pixIdx = u.pixIdx) :
    SameRes (Agree (SameCoding true)) (frameLoop c port n s) (frameLoop c port n u) := by
  induction n generalizing b s u with
  | zero =>
    obtain rfl : b = true := hn.resolve_right (Nat.lt_irrefl 0)
    exact .ok h
  | succ n ih =>
    rw [frameLoop, frameLoop, ← hidx]
    refine (pixelSymbol_agree c port h hidx _).bind fun t v ⟨⟨ho, hc⟩, hidx'⟩ => ?_
    rw [← hidx']
    exact ih (.inl rfl) ⟨ho.setPixIdx _, hc⟩ rfl

theorem encodeFrame_agree (ctx : Ctx) (hnpix : 0 < c.npix) (h : AgreeCanonical s u) :
    SameRes (Agree (SameCoding true)) (encodeFrame c ctx s) (encodeFrame c ctx u) :=
  (lzwBegin_agree c _ h).bind fun _ _ ⟨ho, hc⟩ =>
    (frameLoop_agree c _ c.npix (.inr hnpix) ⟨ho.setPixIdx 0#24, hc⟩ rfl).bind fun _ _ h2 =>
      (lzwEnd_agree c _ h2).bind fun _ _ h3 => out_agree h3 _ _

end

end Sys2Proof.Machine

namespace Sys2Proof.Machine

/-! #### The commands -/

/-- The two outcomes are of one kind, with the same reason, and next states agree outside the engine. -/
inductive SameOutcome : Host.Outcome State Fault Refusal → Host.Outcome State Fault Refusal → Prop
  | next {t v : State} (h : SameOutside t v) : SameOutcome (.next t) (.next v)
  | fault (f : Fault) : SameOutcome (.fault f) (.fault f)
  | refused (r : Refusal) : SameOutcome (.refused r) (.refused r)

namespace SameOutcome

variable {o o' : Host.Outcome State Fault Refusal}

theorem next_of_next {t : State} (h : SameOutcome o o') (ht : o = .next t) : ∃ v, o' = .next v ∧ SameOutside t v := by
  cases h with
  | next h =>
    cases ht
    exact ⟨_, rfl, h⟩
  | fault f => cases ht
  | refused r => cases ht

theorem fault_of_fault {f : Fault} (h : SameOutcome o o') (hf : o = .fault f) : o' = .fault f := by
  cases h with
  | next h => cases hf
  | fault g => exact hf
  | refused r => cases hf

theorem refused_of_refused {r : Refusal} (h : SameOutcome o o') (hr : o = .refused r) : o' = .refused r := by
  cases h with
  | next h => cases hr
  | fault f => cases hr
  | refused q => exact hr

end SameOutcome

section
variable {s u : State}

theorem settle_same {t v : State} (h : SameOutside s u) (h' : SameOutside t v) :
    SameOutcome (settle s t) (settle u v) := by
  unfold settle
  rw [← h.env, ← h'.env]
  split
  · exact .next h'
  · split
    · exact .fault _
    · exact .next h'

theorem frameOutcome_same {r r' : Option State} (h : SameOutside s u) (h' : Option.Rel SameOutside r r') :
    SameOutcome (frameOutcome s r) (frameOutcome u r') := by
  cases h' with
  | some ht => exact settle_same h ht.landRaces
  | none => exact .fault _

theorem startOpened_same (h : SameOutside s u) : SameOutside (startOpened s) (startOpened u) := by
  obtain ⟨ok, t, v, hs, hu, h'⟩ := h.writeAll .session sigBytes
  rw [startOpened, startOpened, hs, hu]
  cases ok with
  | true =>
    refine SameOutside.completeCommand ?_
    rw [h'.fmt, h'.path]
    exact h'.setFmt _
  | false =>
    obtain ⟨_, t', v', hs', hu', h''⟩ := h'.sinkReq (.close .session)
    simp only [hs', hu']
    exact h''.failCommand _

theorem startSession_same (h : SameOutside s u) : SameOutside (startSession s) (startSession u) := by
  obtain ⟨ok, t, v, hs, hu, h'⟩ := h.sinkReq (.openSink .session s.path)
  rw [startSession, startSession, ← h.fmt, ← h.path, hs, hu]
  cases s.fmt.sess with
  | started => exact h.failCommand _
  | idle =>
    cases ok with
    | true => exact startOpened_same h'
    | false => exact h'.failCommand _

theorem finishClose_same (ok : Bool) (h : SameOutside s u) :
    ∃ okAll t v, finishClose ok s = (okAll, t) ∧ finishClose ok u = (okAll, v) ∧ SameOutside t v := by
  obtain ⟨okClose, t, v, hs, hu, h'⟩ := h.sinkReq (.close .session)
  simp only [finishClose, hs, hu, ← h'.fmt, ← h'.path]
  cases ok && okClose with
  | true => exact h'.sinkReq _
  | false => exact ⟨false, t, v, rfl, rfl, h'⟩

theorem finishEnd_same (ok : Bool) (h : SameOutside s u) : SameOutside (finishEnd ok s) (finishEnd ok u) := by
  cases ok with
  | true =>
    refine SameOutside.completeCommand ?_
    rw [h.fmt]
    exact h.setFmt _
  | false =>
    obtain ⟨_, t, v, hs, hu, h'⟩ := h.sinkReq (.delete s.fmt.workPath)
    simp only [finishEnd, ← h.fmt, hs, hu, ← h'.fmt]
    exact (h'.setFmt _).failCommand _

theorem finishSession_same (h : SameOutside s u) : SameOutside (finishSession s) (finishSession u) := by
  obtain ⟨ok, t, v, hs, hu, h'⟩ := h.sinkReq (.write .session trailerByte)
  obtain ⟨okAll, t', v', hs', hu', h''⟩ := finishClose_same ok h'
  simp only [finishSession, ← h.fmt, hs, hu, hs', hu']
  cases s.fmt.sess with
  | idle => exact h.failCommand _
  | started => exact finishEnd_same okAll h''

theorem writeHeader_agree (c : Config) (h : AgreeCanonical s u) :
    SameRes AgreeCanonical (writeHeader c s) (writeHeader c u) := by
  unfold writeHeader
  rw [← h.1.fmt]
  split
  · refine (out_agree h _ _).bind fun _ _ h1 => (out_agree h1 _ _).bind fun t v ⟨ho, hwf⟩ => ?_
    rw [ho.fmt]
    exact .ok ⟨ho.setFmt _, hwf⟩
  · exact .ok h

theorem writeFrame_agree (c : Config) (hnpix : 0 < c.npix) (h : AgreeCanonical s u) :
    SameRes (Agree (SameCoding true)) (writeFrame c s) (writeFrame c u) :=
  (writeHeader_agree c h).bind fun _ _ h1 => (out_agree h1 _ _).bind fun _ _ h2 =>
    (out_agree h2 _ _).bind fun _ _ h3 => encodeFrame_agree c _ hnpix h3

theorem writeDocument_agree (c : Config) (hnpix : 0 < c.npix) (h : AgreeCanonical s u) :
    SameRes (Agree (SameCoding true)) (writeDocument c s) (writeDocument c u) :=
  (out_agree h _ _).bind fun _ _ h1 => (out_agree h1 _ _).bind fun _ _ h2 => (out_agree h2 _ _).bind fun _ _ h3 =>
    (out_agree h3 _ _).bind fun _ _ h4 => (encodeFrame_agree c _ hnpix h4).bind fun _ _ h5 => out_agree h5 _ _

theorem addFrameEnd_same {E : Engine → Engine → Prop} {r r' : Res} (h : SameRes (Agree E) r r') :
    Option.Rel SameOutside (addFrameEnd r) (addFrameEnd r') := by
  cases h with
  | ok h => exact .some h.1.completeCommand
  | raised h => exact .some ((h.setEng _ _).failCommand _)
  | endless => exact .none

theorem addFrame_same (c : Config) (len : BitVec 24) (hnpix : 0 < c.npix) (h : AgreeCanonical s u) :
    Option.Rel SameOutside (addFrame c len s) (addFrame c len u) := by
  unfold addFrame
  rw [← h.1.fmt]
  cases s.fmt.sess with
  | idle => exact .some (h.1.failCommand _)
  | started =>
    dsimp only
    split
    · exact addFrameEnd_same (writeFrame_agree c hnpix h)
    · exact .some (h.1.failCommand _)

/-- ONESHOT's last request, DELETE, and the failure it ends in. -/
theorem deleteAndFail_same (h : SameOutside s u) :
    SameOutside (failCommand .ioFailure (sinkReq (.delete s.path) s).2)
      (failCommand .ioFailure (sinkReq (.delete u.path) u).2) := by
  obtain ⟨_, t, v, hs, hu, h'⟩ := h.sinkReq (.delete s.path)
  rw [← h.path, hs, hu]
  exact h'.failCommand _

theorem oneShotEnd_same {E : Engine → Engine → Prop} {r r' : Res} (h : SameRes (Agree E) r r') :
    Option.Rel SameOutside (oneShotEnd r) (oneShotEnd r') := by
  cases h with
  | @ok s u h =>
    obtain ⟨ok, t, v, hs, hu, h'⟩ := h.1.sinkReq (.close .oneshot)
    simp only [oneShotEnd, hs, hu]
    cases ok with
    | true => exact .some h'.completeCommand
    | false => exact .some (deleteAndFail_same h')
  | @raised s u h =>
    obtain ⟨_, t, v, hs, hu, h'⟩ := (h.setEng s.eng.stop u.eng.stop).sinkReq (.close .oneshot)
    simp only [oneShotEnd, abandonEngine, hs, hu]
    exact .some (deleteAndFail_same h')
  | endless => exact .none

theorem oneShot_same (c : Config) (len : BitVec 24) (hnpix : 0 < c.npix) (h : AgreeCanonical s u) :
    Option.Rel SameOutside (oneShot c len s) (oneShot c len u) := by
  obtain ⟨ho, hwf⟩ := h
  obtain ⟨ok, env, hs, hu⟩ := sinkReq_of_env_eq ho.env (.openSink .oneshot s.path)
  rw [oneShot, oneShot, ← ho.path, hs, hu]
  split
  · cases ok with
    | true => exact oneShotEnd_same (writeDocument_agree c hnpix ⟨ho.setEnv env, hwf⟩)
    | false => exact .some ((ho.setEnv env).failCommand _)
  · exact .some (ho.failCommand _)

theorem execOneshot_same (len : BitVec 24) (h : AgreeCanonical s u) :
    SameOutcome (execOneshot len s) (execOneshot len u) := by
  have hshared : sharesWorkPath s = sharesWorkPath u := by rw [sharesWorkPath, sharesWorkPath, h.1.fmt, h.1.path]
  rw [execOneshot, execOneshot, ← hshared]
  split
  · exact .refused _
  · exact frameOutcome_same h.1 (oneShot_same _ len (by decide) h)

/-- Every command ends alike in the two states. -/
theorem exec_command_same (len : BitVec 24) (h : AgreeCanonical s u) :
    ∀ i ∈ [Instr.start len, .addframe len, .finish len, .oneshot len], SameOutcome (exec i s) (exec i u) := by
  simp only [List.forall_mem_cons]
  exact ⟨settle_same h.1 (startSession_same h.1), frameOutcome_same h.1 (addFrame_same _ len (by decide) h),
    settle_same h.1 (finishSession_same h.1), execOneshot_same len h, nofun⟩

end

/-- Settles O37: the commands read of the engine only what LZW_BEGIN has written, so they end alike. -/
theorem engineStateDoesNotLeak : Obligations.EngineStateDoesNotLeak := by
  intro s u len ⟨hht, hpkt, _⟩ ⟨hht', hpkt', _⟩ hfmt hpath hfb henv i hi
  have hsame := exec_command_same len ⟨⟨hfmt, hpath, hfb, henv⟩, ⟨hht, hpkt⟩, hht', hpkt'⟩ i hi
  refine ⟨fun t ht => ?_, fun f => hsame.fault_of_fault, fun r => hsame.refused_of_refused⟩
  obtain ⟨v, hv, h⟩ := hsame.next_of_next ht
  exact ⟨v, hv, h.fmt, h.path, h.fb, h.env⟩

end Sys2Proof.Machine

/-! ### The memories stay canonical and within their sizes -/

namespace Sys2Proof.Machine

/-- A canonical memory whose listed indexes are below `n`. -/
def Memory.Fits {α : Type} [DecidableEq α] (unlisted : α) (n : Nat) (m : Memory α) : Prop :=
  Memory.wf unlisted m = true ∧ ∀ cell ∈ m, cell.1 < n

section
variable {α : Type} [DecidableEq α] {unlisted : α} {n : Nat} {m : Memory α}

theorem Memory.Fits.write (h : Memory.Fits unlisted n m) {i : Nat} (hi : i < n) (v : α) :
    Memory.Fits unlisted n (Memory.write unlisted m i v) := by
  refine ⟨Memory.wf_write h.1 i v, fun cell hcell => ?_⟩
  rcases Memory.mem_write hcell with rfl | hold
  · exact hi
  · exact h.2 cell hold

theorem Memory.Fits.mapAll (h : Memory.Fits unlisted n m) (f : α → α) :
    Memory.Fits unlisted n (Memory.mapAll unlisted f m) := by
  refine ⟨Memory.wf_mapAll f h.1, fun cell hcell => ?_⟩
  obtain ⟨v, hv, -⟩ := Memory.mem_mapAll hcell
  exact h.2 (cell.1, v) hv

theorem Memory.Fits.foldl_write (h : Memory.Fits unlisted n m) {writes : List (Nat × α)}
    (hw : ∀ cell ∈ writes, cell.1 < n) :
    Memory.Fits unlisted n (writes.foldl (fun m cell => Memory.write unlisted m cell.1 cell.2) m) := by
  induction writes generalizing m with
  | nil => exact h
  | cons cell rest ih =>
    obtain ⟨hcell, hrest⟩ := List.forall_mem_cons.mp hw
    exact ih (h.write hcell _) hrest

end

/-- The engine's memories: `HSIZE` slots (10_state.md R37), `PKT_MAX` bytes (R24). -/
structure Engine.MemoriesFit (e : Engine) : Prop where
  ht : Memory.Fits unlistedSlot Config.hw.hsize e.ht
  pkt : Memory.Fits unlistedByte Config.hw.pktMax e.pkt

/-- The host's memory, `NPIX` words (10_state.md R36), and its writes in flight. -/
structure FrameBufferFits (s : State) : Prop where
  fb : Memory.Fits unlistedPixel Config.hw.npix s.fb
  racing : ∀ cell ∈ s.env.racing, cell.1 < Config.hw.npix

theorem memoriesCanonical_iff (s : State) : MemoriesCanonical s ↔ s.eng.MemoriesFit ∧ FrameBufferFits s := by
  constructor
  · rintro ⟨hht, hpkt, hfb, hht', hpkt', hfb', hracing⟩
    exact ⟨⟨⟨hht, hht'⟩, hpkt, hpkt'⟩, ⟨hfb, hfb'⟩, hracing⟩
  · rintro ⟨⟨⟨hht, hht'⟩, hpkt, hpkt'⟩, ⟨hfb, hfb'⟩, hracing⟩
    exact ⟨hht, hpkt, hfb, hht', hpkt', hfb', hracing⟩

theorem FrameBufferFits.landRaces {s : State} (h : FrameBufferFits s) : FrameBufferFits (landRaces s) :=
  ⟨h.fb.foldl_write h.racing, nofun⟩

/-- Between two bytes the packet has room for one more, so that `push_byte` stores within `PKT_MAX`. -/
structure Engine.FitsOpen (e : Engine) : Prop extends e.MemoriesFit where
  room : e.pktCnt.toNat < Config.hw.pktMax

/-- The operation completes with room in the packet; where it raises, the packet may be full. -/
def Res.Fits : Res → Prop
  | .ok s => s.eng.FitsOpen
  | .raised s => s.eng.MemoriesFit
  | .endless => True

theorem Res.Fits.bind {r : Res} {f : State → Res} (hr : r.Fits) (hf : ∀ t, t.eng.FitsOpen → (f t).Fits) :
    (r.bind f).Fits := by
  cases r with
  | ok t => exact hf t hr
  | raised t => exact hr
  | endless => trivial

theorem Res.Fits.all {r : Res} (hr : r.Fits) : r.All fun t => t.eng.MemoriesFit := by
  cases r with
  | ok t => exact hr.toMemoriesFit
  | raised t => exact hr
  | endless => trivial

/-- `Out` leaves the engine as it is, whatever it answers. -/
theorem out_bind_fits {port : Port} {bytes : List Byte} {s : State} {f : State → Res} (h : s.eng.MemoriesFit)
    (hf : ∀ env, (f (s.setEnv env)).Fits) : ((out port bytes s).bind f).Fits := by
  obtain ⟨env, ⟨hs, -⟩ | ⟨hs, -⟩⟩ := out_of_env_eq (rfl : s.env = s.env) port bytes
  · rw [hs]
    exact hf env
  · rw [hs]
    exact h

/-! #### The dictionary search stays below `HSIZE` -/

theorem nextProbe_lt {c : Config} {disp i : Nat} (hi : i < c.hsize) : nextProbe c disp i < c.hsize := by
  unfold nextProbe
  split <;> omega

theorem probeFrom_lt {c : Config} {e : Engine} {fcode : BitVec 20} {disp fuel i k : Nat} {hit : Bool}
    (hi : i < c.hsize) (h : probeFrom c e fcode disp fuel i = some (hit, k)) : k < c.hsize := by
  induction fuel generalizing i with
  | zero => cases h
  | succ fuel ih =>
    rw [probeFrom] at h
    split at h
    · cases h
      exact hi
    · split at h
      · cases h
        exact hi
      · exact ih (nextProbe_lt hi) h

/-- The first index of any key, `(c << 4) ^ ent` with 8 and 12 bits, is below 4096 (30_encoding.md R107). -/
theorem hashIndex_lt {sym ent : Nat} (hs : sym < 256) (he : ent < 4096) :
    hashIndex Config.hw sym ent < Config.hw.hsize := by
  have hshift : sym <<< 4 < 2 ^ 12 := by
    rw [Nat.shiftLeft_eq]
    omega
  have hxor : sym <<< 4 ^^^ ent < 2 ^ 12 := Nat.xor_lt_two_pow hshift he
  exact hxor.trans (by decide)

theorem lookup_lt {e : Engine} {sym ent k : Nat} {hit : Bool} (hs : sym < 256) (he : ent < 4096)
    (h : lookup Config.hw e sym ent = some (hit, k)) : k < Config.hw.hsize :=
  probeFrom_lt (hashIndex_lt hs he) h

/-! #### The engine -/

theorem empty_packet_room : (0#8).toNat < Config.hw.pktMax := by decide

namespace Engine.FitsOpen

variable {e : Engine}

theorem setEnt (h : e.FitsOpen) (v : Nat) : (e.setEnt v).FitsOpen := ⟨⟨h.ht, h.pkt⟩, h.room⟩

theorem insert (h : e.FitsOpen) {i : Nat} (hi : i < Config.hw.hsize) (fcode : BitVec 20) : (e.insert i fcode).FitsOpen :=
  ⟨⟨h.ht.write hi _, h.pkt⟩, h.room⟩

theorem restart (h : e.FitsOpen) (c : Config) : (e.restart c).FitsOpen := ⟨⟨h.ht.mapAll _, h.pkt⟩, h.room⟩

theorem storePkt (h : e.FitsOpen) (b : Byte) : (e.storePkt b).MemoriesFit := ⟨h.ht, h.pkt.write h.room b⟩

end Engine.FitsOpen

theorem Engine.MemoriesFit.begin {e : Engine} (h : e.MemoriesFit) (c : Config) : (e.begin c).FitsOpen :=
  ⟨⟨h.ht.mapAll _, h.pkt⟩, empty_packet_room⟩

section
variable (port : Port) {s : State}

theorem flushPacket_fits (h : s.eng.MemoriesFit) : (flushPacket port s).Fits := by
  unfold flushPacket
  split
  · next hzero => exact ⟨h, hzero ▸ empty_packet_room⟩
  · exact out_bind_fits h fun _ => ⟨⟨h.ht, h.pkt⟩, empty_packet_room⟩

theorem flushIfFull_fits (h : s.eng.MemoriesFit) : (flushIfFull Config.hw port s).Fits := by
  unfold flushIfFull
  split
  · exact flushPacket_fits port h
  · next hroom => exact ⟨h, Nat.lt_of_not_le hroom⟩

theorem pushByte_fits (b : Byte) (h : s.eng.FitsOpen) : (pushByte Config.hw port b s).Fits :=
  flushIfFull_fits port (h.storePkt b)

theorem peelBytes_fits (n : Nat) (h : s.eng.FitsOpen) : (peelBytes Config.hw port n s).Fits := by
  induction n generalizing s with
  | zero => exact h
  | succ n ih => exact (pushByte_fits port _ h).bind fun t ht => ih ⟨⟨ht.ht, ht.pkt⟩, ht.room⟩

theorem emit_fits (v : Nat) (h : s.eng.FitsOpen) : (emit Config.hw port v s).Fits :=
  (peelBytes_fits port _ (s := s.setEng (s.eng.pack v)) ⟨⟨h.ht, h.pkt⟩, h.room⟩).bind
    fun _ ht => ⟨⟨ht.ht, ht.pkt⟩, ht.room⟩

theorem lzwBegin_fits (h : s.eng.MemoriesFit) : (lzwBegin Config.hw port s).Fits :=
  out_bind_fits h fun _ => emit_fits port _ (h.begin _)

theorem lzwMiss_fits {sym i : Nat} (hi : i < Config.hw.hsize) (h : s.eng.FitsOpen) :
    (lzwMiss Config.hw port sym i s).Fits := by
  refine (emit_fits port _ h).bind fun t ht => ?_
  split
  · exact (ht.setEnt sym).insert hi _
  · exact (emit_fits port _ (s := t.setEng (t.eng.setEnt sym)) (ht.setEnt sym)).bind fun u hu => hu.restart _

theorem lzwSymbol_fits {sym : Nat} (hs : sym < 256) (h : s.eng.FitsOpen) : (lzwSymbol Config.hw port sym s).Fits := by
  unfold lzwSymbol
  split
  · split
    · trivial
    · exact h.setEnt _
    · next hmiss => exact lzwMiss_fits port (lookup_lt hs s.eng.ent.isLt hmiss) h
  · exact ⟨⟨h.ht, h.pkt⟩, h.room⟩

theorem flushBits_fits (h : s.eng.FitsOpen) : (flushBits Config.hw port s).Fits := by
  unfold flushBits
  split
  · exact h
  · exact (pushByte_fits port _ h).bind fun t ht => ⟨⟨ht.ht, ht.pkt⟩, ht.room⟩

theorem lzwEnd_fits (h : s.eng.FitsOpen) : (lzwEnd Config.hw port s).Fits :=
  (emit_fits port _ h).bind fun _ h1 => (emit_fits port _ h1).bind fun _ h2 => (flushBits_fits port h2).bind fun _ h3 =>
    (flushPacket_fits port h3.toMemoriesFit).bind fun _ h4 => ⟨⟨h4.ht, h4.pkt⟩, h4.room⟩

theorem readPixel_eng (i : Nat) (s : State) : (readPixel i s).2.eng = s.eng := by
  rcases readPixel_state i s with h | h
  · rw [h]
  · rw [h, setEnv_eng]

theorem frameLoop_fits (n : Nat) (h : s.eng.FitsOpen) : (frameLoop Config.hw port n s).Fits := by
  induction n generalizing s with
  | zero => exact h
  | succ n ih =>
    refine (lzwSymbol_fits port ?_ ?_).bind fun t ht => ih ht
    · exact (Bool.toNat_lt _).trans (by decide)
    · rw [readPixel_eng]
      exact h

theorem encodeFrame_fits (ctx : Ctx) (h : s.eng.MemoriesFit) : (encodeFrame Config.hw ctx s).Fits := by
  refine (lzwBegin_fits _ h).bind fun t1 h1 =>
    (frameLoop_fits _ _ (s := t1.setPixIdx 0#24) h1).bind fun t2 h2 => (lzwEnd_fits _ h2).bind fun t3 h3 => ?_
  obtain ⟨env, ⟨hs, -⟩ | ⟨hs, -⟩⟩ := out_of_env_eq (rfl : t3.env = t3.env) (.sink ctx) [terminatorByte]
  · rw [hs]
    exact h3
  · rw [hs]
    exact h3.toMemoriesFit

end

end Sys2Proof.Machine

/-! ### All that an instruction can do where it answers a next state -/

namespace Sys2Proof.Machine

/-- From `s` to `t` only sink requests were issued, each with the host's answer. -/
def Requested (s t : State) : Prop := ∃ tr, s.env.gives tr ∧ t = s.setEnv (s.env.after tr)

theorem Requested.refl (s : State) : Requested s s := ⟨[], Env.gives_nil _, by rw [Env.after_nil, setEnv_self]⟩

theorem Requested.trans {s t u : State} (h : Requested s t) (h' : Requested t u) : Requested s u := by
  obtain ⟨tr, hg, rfl⟩ := h
  obtain ⟨tr', hg', rfl⟩ := h'
  exact ⟨tr ++ tr', (Env.gives_append _ _ _).mpr ⟨hg, hg'⟩, by
    rw [setEnv_env, setEnv_setEnv, Env.after_after]⟩

theorem requested_of_sinkReq {r : Request} {s t : State} {ok : Bool} (h : sinkReq r s = (ok, t)) : Requested s t := by
  rw [sinkReq_eq] at h
  cases h
  exact ⟨_, (Env.gives_cons _ _ _).mpr ⟨rfl, Env.gives_nil _⟩, rfl⟩

theorem requested_of_writeAll {ctx : Ctx} {bytes : List Byte} {s t : State} {ok : Bool}
    (h : writeAll ctx bytes s = (ok, t)) : Requested s t := by
  rcases writeAll_cases ctx bytes s with ⟨hg, hw⟩ | ⟨k, -, hg, hw⟩
  · rw [hw] at h
    cases h
    exact ⟨_, hg, rfl⟩
  · rw [hw] at h
    cases h
    exact ⟨_, hg, rfl⟩

/-- From `s` to `t` only what ADDFRAME and ONESHOT write on their way changed: the header flag, `pix_idx`, the engine, the
host's answers, the log and the draws (41_gif_formatter.md R145, R165). -/
def CommandFrame (s t : State) : Prop :=
  ∃ firstPending pixIdx eng answers log fbDraws,
    t = { s with
      fmt := { s.fmt with firstPending := firstPending }
      pixIdx := pixIdx
      eng := eng
      env := { s.env with answers := answers, log := log, fbDraws := fbDraws } }

theorem CommandFrame.refl (s : State) : CommandFrame s s := ⟨_, _, _, _, _, _, rfl⟩

theorem CommandFrame.trans {s t u : State} (h : CommandFrame s t) (h' : CommandFrame t u) : CommandFrame s u := by
  obtain ⟨_, _, _, _, _, _, rfl⟩ := h
  obtain ⟨_, _, _, _, _, _, rfl⟩ := h'
  exact ⟨_, _, _, _, _, _, rfl⟩

theorem CommandFrame.bind {s : State} {r : Res} {f : State → Res} (hr : r.All (CommandFrame s))
    (hf : ∀ t, (f t).All (CommandFrame t)) : (r.bind f).All (CommandFrame s) :=
  hr.bind (fun _ h => h) fun t ht => (hf t).mono fun _ h => ht.trans h

/-- On a sink the engine's operations stay within the frame of the commands. -/
theorem EngineStep.commandFrame {ctx : Ctx} {s t : State} (h : EngineStep (.sink ctx) s t) : CommandFrame s t := by
  obtain ⟨e, tr, bytes, rfl, -, -, hbytes⟩ := h
  rw [hbytes ctx rfl, List.append_nil]
  exact ⟨_, _, _, _, _, _, rfl⟩

theorem readPixel_commandFrame (i : Nat) (s : State) : CommandFrame s (readPixel i s).2 := by
  rcases readPixel_state i s with h | h
  · rw [h]
    exact CommandFrame.refl s
  · rw [h]
    exact ⟨_, _, _, _, _, _, rfl⟩

theorem frameLoop_commandFrame (c : Config) (ctx : Ctx) (n : Nat) (s : State) :
    (frameLoop c (.sink ctx) n s).All (CommandFrame s) := by
  induction n generalizing s with
  | zero => exact CommandFrame.refl s
  | succ n ih =>
    refine CommandFrame.bind ((lzwSymbol_step c _ _ _).mono fun _ h => ?_) fun t => (ih _).mono fun _ h => ?_
    · exact (readPixel_commandFrame _ s).trans h.commandFrame
    · exact CommandFrame.trans ⟨_, _, _, _, _, _, rfl⟩ h

theorem encodeFrame_commandFrame (c : Config) (ctx : Ctx) (s : State) :
    (encodeFrame c ctx s).All (CommandFrame s) :=
  CommandFrame.bind ((lzwBegin_step c _ s).mono fun _ h => h.commandFrame) fun _ =>
    CommandFrame.bind ((frameLoop_commandFrame c ctx _ _).mono fun _ h => CommandFrame.trans ⟨_, _, _, _, _, _, rfl⟩ h)
      fun t2 => CommandFrame.bind ((lzwEnd_step c _ t2).mono fun _ h => h.commandFrame) fun t3 =>
        (out_step _ _ t3).mono fun _ h => h.commandFrame

/-- A part of ADDFRAME or ONESHOT: it keeps within their frame, and the engine's memories within their sizes. -/
structure FrameStep (s t : State) : Prop where
  frame : CommandFrame s t
  fits : s.eng.MemoriesFit → t.eng.MemoriesFit

theorem FrameStep.refl (s : State) : FrameStep s s := ⟨CommandFrame.refl s, id⟩

theorem FrameStep.trans {s t u : State} (h : FrameStep s t) (h' : FrameStep t u) : FrameStep s u :=
  ⟨h.frame.trans h'.frame, fun hs => h'.fits (h.fits hs)⟩

theorem FrameStep.bind {s : State} {r : Res} {f : State → Res} (hr : r.All (FrameStep s))
    (hf : ∀ t, (f t).All (FrameStep t)) : (r.bind f).All (FrameStep s) :=
  hr.bind (fun _ h => h) fun t ht => (hf t).mono fun _ h => ht.trans h

theorem Requested.frameStep {s t : State} (h : Requested s t) : FrameStep s t := by
  obtain ⟨tr, -, rfl⟩ := h
  exact ⟨⟨_, _, _, _, _, _, rfl⟩, id⟩

theorem out_frameStep (ctx : Ctx) (bytes : List Byte) (s : State) : (out (.sink ctx) bytes s).All (FrameStep s) := by
  rcases out_sink_cases ctx bytes s with ⟨hg, h⟩ | ⟨k, -, hg, h⟩
  · rw [h]
    exact Requested.frameStep ⟨_, hg, rfl⟩
  · rw [h]
    exact Requested.frameStep ⟨_, hg, rfl⟩

theorem encodeFrame_frameStep (ctx : Ctx) (s : State) : (encodeFrame Config.hw ctx s).All (FrameStep s) := by
  have hframe := encodeFrame_commandFrame Config.hw ctx s
  have hfits : s.eng.MemoriesFit → _ := fun h => (encodeFrame_fits ctx h).all
  cases hr : encodeFrame Config.hw ctx s with
  | ok t =>
    rw [hr] at hframe hfits
    exact ⟨hframe, hfits⟩
  | raised t =>
    rw [hr] at hframe hfits
    exact ⟨hframe, hfits⟩
  | endless => trivial

theorem writeHeader_frameStep (c : Config) (s : State) : (writeHeader c s).All (FrameStep s) := by
  unfold writeHeader
  split
  · exact FrameStep.bind (out_frameStep _ _ s) fun t1 => FrameStep.bind (out_frameStep _ _ t1) fun t2 =>
      ⟨⟨_, _, _, _, _, _, rfl⟩, id⟩
  · exact FrameStep.refl s

theorem writeFrame_frameStep (s : State) : (writeFrame Config.hw s).All (FrameStep s) :=
  FrameStep.bind (writeHeader_frameStep _ s) fun t1 => FrameStep.bind (out_frameStep _ _ t1) fun t2 =>
    FrameStep.bind (out_frameStep _ _ t2) fun t3 => encodeFrame_frameStep _ t3

theorem writeDocument_frameStep (s : State) : (writeDocument Config.hw s).All (FrameStep s) :=
  FrameStep.bind (out_frameStep _ _ s) fun t1 => FrameStep.bind (out_frameStep _ _ t1) fun t2 =>
    FrameStep.bind (out_frameStep _ _ t2) fun t3 => FrameStep.bind (out_frameStep _ _ t3) fun t4 =>
      FrameStep.bind (encodeFrame_frameStep _ t4) fun t5 => out_frameStep _ _ t5

theorem abandonEngine_frameStep (s : State) : FrameStep s (abandonEngine s) :=
  ⟨⟨_, _, _, _, _, _, rfl⟩, fun h => ⟨h.ht, h.pkt⟩⟩

/-- A command is over: from `s` it sets `RESULT` and the ghost cause, to 1 and none or to 0 and a cause
(60_exceptions.md R241). -/
inductive Ended (s : State) : State → Prop
  | completed : Ended s (completeCommand s)
  | failed {cause : Cause} (h : cause ≠ .none) : Ended s (failCommand cause s)

theorem Ended.result_iff {s t : State} (h : Ended s t) : t.fmt.result = true ↔ t.fmt.lastCause = .none := by
  cases h with
  | completed => simp
  | failed hcause => simp [hcause]

/-- An ended command differs from where it ended in the formatter's `RESULT` and cause only. -/
theorem Ended.eq_setFmt {s t : State} (h : Ended s t) : ∃ result cause, t = s.setFmt (s.fmt.returned result cause) := by
  cases h with
  | completed => exact ⟨_, _, rfl⟩
  | failed => exact ⟨_, _, rfl⟩

/-! #### The commands -/

/-- START fails with the session as it was, or opens one at `PATH` (41_gif_formatter.md R141, R142). -/
theorem startSession_cases (s : State) :
    (∃ t cause, Requested s t ∧ cause ≠ .none ∧ startSession s = failCommand cause t) ∨
      s.fmt.sess = .idle ∧ ∃ t, Requested s t ∧ startSession s = completeCommand (t.setFmt (t.fmt.openSession t.path)) := by
  unfold startSession
  cases s.fmt.sess with
  | started => exact .inl ⟨s, .alreadyStarted, Requested.refl s, nofun, rfl⟩
  | idle =>
    rcases hopen : sinkReq (.openSink .session s.path) s with ⟨_ | _, t⟩
    · exact .inl ⟨t, .ioFailure, requested_of_sinkReq hopen, nofun, rfl⟩
    · rcases hsig : writeAll .session sigBytes t with ⟨_ | _, u⟩
      · rcases hclose : sinkReq (.close .session) u with ⟨_, v⟩
        refine .inl ⟨v, .ioFailure, ?_, nofun, by simp only [startOpened, hsig, hclose]⟩
        exact (requested_of_sinkReq hopen).trans ((requested_of_writeAll hsig).trans (requested_of_sinkReq hclose))
      · exact .inr ⟨rfl, u, (requested_of_sinkReq hopen).trans (requested_of_writeAll hsig), by
          simp only [startOpened, hsig]⟩

theorem requested_of_finishClose {ok okAll : Bool} {s t : State} (h : finishClose ok s = (okAll, t)) :
    Requested s t := by
  rcases hclose : sinkReq (.close .session) s with ⟨okClose, u⟩
  simp only [finishClose, hclose] at h
  split at h
  · exact (requested_of_sinkReq hclose).trans (requested_of_sinkReq h)
  · cases h
    exact requested_of_sinkReq hclose

theorem finishEnd_cases (ok : Bool) (s : State) :
    ∃ t, Requested s t ∧ Ended (t.setFmt t.fmt.closeSession) (finishEnd ok s) := by
  cases ok with
  | true => exact ⟨s, Requested.refl s, .completed⟩
  | false =>
    rcases hdelete : sinkReq (.delete s.fmt.workPath) s with ⟨_, t⟩
    refine ⟨t, requested_of_sinkReq hdelete, ?_⟩
    simp only [finishEnd, hdelete]
    exact .failed nofun

/-- FINISH in `Idle` fails; in `Started` it ends the session, whatever the answers (41_gif_formatter.md R160, R161). -/
theorem finishSession_cases (s : State) :
    (s.fmt.sess = .idle ∧ finishSession s = failCommand .notStarted s) ∨
      s.fmt.sess = .started ∧ ∃ t, Requested s t ∧ Ended (t.setFmt t.fmt.closeSession) (finishSession s) := by
  unfold finishSession
  cases s.fmt.sess with
  | idle => exact .inl ⟨rfl, rfl⟩
  | started =>
    rcases hwrite : sinkReq (.write .session trailerByte) s with ⟨ok, t⟩
    rcases hclose : finishClose ok t with ⟨okAll, u⟩
    obtain ⟨v, hv, hend⟩ := finishEnd_cases okAll u
    refine .inr ⟨rfl, v, ?_, by simpa only [hclose] using hend⟩
    exact (requested_of_sinkReq hwrite).trans ((requested_of_finishClose hclose).trans hv)

/-- Where ADDFRAME ends, before the host's writes in flight land (41_gif_formatter.md R145 to R148). -/
theorem addFrame_cases {len : BitVec 24} {s t : State} (h : addFrame Config.hw len s = some t) :
    ∃ u, FrameStep s u ∧ Ended u t := by
  unfold addFrame at h
  split at h
  · cases h
    exact ⟨s, FrameStep.refl s, .failed nofun⟩
  · split at h
    · have hframe := writeFrame_frameStep s
      cases hw : writeFrame Config.hw s with
      | ok u =>
        rw [hw] at h hframe
        cases h
        exact ⟨u, hframe, .completed⟩
      | raised u =>
        rw [hw] at h hframe
        cases h
        exact ⟨_, hframe.trans (abandonEngine_frameStep u), .failed nofun⟩
      | endless =>
        rw [hw] at h
        cases h
    · cases h
      exact ⟨s, FrameStep.refl s, .failed nofun⟩

/-- ONESHOT's last request, DELETE, after a failure. -/
theorem delete_frameStep (s : State) : FrameStep s (sinkReq (.delete s.path) s).2 :=
  (requested_of_sinkReq rfl).frameStep

/-- Where ONESHOT ends after its document (41_gif_formatter.md R165, R166). -/
theorem oneShotEnd_cases {r : Res} {s t : State} (hr : r.All (FrameStep s)) (h : oneShotEnd r = some t) :
    ∃ u, FrameStep s u ∧ Ended u t := by
  cases r with
  | ok u =>
    rcases hclose : sinkReq (.close .oneshot) u with ⟨ok, v⟩
    have hv : FrameStep s v := FrameStep.trans hr (requested_of_sinkReq hclose).frameStep
    simp only [oneShotEnd, hclose] at h
    cases ok with
    | true =>
      cases h
      exact ⟨v, hv, .completed⟩
    | false =>
      cases h
      exact ⟨_, hv.trans (delete_frameStep v), .failed nofun⟩
  | raised u =>
    cases h
    have hu : FrameStep s (abandonEngine u) := FrameStep.trans hr (abandonEngine_frameStep u)
    exact ⟨_, (hu.trans (requested_of_sinkReq rfl).frameStep).trans (delete_frameStep _), .failed nofun⟩
  | endless => cases h

theorem oneShot_cases {len : BitVec 24} {s t : State} (h : oneShot Config.hw len s = some t) :
    ∃ u, FrameStep s u ∧ Ended u t := by
  unfold oneShot at h
  split at h
  · rcases hopen : sinkReq (.openSink .oneshot s.path) s with ⟨ok, u⟩
    have hu : FrameStep s u := (requested_of_sinkReq hopen).frameStep
    simp only [hopen] at h
    cases ok with
    | true =>
      exact oneShotEnd_cases ((writeDocument_frameStep u).mono fun _ hv => hu.trans hv) h
    | false =>
      cases h
      exact ⟨u, hu, .failed nofun⟩
  · cases h
    exact ⟨s, FrameStep.refl s, .failed nofun⟩

/-! #### Every instruction -/

/-- All that an instruction can do in `s` where it answers the next state `t`. -/
inductive Ran (s : State) : Instr → State → Prop
  | startFails {len t cause} (h : Requested s t) (hcause : cause ≠ Cause.none) : Ran s (.start len) (failCommand cause t)
  | startOpens {len t} (hidle : s.fmt.sess = .idle) (h : Requested s t) :
    Ran s (.start len) (completeCommand (t.setFmt (t.fmt.openSession t.path)))
  | finishFails {len} (hidle : s.fmt.sess = .idle) : Ran s (.finish len) (failCommand .notStarted s)
  | finishEnds {len t u} (hstarted : s.fmt.sess = .started) (h : Requested s t)
    (hend : Ended (t.setFmt t.fmt.closeSession) u) : Ran s (.finish len) u
  | addframe {len t u} (h : FrameStep s t) (hend : Ended t u) : Ran s (.addframe len) (landRaces u)
  | oneshot {len t u} (h : FrameStep s t) (hend : Ended t u) : Ran s (.oneshot len) (landRaces u)
  | lzwBegin {t} (h : EngineStep .list s t) : Ran s .lzwBegin t
  | lzwSymbol {sym t} (h : EngineStep .list s t) : Ran s (.lzwSymbol sym) t
  | lzwEnd {t} (h : EngineStep .list s t) : Ran s .lzwEnd t
  | quant {pixel} : Ran s (.quant pixel) (s.setEnv { s.env with quantOut := quantize Config.hw pixel })

/-- What holds of whatever state an engine operation ends in holds of the next state it answers. -/
theorem all_of_engineOutcome {P : State → Prop} {r : Res} {t : State} (hr : r.All P) (h : engineOutcome r = .next t) :
    P t := by
  cases r with
  | ok u =>
    cases h
    exact hr
  | raised u =>
    cases h
    exact hr
  | endless => cases h

/-- LZW_SYMBOL, where it answers a next state, runs an active engine (42_lzw_engine.md R184). -/
theorem execLzwSymbol_next {sym : BitVec 8} {s t : State} (h : execLzwSymbol sym s = .next t) :
    s.eng.lzwActive = true ∧ engineOutcome (lzwSymbol Config.hw .list sym.toNat s) = .next t := by
  unfold execLzwSymbol at h
  split at h
  · cases h
  · next hactive =>
    split at h
    · cases h
    · exact ⟨by simpa using hactive, h⟩

/-- LZW_END, where it answers a next state, runs an active engine (42_lzw_engine.md R198, R199). -/
theorem execLzwEnd_next {s t : State} (h : execLzwEnd s = .next t) :
    s.eng.lzwActive = true ∧ engineOutcome (lzwEnd Config.hw .list s) = .next t := by
  unfold execLzwEnd at h
  split at h
  · cases h
  · next hactive =>
    split at h
    · cases h
    · exact ⟨by simpa using hactive, h⟩

theorem exec_ran {i : Instr} {s t : State} (h : exec i s = .next t) : Ran s i t := by
  cases i with
  | start len =>
    obtain rfl := settle_eq_next h
    obtain ⟨u, cause, hu, hcause, heq⟩ | ⟨hidle, u, hu, heq⟩ := startSession_cases s
    · rw [heq]
      exact .startFails hu hcause
    · rw [heq]
      exact .startOpens hidle hu
  | addframe len =>
    obtain ⟨u, hu, rfl⟩ := frameOutcome_eq_next h
    obtain ⟨v, hv, hend⟩ := addFrame_cases hu
    exact .addframe hv hend
  | finish len =>
    obtain rfl := settle_eq_next h
    obtain ⟨hidle, heq⟩ | ⟨hstarted, u, hu, hend⟩ := finishSession_cases s
    · rw [heq]
      exact .finishFails hidle
    · exact .finishEnds hstarted hu hend
  | oneshot len =>
    have hrun : execOneshot len s = .next t := h
    unfold execOneshot at hrun
    split at hrun
    · cases hrun
    · obtain ⟨u, hu, rfl⟩ := frameOutcome_eq_next hrun
      obtain ⟨v, hv, hend⟩ := oneShot_cases hu
      exact .oneshot hv hend
  | lzwBegin => exact .lzwBegin (all_of_engineOutcome (lzwBegin_step _ _ s) h)
  | lzwSymbol sym => exact .lzwSymbol (all_of_engineOutcome (lzwSymbol_step _ _ _ s) (execLzwSymbol_next h).2)
  | lzwEnd => exact .lzwEnd (all_of_engineOutcome (lzwEnd_step _ _ s) (execLzwEnd_next h).2)
  | quant pixel =>
    cases h
    exact .quant

end Sys2Proof.Machine

/-! ### All that a step can do where it answers a next state -/

namespace Sys2Proof.Machine

/-- The outcome of a step that fetched this. -/
def Fetched.outcome : Fetched → Host.Outcome State Fault Refusal
  | .run i t => exec i t
  | .done o => o

theorem step_eq_outcome (s : State) : step s = (fetch s).outcome := by
  unfold step
  cases fetch s <;> rfl

theorem step_of_inbox_nil {s : State} (h : s.env.inbox = []) : step s = .next s := by
  simp only [step, fetch, h]

theorem step_of_inbox_cons {s : State} {m : HostMove} {rest : List HostMove} (h : s.env.inbox = m :: rest) :
    step s = (hostMove m (s.setInbox rest)).outcome := by
  rw [step_eq_outcome, fetch_of_inbox_cons h]

/-- What one host move does to the state that holds the moves after it (log 1). `outside` is a register read, a TICK or a
change of the controller. -/
inductive MoveEffect (s : State) : HostMove → State → Prop
  | runs {word i t} (hdecode : decode word = .ok i) (hexec : exec i s = .next t) : MoveEffect s (moveOf word) t
  | illegal {w reason} (hdecode : decode (.cmd w) = .error reason) : MoveEffect s (.writeReg 0 w) (illegalCommand s)
  | path {value} : MoveEffect s (.writeReg 1 value) (s.setPath value)
  | status {value} : MoveEffect s (.writeReg 2 value) s
  | outside {m env} (hm : (∃ reg, m = .readReg reg) ∨ m = .tick ∨ m = .clearSingle ∨ ∃ c, m = .setController c)
    (hracing : env.racing = s.env.racing) : MoveEffect s m (s.setEnv env)
  | writeFb {index pixel} (hindex : index < Config.hw.npix) :
    MoveEffect s (.writeFb index pixel) (s.setFb (Memory.write unlistedPixel s.fb index pixel))
  | raceFb {index pixel} (hindex : index < Config.hw.npix) :
    MoveEffect s (.raceFb index pixel) (s.setEnv { s.env with racing := s.env.racing ++ [(index, pixel)] })
  | reset : MoveEffect s .reset (resetBlock s)

theorem writeRegister_effect {reg : Nat} {value : Word} {s t : State}
    (h : (writeRegister reg value s).outcome = .next t) : MoveEffect s (.writeReg reg value) t := by
  match reg with
  | 0 =>
    cases hdecode : decode (.cmd value) with
    | ok i =>
      simp only [writeRegister, hdecode] at h
      exact .runs (word := .cmd value) hdecode h
    | error reason =>
      simp only [writeRegister, hdecode] at h
      cases h
      exact .illegal hdecode
  | 1 =>
    cases h
    exact .path
  | 2 =>
    cases h
    exact .status
  | n + 3 => cases h

theorem driveEngine_effect {w : EopWord} {s t : State} (h : (driveEngine w s).outcome = .next t) :
    MoveEffect s (.engineOp w) t := by
  cases hdecode : decode (.eop w) with
  | ok i =>
    simp only [driveEngine, hdecode] at h
    exact .runs (word := .eop w) hdecode h
  | error reason =>
    simp only [driveEngine, hdecode] at h
    cases h

theorem hostMove_effect {m : HostMove} {s t : State} (h : (hostMove m s).outcome = .next t) : MoveEffect s m t := by
  cases m with
  | writeReg reg value => exact writeRegister_effect h
  | readReg reg =>
    simp only [hostMove, readRegister, Fetched.outcome] at h
    split at h
    · cases h
      exact .outside (.inl ⟨reg, rfl⟩) rfl
    · cases h
  | writeFb index pixel =>
    simp only [hostMove, hostWriteFb, Fetched.outcome] at h
    split at h
    · cases h
      exact .writeFb ‹_›
    · cases h
  | raceFb index pixel =>
    simp only [hostMove, hostRaceFb, Fetched.outcome] at h
    split at h
    · cases h
      exact .raceFb ‹_›
    · cases h
  | engineOp w => exact driveEngine_effect h
  | tick =>
    cases h
    exact .outside (.inr (.inl rfl)) rfl
  | clearSingle =>
    cases h
    exact .outside (.inr (.inr (.inl rfl))) rfl
  | setController controller =>
    cases h
    exact .outside (.inr (.inr (.inr ⟨controller, rfl⟩))) rfl
  | reset =>
    cases h
    exact .reset

/-- A step is idle, or takes the host's next move. -/
theorem step_effect {s t : State} (h : step s = .next t) :
    (s.env.inbox = [] ∧ t = s) ∨ ∃ m rest, s.env.inbox = m :: rest ∧ MoveEffect (s.setInbox rest) m t := by
  cases hinbox : s.env.inbox with
  | nil =>
    rw [step_of_inbox_nil hinbox] at h
    exact .inl ⟨rfl, (Host.Outcome.next.inj h).symm⟩
  | cons m rest =>
    rw [step_of_inbox_cons hinbox] at h
    exact .inr ⟨m, rest, rfl, hostMove_effect h⟩

end Sys2Proof.Machine

/-! ### Every step keeps the memories canonical -/

namespace Sys2Proof.Machine

/-- The host's side of the block is as before: `PATH`, the frame buffer and the writes in flight. -/
def SameHostSide (s t : State) : Prop := t.path = s.path ∧ t.fb = s.fb ∧ t.env.racing = s.env.racing

theorem Requested.sameHostSide {s t : State} (h : Requested s t) : SameHostSide s t := by
  obtain ⟨tr, -, rfl⟩ := h
  exact ⟨rfl, rfl, rfl⟩

theorem CommandFrame.sameHostSide {s t : State} (h : CommandFrame s t) : SameHostSide s t := by
  obtain ⟨_, _, _, _, _, _, rfl⟩ := h
  exact ⟨rfl, rfl, rfl⟩

theorem EngineStep.sameHostSide {port : Port} {s t : State} (h : EngineStep port s t) : SameHostSide s t := by
  obtain ⟨e, tr, bytes, rfl, -⟩ := h
  exact ⟨rfl, rfl, rfl⟩

theorem Ended.sameHostSide {s t u : State} (hend : Ended t u) (h : SameHostSide s t) : SameHostSide s u := by
  obtain ⟨_, _, rfl⟩ := hend.eq_setFmt
  exact h

/-- An instruction leaves the host's side alone, but for the writes that land at the end of ADDFRAME and ONESHOT. -/
theorem exec_hostSide {i : Instr} {s t : State} (h : exec i s = .next t) :
    SameHostSide s t ∨ ∃ u, SameHostSide s u ∧ t = landRaces u := by
  cases exec_ran h with
  | startFails hu => exact .inl hu.sameHostSide
  | startOpens _ hu => exact .inl hu.sameHostSide
  | finishFails => exact .inl ⟨rfl, rfl, rfl⟩
  | finishEnds _ hu hend => exact .inl (hend.sameHostSide hu.sameHostSide)
  | addframe hu hend => exact .inr ⟨_, hend.sameHostSide hu.frame.sameHostSide, rfl⟩
  | oneshot hu hend => exact .inr ⟨_, hend.sameHostSide hu.frame.sameHostSide, rfl⟩
  | lzwBegin hstep => exact .inl hstep.sameHostSide
  | lzwSymbol hstep => exact .inl hstep.sameHostSide
  | lzwEnd hstep => exact .inl hstep.sameHostSide
  | quant => exact .inl ⟨rfl, rfl, rfl⟩

theorem FrameBufferFits.of_sameHostSide {s t : State} (hs : FrameBufferFits s) (h : SameHostSide s t) :
    FrameBufferFits t := by
  obtain ⟨-, hfb, hracing⟩ := h
  exact ⟨hfb ▸ hs.fb, hracing ▸ hs.racing⟩

theorem exec_frameBufferFits {i : Instr} {s t : State} (hs : FrameBufferFits s) (h : exec i s = .next t) :
    FrameBufferFits t := by
  obtain hside | ⟨u, hside, rfl⟩ := exec_hostSide h
  · exact hs.of_sameHostSide hside
  · exact (hs.of_sameHostSide hside).landRaces

/-- The engine's memories stay within their sizes; an engine operation needs room in the packet, if the engine is active. -/
theorem exec_memoriesFit {i : Instr} {s t : State} (hs : s.eng.MemoriesFit)
    (hroom : s.eng.lzwActive = true → s.eng.pktCnt.toNat < Config.hw.pktMax) (h : exec i s = .next t) :
    t.eng.MemoriesFit := by
  cases exec_ran h with
  | startFails hu =>
    obtain ⟨tr, -, rfl⟩ := hu
    exact hs
  | startOpens _ hu =>
    obtain ⟨tr, -, rfl⟩ := hu
    exact hs
  | finishFails => exact hs
  | finishEnds _ hu hend =>
    obtain ⟨tr, -, rfl⟩ := hu
    obtain ⟨_, _, rfl⟩ := hend.eq_setFmt
    exact hs
  | addframe hu hend =>
    obtain ⟨_, _, rfl⟩ := hend.eq_setFmt
    exact hu.fits hs
  | oneshot hu hend =>
    obtain ⟨_, _, rfl⟩ := hend.eq_setFmt
    exact hu.fits hs
  | lzwBegin => exact all_of_engineOutcome (lzwBegin_fits .list hs).all h
  | @lzwSymbol sym =>
    obtain ⟨hactive, hrun⟩ := execLzwSymbol_next h
    exact all_of_engineOutcome (lzwSymbol_fits .list sym.isLt ⟨hs, hroom hactive⟩).all hrun
  | lzwEnd =>
    obtain ⟨hactive, hrun⟩ := execLzwEnd_next h
    exact all_of_engineOutcome (lzwEnd_fits .list ⟨hs, hroom hactive⟩).all hrun
  | quant => exact hs

theorem reset_memoriesFit : State.reset.eng.MemoriesFit := ⟨⟨rfl, nofun⟩, rfl, nofun⟩

theorem reset_frameBufferFits : FrameBufferFits State.reset := ⟨⟨rfl, nofun⟩, nofun⟩

/-- Settles O39: the packet of an active engine has room, the search stays below `HSIZE`, and the host's writes are
below `NPIX`. -/
theorem stepKeepsMemoriesCanonical : Obligations.StepKeepsMemoriesCanonical := by
  intro s t hs hrange h
  obtain ⟨hfit, hfb⟩ := (memoriesCanonical_iff s).mp hs
  refine (memoriesCanonical_iff t).mpr ?_
  obtain ⟨-, rfl⟩ | ⟨m, rest, -, heffect⟩ := step_effect h
  · exact ⟨hfit, hfb⟩
  · have hfb' : FrameBufferFits (s.setInbox rest) := ⟨hfb.fb, hfb.racing⟩
    cases heffect with
    | runs _ hexec =>
      have hfit' : t.eng.MemoriesFit :=
        exec_memoriesFit (s := s.setInbox rest) hfit (fun hactive => (hrange hactive).packet_high) hexec
      exact ⟨hfit', exec_frameBufferFits hfb' hexec⟩
    | illegal => exact ⟨hfit, hfb'.fb, hfb'.racing⟩
    | path => exact ⟨hfit, hfb'.fb, hfb'.racing⟩
    | status => exact ⟨hfit, hfb'⟩
    | outside _ hracing => exact ⟨hfit, hfb'.fb, hracing ▸ hfb'.racing⟩
    | writeFb hindex => exact ⟨hfit, hfb'.fb.write hindex _, hfb'.racing⟩
    | raceFb hindex =>
      refine ⟨hfit, hfb'.fb, List.forall_mem_append.mpr ⟨hfb'.racing, ?_⟩⟩
      exact List.forall_mem_singleton.mpr hindex
    | reset => exact ⟨reset_memoriesFit, hfb'.fb, hfb'.racing⟩

end Sys2Proof.Machine

/-! ### The registers, the session and reset -/

namespace Sys2Proof.Machine

/-- A step whose host move is done at once ends in what the move answers. -/
theorem step_of_hostMove_done {s : State} {m : HostMove} {rest : List HostMove}
    {o : Host.Outcome State Fault Refusal} (h : s.env.inbox = m :: rest) (hm : hostMove m (s.setInbox rest) = .done o) :
    step s = o := by
  rw [step_of_inbox_cons h, hm, Fetched.outcome]

theorem exec_path {i : Instr} {s t : State} (h : exec i s = .next t) : t.path = s.path := by
  obtain ⟨hpath, -⟩ | ⟨u, ⟨hpath, -⟩, rfl⟩ := exec_hostSide h
  · exact hpath
  · exact hpath

/-- Settles O10: a read or write of register 0 or 1 is the whole step, and no instruction changes the host's side. -/
theorem pathAndCmdRegisters : Obligations.PathAndCmdRegisters :=
  ⟨fun _ _ h => step_of_hostMove_done h rfl, fun _ _ h => step_of_hostMove_done h rfl,
    fun _ _ _ h => step_of_hostMove_done h rfl, fun _ _ _ h => exec_path h⟩

theorem setWidth_ofBool (b : Bool) : (BitVec.ofBool b).setWidth 32 = if b then 1#32 else 0#32 := by
  cases b <;> rfl

/-- `STATUS` shows `RESULT` in bit 0 and 0 above it (10_state.md R35). -/
theorem regRead_status (s : State) : regRead 2 s = some (if s.fmt.result then 1#32 else 0#32) := by
  rw [← setWidth_ofBool, regRead]

theorem readRegister_status (s : State) :
    readRegister 2 s = .next (s.setEnv { s.env with readData := if s.fmt.result then 1#32 else 0#32 }) := by
  rw [readRegister, regRead_status]

/-- Settles O9: a read of register 2 returns `RESULT`, a write of it does nothing. -/
theorem statusRegisterIsResult : Obligations.StatusRegisterIsResult := by
  refine ⟨fun s rest h => ?_, fun _ _ _ h => step_of_hostMove_done h rfl, rfl⟩
  rw [step_of_hostMove_done h rfl, readRegister_status]
  rfl

/-- Settles O11: the values stand in `State.reset`. -/
theorem resetStateValues : Obligations.ResetStateValues := ⟨rfl, rfl, rfl, rfl, rfl, rfl⟩

/-- Settles O12: a reset is the whole step, and it takes the block's part of `State.reset`. -/
theorem resetAbandonsSession : Obligations.ResetAbandonsSession := fun s rest h =>
  ⟨resetBlock (s.setInbox rest), step_of_hostMove_done h rfl, rfl, rfl, rfl, rfl, rfl, rfl, rfl, rfl⟩

/-- Settles O42: at reset nothing is listed in a memory, and the engine is inactive. -/
theorem resetMeetsInvariants : Obligations.ResetMeetsInvariants :=
  ⟨(memoriesCanonical_iff _).mpr ⟨reset_memoriesFit, reset_frameBufferFits⟩, nofun, nofun⟩

theorem CommandFrame.sess {s t : State} (h : CommandFrame s t) : t.fmt.sess = s.fmt.sess := by
  obtain ⟨_, _, _, _, _, _, rfl⟩ := h
  rfl

theorem Requested.sess {s t : State} (h : Requested s t) : t.fmt.sess = s.fmt.sess := by
  obtain ⟨tr, -, rfl⟩ := h
  rfl

theorem EngineStep.fmt {port : Port} {s t : State} (h : EngineStep port s t) : t.fmt = s.fmt := by
  obtain ⟨e, tr, bytes, rfl, -⟩ := h
  rfl

theorem Ended.sess {s t : State} (h : Ended s t) : t.fmt.sess = s.fmt.sess := by
  obtain ⟨_, _, rfl⟩ := h.eq_setFmt
  rfl

/-- What an instruction does to the session: a START that completes opens it, FINISH ends it, the others leave it
(10_state.md R28). -/
theorem exec_sess {i : Instr} {s t : State} (h : exec i s = .next t) :
    t.fmt.sess = s.fmt.sess ∨
      (∃ len, i = .start len ∧ t.fmt.sess = .started ∧ t.fmt.result = true ∧ t.fmt.workPath = s.path ∧
        t.fmt.firstPending = true) ∨
      ∃ len, i = .finish len ∧ t.fmt.sess = .idle := by
  cases exec_ran h with
  | startFails hu => exact .inl hu.sess
  | startOpens _ hu =>
    obtain ⟨hpath, -⟩ := hu.sameHostSide
    exact .inr (.inl ⟨_, rfl, rfl, rfl, hpath, rfl⟩)
  | finishFails => exact .inl rfl
  | finishEnds _ _ hend => exact .inr (.inr ⟨_, rfl, hend.sess⟩)
  | addframe hu hend => exact .inl (hend.sess.trans hu.frame.sess)
  | oneshot hu hend => exact .inl (hend.sess.trans hu.frame.sess)
  | lzwBegin hstep => exact .inl (by rw [hstep.fmt])
  | lzwSymbol hstep => exact .inl (by rw [hstep.fmt])
  | lzwEnd hstep => exact .inl (by rw [hstep.fmt])
  | quant => exact .inl rfl

/-- An engine-operation word stands for no command (30_encoding.md R92, R109). -/
theorem decode_eop_cases {w : EopWord} {i : Instr} (h : decode (.eop w) = .ok i) :
    i = .lzwBegin ∨ (∃ sym, i = .lzwSymbol sym) ∨ i = .lzwEnd ∨ ∃ pixel, i = .quant pixel := by
  rw [decode, decodeEop] at h
  split_ifs at h <;> cases h
  · exact .inl rfl
  · exact .inr (.inl ⟨_, rfl⟩)
  · exact .inr (.inr (.inl rfl))
  · exact .inr (.inr (.inr ⟨_, rfl⟩))

/-- A word that stands for START or FINISH is a command word. -/
theorem exists_cmd_of_decode {word : InWord} {i : Instr} {len : BitVec 24} (h : decode word = .ok i)
    (hi : i = .start len ∨ i = .finish len) : ∃ w, word = .cmd w := by
  cases word with
  | cmd w => exact ⟨w, rfl⟩
  | eop w =>
    obtain rfl | ⟨_, rfl⟩ | rfl | ⟨_, rfl⟩ := decode_eop_cases h <;> simp at hi

/-- What a step does to the session. -/
theorem step_sess {s t : State} (h : step s = .next t) :
    t.fmt.sess = s.fmt.sess ∨
      (∃ w len rest, s.env.inbox = .writeReg 0 w :: rest ∧ decode (.cmd w) = .ok (.start len) ∧
        t.fmt.sess = .started ∧ t.fmt.result = true ∧ t.fmt.workPath = s.path ∧ t.fmt.firstPending = true) ∨
      (∃ w len rest, s.env.inbox = .writeReg 0 w :: rest ∧ decode (.cmd w) = .ok (.finish len) ∧ t.fmt.sess = .idle) ∨
      ∃ rest, s.env.inbox = .reset :: rest ∧ t.fmt.sess = .idle := by
  obtain ⟨-, rfl⟩ | ⟨m, rest, hinbox, heffect⟩ := step_effect h
  · exact .inl rfl
  · cases heffect with
    | runs hdecode hexec =>
      obtain hsess | ⟨len, rfl, hstarted⟩ | ⟨len, rfl, hidle⟩ := exec_sess hexec
      · exact .inl hsess
      · obtain ⟨w, rfl⟩ := exists_cmd_of_decode hdecode (.inl rfl)
        exact .inr (.inl ⟨w, len, rest, hinbox, hdecode, hstarted⟩)
      · obtain ⟨w, rfl⟩ := exists_cmd_of_decode hdecode (.inr rfl)
        exact .inr (.inr (.inl ⟨w, len, rest, hinbox, hdecode, hidle⟩))
    | illegal => exact .inl rfl
    | path => exact .inl rfl
    | status => exact .inl rfl
    | outside => exact .inl rfl
    | writeFb => exact .inl rfl
    | raceFb => exact .inl rfl
    | reset => exact .inr (.inr (.inr ⟨rest, hinbox, rfl⟩))

/-- Settles O28: of what a step can do to the session, only START opens it, and only FINISH and reset end it. -/
theorem sessionChangesOnlyByStartAndFinish : Obligations.SessionChangesOnlyByStartAndFinish := by
  intro s t h
  refine ⟨fun hidle hstarted => ?_, fun hstarted hidle => ?_⟩
  · obtain hsame | ⟨w, len, rest, hinbox, hdecode, -, hvalues⟩ | ⟨_, _, _, -, -, hended⟩ | ⟨_, -, hended⟩ := step_sess h
    · simp [hsame, hidle] at hstarted
    · exact ⟨w, len, rest, hinbox, hdecode, hvalues⟩
    · simp [hended] at hstarted
    · simp [hended] at hstarted
  · obtain hsame | ⟨_, _, _, -, -, hopened, -⟩ | ⟨w, len, rest, hinbox, hdecode, -⟩ | ⟨rest, hinbox, -⟩ := step_sess h
    · simp [hsame, hstarted] at hidle
    · simp [hopened] at hidle
    · exact ⟨rest, .inr ⟨w, len, hinbox, hdecode⟩⟩
    · exact ⟨rest, .inl hinbox⟩

/-- Each of the four commands, where it answers a next state, has ended (the host's writes in flight landed or not). -/
theorem exec_command_result {i : Instr} {s t : State} {len : BitVec 24}
    (hi : i ∈ [Instr.start len, .addframe len, .finish len, .oneshot len]) (h : exec i s = .next t) :
    t.fmt.result = true ↔ t.fmt.lastCause = .none := by
  cases exec_ran h with
  | startFails _ hcause => exact (Ended.failed hcause).result_iff
  | startOpens => exact Ended.completed.result_iff
  | finishFails => exact (Ended.failed (cause := .notStarted) nofun).result_iff
  | finishEnds _ _ hend => exact hend.result_iff
  | addframe _ hend => exact hend.result_iff
  | oneshot _ hend => exact hend.result_iff
  | lzwBegin => simp at hi
  | lzwSymbol => simp at hi
  | lzwEnd => simp at hi
  | quant => simp at hi

/-- Settles O29: a command ends by setting both; an engine operation changes the engine and its output only. -/
theorem resultAgreesWithCause : Obligations.ResultAgreesWithCause := by
  intro s t len sym pixel
  refine ⟨fun i hi h => exec_command_result hi h, fun i hi h => ?_⟩
  cases exec_ran h with
  | lzwBegin hstep => exact hstep.fmt
  | lzwSymbol hstep => exact hstep.fmt
  | lzwEnd hstep => exact hstep.fmt
  | quant => rfl
  | startFails => simp at hi
  | startOpens => simp at hi
  | finishFails => simp at hi
  | finishEnds => simp at hi
  | addframe => simp at hi
  | oneshot => simp at hi

end Sys2Proof.Machine

/-! ### The frame buffer -/

namespace Sys2Proof.Machine

theorem hostWriteFb_of_lt {c : Config} {i : Nat} (hi : i < c.npix) (w : Word) (s : State) :
    hostWriteFb c i w s = .next (s.setFb (Memory.write unlistedPixel s.fb i w)) := by
  rw [hostWriteFb, if_pos hi]

theorem hostWriteFb_of_ge {c : Config} {i : Nat} (hi : c.npix ≤ i) (w : Word) (s : State) :
    hostWriteFb c i w s = .fault .fbIndexOutOfRange := by
  rw [hostWriteFb, if_neg (Nat.not_lt.mpr hi)]

/-- Whatever the draw, a read returns the old word or one that the host is writing there (20_memory.md R78). -/
theorem readPixel_mem_candidates (i : Nat) (s : State) : (readPixel i s).1 ∈ pixelCandidates s i := by
  unfold readPixel
  split
  · have hlt : Config.raceChoice s.env.fbDraws % (pixelCandidates s i).length < (pixelCandidates s i).length :=
      Nat.mod_lt _ (by simp [pixelCandidates])
    rw [List.getD_eq_getElem _ _ hlt]
    exact List.getElem_mem hlt
  · exact List.mem_cons_self

/-- Settles O60: a write changes the one word it names, and a read returns a candidate. -/
theorem frameBufferReadsAndWrites : Obligations.FrameBufferReadsAndWrites := by
  refine ⟨fun s i w rest hs hinbox hi => ?_, fun s i w rest hinbox hi => ?_,
    fun s i h => readPixel_of_not_raced h, fun s i w hracing => ?_⟩
  · obtain ⟨-, hfb⟩ := (memoriesCanonical_iff s).mp hs
    have hstep : step s = .next ((s.setInbox rest).setFb (Memory.write unlistedPixel s.fb i w)) :=
      (step_of_hostMove_done hinbox rfl).trans (hostWriteFb_of_lt hi w _)
    exact ⟨_, hstep, Memory.read_write_same hfb.fb.1 i w, fun a ha => Memory.read_write_ne s.fb ha w, rfl⟩
  · exact (step_of_hostMove_done hinbox rfl).trans (hostWriteFb_of_ge hi w _)
  · simpa [pixelCandidates, hracing] using readPixel_mem_candidates i s

end Sys2Proof.Machine

/-! ### The requests of an instruction: which ones, and with which answers (20_memory.md R71, R73, R80) -/

namespace Sys2Proof.Machine

/-- How a request gets its answer depends on the list of answers and on the number of requests before it alone. -/
theorem Env.gives_congr {env env' : Env} (hlog : env.log = env'.log) (hanswers : env.answers = env'.answers)
    (tr : Transcript) : env.gives tr ↔ env'.gives tr := by
  simp only [Env.gives, Env.answerAt, hlog, hanswers]

/-- From `s` to `t` the log grew by requests of the kind `P` only, each with the host's next answer, and exactly these
answers were used up. -/
def Issued (P : Request → Prop) (s t : State) : Prop :=
  ∃ tr : Transcript, (∀ p ∈ tr, P p.1) ∧ s.env.gives tr ∧
    t.env.log = s.env.log ++ tr ∧ t.env.answers = s.env.answers.drop tr.length

section
variable {P Q : Request → Prop} {s t u : State}

theorem Issued.refl (P : Request → Prop) (s : State) : Issued P s s :=
  ⟨[], nofun, Env.gives_nil _, (List.append_nil _).symm, rfl⟩

theorem Issued.trans (h : Issued P s t) (h' : Issued P t u) : Issued P s u := by
  obtain ⟨tr, hP, hg, hlog, hanswers⟩ := h
  obtain ⟨tr', hP', hg', hlog', hanswers'⟩ := h'
  refine ⟨tr ++ tr', List.forall_mem_append.mpr ⟨hP, hP'⟩, (Env.gives_append _ _ _).mpr ⟨hg, ?_⟩, ?_, ?_⟩
  · exact (Env.gives_congr hlog hanswers tr').mp hg'
  · rw [hlog', hlog, List.append_assoc]
  · rw [hanswers', hanswers, List.drop_drop, List.length_append]

theorem Issued.mono (h : Issued P s t) (hPQ : ∀ r, P r → Q r) : Issued Q s t := by
  obtain ⟨tr, hP, hrest⟩ := h
  exact ⟨tr, fun p hp => hPQ _ (hP p hp), hrest⟩

theorem Issued.bind {r : Res} {f : State → Res} (hr : r.All (Issued P s)) (hf : ∀ t, (f t).All (Issued P t)) :
    (r.bind f).All (Issued P s) :=
  hr.bind (fun _ h => h) fun t ht => (hf t).mono fun _ h => ht.trans h

/-- As `Issued`, and the formatter is as before. -/
structure IssuedOnly (P : Request → Prop) (s t : State) : Prop where
  issued : Issued P s t
  fmt : t.fmt = s.fmt

theorem IssuedOnly.refl (P : Request → Prop) (s : State) : IssuedOnly P s s := ⟨Issued.refl P s, rfl⟩

theorem IssuedOnly.trans (h : IssuedOnly P s t) (h' : IssuedOnly P t u) : IssuedOnly P s u :=
  ⟨h.issued.trans h'.issued, h'.fmt.trans h.fmt⟩

theorem IssuedOnly.mono (h : IssuedOnly P s t) (hPQ : ∀ r, P r → Q r) : IssuedOnly Q s t :=
  ⟨h.issued.mono hPQ, h.fmt⟩

theorem IssuedOnly.bind {r : Res} {f : State → Res} (hr : r.All (IssuedOnly P s))
    (hf : ∀ t, (f t).All (IssuedOnly P t)) : (r.bind f).All (IssuedOnly P s) :=
  hr.bind (fun _ h => h) fun t ht => (hf t).mono fun _ h => ht.trans h

theorem IssuedOnly.after_setPixIdx {i : BitVec 24} {r : Res} (hr : r.All (IssuedOnly P (s.setPixIdx i))) :
    r.All (IssuedOnly P s) :=
  hr.mono fun _ h => ⟨h.issued, h.fmt⟩

theorem issuedOnly_of_sinkReq {r : Request} {ok : Bool} (h : sinkReq r s = (ok, t)) (hr : P r) : IssuedOnly P s t := by
  rw [sinkReq_eq] at h
  cases h
  exact ⟨⟨_, List.forall_mem_singleton.mpr hr, (Env.gives_cons _ _ _).mpr ⟨rfl, Env.gives_nil _⟩, rfl, rfl⟩, rfl⟩

theorem issuedOnly_of_writeAll {ctx : Ctx} {bytes : List Byte} {ok : Bool}
    (h : writeAll ctx bytes s = (ok, t)) (hP : ∀ b, P (.write ctx b)) : IssuedOnly P s t := by
  induction bytes generalizing s with
  | nil =>
    cases h
    exact IssuedOnly.refl P _
  | cons b bytes ih =>
    rcases hb : sinkReq (.write ctx b) s with ⟨_ | _, u⟩
    · simp only [writeAll, hb] at h
      cases h
      exact issuedOnly_of_sinkReq hb (hP b)
    · simp only [writeAll, hb] at h
      exact (issuedOnly_of_sinkReq hb (hP b)).trans (ih h)

end

/-- The request is on `ctx`. -/
def Request.On (ctx : Ctx) (r : Request) : Prop := r.ctx? = some ctx

/-- The request is not on `ctx`: it is on the other context, or on none (RENAME, DELETE). -/
def Request.NotOn (ctx : Ctx) (r : Request) : Prop := r.ctx? ≠ some ctx

theorem Request.On.notOn_session {r : Request} (h : r.On .oneshot) : r.NotOn .session := by
  rw [NotOn, h]
  nofun

/-! #### The frame and the documents -/

/-- On a sink the engine issues WRITE requests to its context. -/
theorem EngineStep.issuedOnly {ctx : Ctx} {s t : State} (h : EngineStep (.sink ctx) s t) :
    IssuedOnly (Request.On ctx) s t := by
  obtain ⟨e, tr, bytes, rfl, hg, hw, -⟩ := h
  refine ⟨⟨tr, fun p hp => ?_, hg, rfl, rfl⟩, rfl⟩
  obtain ⟨_, b, ⟨⟩, hb⟩ := hw p hp
  rw [hb]
  rfl

/-- The engine driven alone issues no request (42_lzw_engine.md R181). -/
theorem EngineStep.issued_none {s t : State} (h : EngineStep .list s t) : Issued (fun _ => False) s t := by
  obtain ⟨e, tr, bytes, rfl, hg, hw, -⟩ := h
  refine ⟨tr, fun p hp => ?_, hg, rfl, rfl⟩
  obtain ⟨_, _, ⟨⟩, -⟩ := hw p hp

section
variable (c : Config) (ctx : Ctx) (s : State)

theorem readPixel_issuedOnly (P : Request → Prop) (i : Nat) : IssuedOnly P s (readPixel i s).2 := by
  rcases readPixel_state i s with h | h
  · rw [h]
    exact IssuedOnly.refl P s
  · rw [h]
    exact ⟨Issued.refl P s, rfl⟩

theorem out_issuedOnly (bytes : List Byte) : (out (.sink ctx) bytes s).All (IssuedOnly (Request.On ctx) s) :=
  (out_step _ bytes s).mono fun _ h => h.issuedOnly

theorem frameLoop_issuedOnly (n : Nat) : (frameLoop c (.sink ctx) n s).All (IssuedOnly (Request.On ctx) s) := by
  induction n generalizing s with
  | zero => exact IssuedOnly.refl _ s
  | succ n ih =>
    refine IssuedOnly.bind ((lzwSymbol_step c _ _ _).mono fun _ h => ?_) fun _ =>
      IssuedOnly.after_setPixIdx (ih _)
    exact (readPixel_issuedOnly s _ _).trans h.issuedOnly

theorem encodeFrame_issuedOnly : (encodeFrame c ctx s).All (IssuedOnly (Request.On ctx) s) :=
  IssuedOnly.bind ((lzwBegin_step c _ s).mono fun _ h => h.issuedOnly) fun _ =>
    IssuedOnly.bind (IssuedOnly.after_setPixIdx (frameLoop_issuedOnly c ctx _ _)) fun t2 =>
      IssuedOnly.bind ((lzwEnd_step c _ t2).mono fun _ h => h.issuedOnly) fun t3 => out_issuedOnly ctx t3 _

theorem writeDocument_issuedOnly : (writeDocument c s).All (IssuedOnly (Request.On .oneshot) s) :=
  IssuedOnly.bind (out_issuedOnly _ s _) fun t1 => IssuedOnly.bind (out_issuedOnly _ t1 _) fun t2 =>
    IssuedOnly.bind (out_issuedOnly _ t2 _) fun t3 => IssuedOnly.bind (out_issuedOnly _ t3 _) fun t4 =>
      IssuedOnly.bind (encodeFrame_issuedOnly c _ t4) fun t5 => out_issuedOnly _ t5 _

theorem out_issued (bytes : List Byte) : (out (.sink ctx) bytes s).All (Issued (Request.On ctx) s) :=
  (out_issuedOnly ctx s bytes).mono fun _ h => h.issued

theorem writeHeader_issued : (writeHeader c s).All (Issued (Request.On .session) s) := by
  unfold writeHeader
  split
  · exact Issued.bind (out_issued _ s _) fun t1 => Issued.bind (out_issued _ t1 _) fun t2 => Issued.refl _ t2
  · exact Issued.refl _ s

theorem writeFrame_issued : (writeFrame c s).All (Issued (Request.On .session) s) :=
  Issued.bind (writeHeader_issued c s) fun t1 => Issued.bind (out_issued _ t1 _) fun t2 =>
    Issued.bind (out_issued _ t2 _) fun t3 => (encodeFrame_issuedOnly c _ t3).mono fun _ h => h.issued

end

/-! #### The commands -/

theorem startSession_issued (s : State) : Issued (Request.NotOn .oneshot) s (startSession s) := by
  unfold startSession
  cases s.fmt.sess with
  | started => exact Issued.refl _ s
  | idle =>
    rcases hopen : sinkReq (.openSink .session s.path) s with ⟨_ | _, t⟩
    · exact (issuedOnly_of_sinkReq hopen nofun).issued
    · have ht : IssuedOnly (Request.NotOn .oneshot) s t := issuedOnly_of_sinkReq hopen nofun
      rcases hsig : writeAll .session sigBytes t with ⟨_ | _, u⟩
      · rcases hclose : sinkReq (.close .session) u with ⟨_, v⟩
        have hv := (ht.trans (issuedOnly_of_writeAll hsig fun _ => nofun)).trans (issuedOnly_of_sinkReq hclose nofun)
        simp only [startOpened, hsig, hclose]
        exact hv.issued
      · simp only [startOpened, hsig]
        exact (ht.trans (issuedOnly_of_writeAll hsig fun _ => nofun)).issued

theorem finishClose_issuedOnly {ok okAll : Bool} {s t : State} (h : finishClose ok s = (okAll, t)) :
    IssuedOnly (Request.NotOn .oneshot) s t := by
  rcases hclose : sinkReq (.close .session) s with ⟨okClose, u⟩
  have hu : IssuedOnly (Request.NotOn .oneshot) s u := issuedOnly_of_sinkReq hclose nofun
  simp only [finishClose, hclose] at h
  split at h
  · exact hu.trans (issuedOnly_of_sinkReq h nofun)
  · cases h
    exact hu

/-- DELETE is on neither context (20_memory.md R70). -/
theorem delete_issuedOnly (ctx : Ctx) (path : Word) (s : State) :
    IssuedOnly (Request.NotOn ctx) s (sinkReq (.delete path) s).2 :=
  issuedOnly_of_sinkReq rfl nofun

theorem finishEnd_issued (ok : Bool) (s : State) : Issued (Request.NotOn .oneshot) s (finishEnd ok s) := by
  cases ok with
  | true => exact Issued.refl _ s
  | false => exact (delete_issuedOnly _ s.fmt.workPath s).issued

theorem finishSession_issued (s : State) : Issued (Request.NotOn .oneshot) s (finishSession s) := by
  unfold finishSession
  cases s.fmt.sess with
  | idle => exact Issued.refl _ s
  | started =>
    rcases hwrite : sinkReq (.write .session trailerByte) s with ⟨ok, t⟩
    rcases hclose : finishClose ok t with ⟨okAll, u⟩
    have hu := IssuedOnly.trans (issuedOnly_of_sinkReq hwrite nofun) (finishClose_issuedOnly hclose)
    simp only [hclose]
    exact hu.issued.trans (finishEnd_issued okAll u)

theorem addFrame_issued {c : Config} {len : BitVec 24} {s t : State} (h : addFrame c len s = some t) :
    Issued (Request.On .session) s t := by
  unfold addFrame at h
  split at h
  · cases h
    exact Issued.refl _ s
  · split at h
    · have hframe := writeFrame_issued c s
      cases hw : writeFrame c s with
      | ok u =>
        rw [hw] at h hframe
        cases h
        exact hframe
      | raised u =>
        rw [hw] at h hframe
        cases h
        exact hframe
      | endless =>
        rw [hw] at h
        cases h
    · cases h
      exact Issued.refl _ s

/-- ONESHOT's end after a failure: DELETE, then the command is over. -/
theorem deleteAndFail_issuedOnly {s t : State} (h : IssuedOnly (Request.NotOn .session) s t) :
    ∃ u, IssuedOnly (Request.NotOn .session) s u ∧
      Ended u (failCommand .ioFailure (sinkReq (.delete t.path) t).2) :=
  ⟨_, h.trans (delete_issuedOnly _ _ t), .failed nofun⟩

theorem oneShotEnd_issuedOnly {r : Res} {s t : State} (hr : r.All (IssuedOnly (Request.NotOn .session) s))
    (h : oneShotEnd r = some t) : ∃ u, IssuedOnly (Request.NotOn .session) s u ∧ Ended u t := by
  cases r with
  | ok u =>
    rcases hclose : sinkReq (.close .oneshot) u with ⟨ok, v⟩
    have hv := IssuedOnly.trans hr (issuedOnly_of_sinkReq hclose nofun)
    simp only [oneShotEnd, hclose] at h
    cases ok with
    | true =>
      cases h
      exact ⟨v, hv, .completed⟩
    | false =>
      cases h
      exact deleteAndFail_issuedOnly hv
  | raised u =>
    cases h
    have hu : IssuedOnly (Request.NotOn .session) s (abandonEngine u) := ⟨hr.issued, hr.fmt⟩
    exact deleteAndFail_issuedOnly (hu.trans (issuedOnly_of_sinkReq rfl nofun))
  | endless => cases h

/-- Until ONESHOT ends it leaves the formatter alone and issues no request on `S` (41_gif_formatter.md R167). -/
theorem oneShot_issuedOnly {c : Config} {len : BitVec 24} {s t : State} (h : oneShot c len s = some t) :
    ∃ u, IssuedOnly (Request.NotOn .session) s u ∧ Ended u t := by
  unfold oneShot at h
  split at h
  · rcases hopen : sinkReq (.openSink .oneshot s.path) s with ⟨ok, u⟩
    have hu : IssuedOnly (Request.NotOn .session) s u := issuedOnly_of_sinkReq hopen nofun
    simp only [hopen] at h
    cases ok with
    | true =>
      refine oneShotEnd_issuedOnly ((writeDocument_issuedOnly c u).mono fun v hv => ?_) h
      exact hu.trans (hv.mono fun _ => Request.On.notOn_session)
    | false =>
      cases h
      exact ⟨u, hu, .failed nofun⟩
  · cases h
    exact ⟨s, IssuedOnly.refl _ s, .failed nofun⟩

/-- What ONESHOT, where it answers a next state, comes from. -/
theorem execOneshot_next {len : BitVec 24} {s t : State} (h : execOneshot len s = .next t) :
    ∃ u, oneShot Config.hw len s = some u ∧ t = landRaces u := by
  unfold execOneshot at h
  split at h
  · cases h
  · exact frameOutcome_eq_next h

/-- ONESHOT changes `RESULT` and the cause, nothing else of the formatter. -/
theorem exec_oneshot_fmt {len : BitVec 24} {s t : State} (h : exec (.oneshot len) s = .next t) :
    ∃ result cause, t.fmt = s.fmt.returned result cause := by
  obtain ⟨u, hu, rfl⟩ := execOneshot_next h
  obtain ⟨v, hv, hend⟩ := oneShot_issuedOnly hu
  obtain ⟨result, cause, rfl⟩ := hend.eq_setFmt
  exact ⟨result, cause, by simp [hv.fmt]⟩

/-- The requests an instruction may issue (20_memory.md R80). -/
def mayIssue : Instr → Request → Prop
  | .start _ => Request.NotOn .oneshot
  | .addframe _ => Request.On .session
  | .finish _ => Request.NotOn .oneshot
  | .oneshot _ => Request.NotOn .session
  | .lzwBegin => fun _ => False
  | .lzwSymbol _ => fun _ => False
  | .lzwEnd => fun _ => False
  | .quant _ => fun _ => False

theorem exec_issued {i : Instr} {s t : State} (h : exec i s = .next t) : Issued (mayIssue i) s t := by
  cases i with
  | start len =>
    obtain rfl := settle_eq_next h
    exact startSession_issued s
  | addframe len =>
    obtain ⟨u, hu, rfl⟩ := frameOutcome_eq_next h
    have hissued : Issued _ s u := addFrame_issued hu
    exact hissued
  | finish len =>
    obtain rfl := settle_eq_next h
    exact finishSession_issued s
  | oneshot len =>
    obtain ⟨u, hu, rfl⟩ := execOneshot_next h
    obtain ⟨v, hv, hend⟩ := oneShot_issuedOnly hu
    obtain ⟨_, _, rfl⟩ := hend.eq_setFmt
    exact hv.issued
  | lzwBegin => exact (all_of_engineOutcome (lzwBegin_step _ _ s) h).issued_none
  | lzwSymbol sym =>
    exact (all_of_engineOutcome (lzwSymbol_step _ _ _ s) (execLzwSymbol_next h).2).issued_none
  | lzwEnd => exact (all_of_engineOutcome (lzwEnd_step _ _ s) (execLzwEnd_next h).2).issued_none
  | quant pixel =>
    cases h
    exact Issued.refl _ s

/-- Settles O27: every request is one that the instruction may issue, and of the formatter ONESHOT changes `RESULT` and the
cause only. -/
theorem contextsAreIndependent : Obligations.ContextsAreIndependent := by
  intro i s t h
  obtain ⟨tr, hmay, -, hlog, -⟩ := exec_issued h
  refine ⟨tr, hlog, ?_⟩
  cases i with
  | start len => exact hmay
  | addframe len => exact hmay
  | finish len => exact hmay
  | oneshot len =>
    obtain ⟨_, _, hfmt⟩ := exec_oneshot_fmt h
    rw [hfmt]
    exact ⟨hmay, rfl, rfl, rfl⟩
  | lzwBegin => exact List.eq_nil_iff_forall_not_mem.mpr hmay
  | lzwSymbol sym => exact List.eq_nil_iff_forall_not_mem.mpr hmay
  | lzwEnd => exact List.eq_nil_iff_forall_not_mem.mpr hmay
  | quant pixel => exact List.eq_nil_iff_forall_not_mem.mpr hmay

/-- Settles O34: whatever an instruction issues takes the host's answers from the front of the list. -/
theorem requestsTakeHostAnswersInOrder : Obligations.RequestsTakeHostAnswersInOrder := by
  intro i s t h
  obtain ⟨tr, -, hgives, hlog, hanswers⟩ := exec_issued h
  exact ⟨tr, hlog, hgives, hanswers⟩

end Sys2Proof.Machine

/-! ### The records of the requests and the codes of the causes (20_memory.md R70, 60_exceptions.md R240) -/

namespace Sys2Proof.Machine

/-- Settles O59: the records and the codes stand in `Request.record`, `Ctx.bit` and `Cause.code`; a byte keeps its value
in the 32-bit argument. -/
theorem channelRecordsAndCauseCodes : Obligations.ChannelRecordsAndCauseCodes := by
  refine ⟨fun a b byte ctx => ⟨rfl, rfl, rfl, ?_, rfl, rfl, rfl, rfl⟩, rfl, rfl, rfl⟩
  exact BitVec.toNat_setWidth_of_le (by decide)

end Sys2Proof.Machine

/-! ### A request the host never answers (20_memory.md R81)

A command reads `env.unanswered` only at its end (`settle`), so that its run is the same whatever stands there. -/

namespace Sys2Proof.Machine

/-- The state with another request, or none, that the host never answers (log 3). -/
def State.setUnanswered (u : Option Nat) (s : State) : State := s.setEnv { s.env with unanswered := u }

@[simp] theorem setUnanswered_fmt (u : Option Nat) (s : State) : (s.setUnanswered u).fmt = s.fmt := rfl
@[simp] theorem setUnanswered_path (u : Option Nat) (s : State) : (s.setUnanswered u).path = s.path := rfl
@[simp] theorem setUnanswered_pixIdx (u : Option Nat) (s : State) : (s.setUnanswered u).pixIdx = s.pixIdx := rfl
@[simp] theorem setUnanswered_eng (u : Option Nat) (s : State) : (s.setUnanswered u).eng = s.eng := rfl

/-- The same of the state an operation ends in. -/
def Res.setUnanswered (u : Option Nat) : Res → Res
  | .ok s => .ok (s.setUnanswered u)
  | .raised s => .raised (s.setUnanswered u)
  | .endless => .endless

section
variable {u : Option Nat}

/-- Operations in a row that ignore the unanswered request ignore it together. -/
theorem Res.bind_setUnanswered {r r' : Res} {f : State → Res} (hr : r' = r.setUnanswered u)
    (hf : ∀ t, f (t.setUnanswered u) = (f t).setUnanswered u) : r'.bind f = (r.bind f).setUnanswered u := by
  subst hr
  cases r with
  | ok t => exact hf t
  | raised t => rfl
  | endless => rfl

theorem sinkReq_setUnanswered (r : Request) (s : State) :
    sinkReq r (s.setUnanswered u) = ((sinkReq r s).1, (sinkReq r s).2.setUnanswered u) := rfl

theorem writeAll_setUnanswered (ctx : Ctx) (bytes : List Byte) (s : State) :
    writeAll ctx bytes (s.setUnanswered u) =
      ((writeAll ctx bytes s).1, (writeAll ctx bytes s).2.setUnanswered u) := by
  induction bytes generalizing s with
  | nil => rfl
  | cons b bytes ih =>
    rw [writeAll, writeAll, sinkReq_setUnanswered]
    rcases sinkReq (.write ctx b) s with ⟨_ | _, t⟩
    · rfl
    · exact ih t

theorem out_setUnanswered (port : Port) (bytes : List Byte) (s : State) :
    out port bytes (s.setUnanswered u) = (out port bytes s).setUnanswered u := by
  cases port with
  | list => rfl
  | sink ctx =>
    rw [out, out, writeAll_setUnanswered]
    rcases writeAll ctx bytes s with ⟨_ | _, t⟩ <;> rfl

theorem readPixel_setUnanswered (i : Nat) (s : State) :
    readPixel i (s.setUnanswered u) = ((readPixel i s).1, (readPixel i s).2.setUnanswered u) := by
  have hraced : raced (s.setUnanswered u) i = raced s i := rfl
  rw [readPixel, readPixel, hraced]
  split <;> rfl

/-! #### The engine -/

section
variable (c : Config) (port : Port)

theorem flushPacket_setUnanswered (s : State) :
    flushPacket port (s.setUnanswered u) = (flushPacket port s).setUnanswered u := by
  unfold flushPacket
  rw [setUnanswered_eng]
  split
  · rfl
  · exact Res.bind_setUnanswered (out_setUnanswered port _ s) fun _ => rfl

theorem flushIfFull_setUnanswered (s : State) :
    flushIfFull c port (s.setUnanswered u) = (flushIfFull c port s).setUnanswered u := by
  unfold flushIfFull
  rw [setUnanswered_eng]
  split
  · exact flushPacket_setUnanswered port s
  · rfl

theorem pushByte_setUnanswered (b : Byte) (s : State) :
    pushByte c port b (s.setUnanswered u) = (pushByte c port b s).setUnanswered u :=
  flushIfFull_setUnanswered c port (s.setEng (s.eng.storePkt b))

theorem peelBytes_setUnanswered (n : Nat) (s : State) :
    peelBytes c port n (s.setUnanswered u) = (peelBytes c port n s).setUnanswered u := by
  induction n generalizing s with
  | zero => rfl
  | succ n ih =>
    exact Res.bind_setUnanswered (pushByte_setUnanswered c port _ s) fun t => ih (t.setEng t.eng.dropByte)

theorem emit_setUnanswered (v : Nat) (s : State) :
    emit c port v (s.setUnanswered u) = (emit c port v s).setUnanswered u :=
  Res.bind_setUnanswered (peelBytes_setUnanswered c port _ (s.setEng (s.eng.pack v))) fun _ => rfl

theorem lzwBegin_setUnanswered (s : State) :
    lzwBegin c port (s.setUnanswered u) = (lzwBegin c port s).setUnanswered u :=
  Res.bind_setUnanswered (out_setUnanswered port _ s) fun t =>
    emit_setUnanswered c port _ (t.setEng (t.eng.begin c))

theorem lzwMiss_setUnanswered (sym i : Nat) (s : State) :
    lzwMiss c port sym i (s.setUnanswered u) = (lzwMiss c port sym i s).setUnanswered u := by
  refine Res.bind_setUnanswered (emit_setUnanswered c port _ s) fun t => ?_
  rw [setUnanswered_eng]
  split
  · rfl
  · exact Res.bind_setUnanswered (emit_setUnanswered c port _ (t.setEng (t.eng.setEnt sym))) fun _ => rfl

theorem lzwSymbol_setUnanswered (sym : Nat) (s : State) :
    lzwSymbol c port sym (s.setUnanswered u) = (lzwSymbol c port sym s).setUnanswered u := by
  unfold lzwSymbol
  rw [setUnanswered_eng]
  split
  · split
    · rfl
    · rfl
    · exact lzwMiss_setUnanswered c port sym _ s
  · rfl

theorem flushBits_setUnanswered (s : State) :
    flushBits c port (s.setUnanswered u) = (flushBits c port s).setUnanswered u := by
  unfold flushBits
  rw [setUnanswered_eng]
  split
  · rfl
  · exact Res.bind_setUnanswered (pushByte_setUnanswered c port _ s) fun _ => rfl

theorem lzwEnd_setUnanswered (s : State) : lzwEnd c port (s.setUnanswered u) = (lzwEnd c port s).setUnanswered u :=
  Res.bind_setUnanswered (emit_setUnanswered c port _ s) fun t1 =>
    Res.bind_setUnanswered (emit_setUnanswered c port _ t1) fun t2 =>
      Res.bind_setUnanswered (flushBits_setUnanswered c port t2) fun t3 =>
        Res.bind_setUnanswered (flushPacket_setUnanswered port t3) fun _ => rfl

/-! #### The frame and the documents -/

theorem frameLoop_setUnanswered (n : Nat) (s : State) :
    frameLoop c port n (s.setUnanswered u) = (frameLoop c port n s).setUnanswered u := by
  induction n generalizing s with
  | zero => rfl
  | succ n ih =>
    rw [frameLoop, frameLoop, setUnanswered_pixIdx, readPixel_setUnanswered]
    exact Res.bind_setUnanswered (lzwSymbol_setUnanswered c port _ _) fun t =>
      ih (t.setPixIdx (BitVec.ofNat 24 (t.pixIdx.toNat + 1)))

theorem encodeFrame_setUnanswered (ctx : Ctx) (s : State) :
    encodeFrame c ctx (s.setUnanswered u) = (encodeFrame c ctx s).setUnanswered u :=
  Res.bind_setUnanswered (lzwBegin_setUnanswered c _ s) fun t1 =>
    Res.bind_setUnanswered (frameLoop_setUnanswered c _ _ (t1.setPixIdx 0#24)) fun t2 =>
      Res.bind_setUnanswered (lzwEnd_setUnanswered c _ t2) fun t3 => out_setUnanswered _ _ t3

theorem writeHeader_setUnanswered (s : State) :
    writeHeader c (s.setUnanswered u) = (writeHeader c s).setUnanswered u := by
  unfold writeHeader
  rw [setUnanswered_fmt]
  split
  · exact Res.bind_setUnanswered (out_setUnanswered _ _ s) fun t1 =>
      Res.bind_setUnanswered (out_setUnanswered _ _ t1) fun _ => rfl
  · rfl

theorem writeFrame_setUnanswered (s : State) : writeFrame c (s.setUnanswered u) = (writeFrame c s).setUnanswered u :=
  Res.bind_setUnanswered (writeHeader_setUnanswered c s) fun t1 =>
    Res.bind_setUnanswered (out_setUnanswered _ _ t1) fun t2 =>
      Res.bind_setUnanswered (out_setUnanswered _ _ t2) fun t3 => encodeFrame_setUnanswered c _ t3

theorem writeDocument_setUnanswered (s : State) :
    writeDocument c (s.setUnanswered u) = (writeDocument c s).setUnanswered u :=
  Res.bind_setUnanswered (out_setUnanswered _ _ s) fun t1 =>
    Res.bind_setUnanswered (out_setUnanswered _ _ t1) fun t2 =>
      Res.bind_setUnanswered (out_setUnanswered _ _ t2) fun t3 =>
        Res.bind_setUnanswered (out_setUnanswered _ _ t3) fun t4 =>
          Res.bind_setUnanswered (encodeFrame_setUnanswered c _ t4) fun t5 => out_setUnanswered _ _ t5

end

/-! #### The commands -/

theorem startOpened_setUnanswered (s : State) :
    startOpened (s.setUnanswered u) = (startOpened s).setUnanswered u := by
  rw [startOpened, startOpened, writeAll_setUnanswered]
  rcases writeAll .session sigBytes s with ⟨_ | _, t⟩ <;> rfl

theorem startSession_setUnanswered (s : State) :
    startSession (s.setUnanswered u) = (startSession s).setUnanswered u := by
  rw [startSession, startSession, setUnanswered_fmt, setUnanswered_path, sinkReq_setUnanswered]
  cases s.fmt.sess with
  | started => rfl
  | idle =>
    rcases sinkReq (.openSink .session s.path) s with ⟨_ | _, t⟩
    · rfl
    · exact startOpened_setUnanswered t

theorem finishClose_setUnanswered (ok : Bool) (s : State) :
    finishClose ok (s.setUnanswered u) = ((finishClose ok s).1, (finishClose ok s).2.setUnanswered u) := by
  rw [finishClose, finishClose, sinkReq_setUnanswered]
  rcases sinkReq (.close .session) s with ⟨okClose, t⟩
  dsimp only
  cases ok && okClose <;> rfl

theorem finishEnd_setUnanswered (ok : Bool) (s : State) :
    finishEnd ok (s.setUnanswered u) = (finishEnd ok s).setUnanswered u := by
  cases ok <;> rfl

theorem finishSession_setUnanswered (s : State) :
    finishSession (s.setUnanswered u) = (finishSession s).setUnanswered u := by
  rw [finishSession, finishSession, setUnanswered_fmt, sinkReq_setUnanswered]
  cases s.fmt.sess with
  | idle => rfl
  | started =>
    simp only [finishClose_setUnanswered]
    exact finishEnd_setUnanswered _ _

theorem addFrame_setUnanswered (c : Config) (len : BitVec 24) (s : State) :
    addFrame c len (s.setUnanswered u) = (addFrame c len s).map (State.setUnanswered u) := by
  rw [addFrame, addFrame, setUnanswered_fmt, writeFrame_setUnanswered]
  cases s.fmt.sess with
  | idle => rfl
  | started =>
    cases lenMatches c len with
    | false => rfl
    | true => cases writeFrame c s <;> rfl

theorem oneShotEnd_setUnanswered (r : Res) :
    oneShotEnd (r.setUnanswered u) = (oneShotEnd r).map (State.setUnanswered u) := by
  cases r with
  | ok s =>
    rw [Res.setUnanswered, oneShotEnd, oneShotEnd, sinkReq_setUnanswered]
    rcases sinkReq (.close .oneshot) s with ⟨_ | _, t⟩ <;> rfl
  | raised s => rfl
  | endless => rfl

theorem oneShot_setUnanswered (c : Config) (len : BitVec 24) (s : State) :
    oneShot c len (s.setUnanswered u) = (oneShot c len s).map (State.setUnanswered u) := by
  rw [oneShot, oneShot, setUnanswered_path, sinkReq_setUnanswered]
  cases lenMatches c len with
  | false => rfl
  | true =>
    rcases sinkReq (.openSink .oneshot s.path) s with ⟨_ | _, t⟩
    · rfl
    · exact (congrArg oneShotEnd (writeDocument_setUnanswered c t)).trans (oneShotEnd_setUnanswered _)

end

section
variable {n : Nat} {s t : State}

/-- A command that ends in `t` if the host answers every request stalls on request `n`, if it has issued it by then
(20_memory.md R81). -/
def stallOr (n : Nat) (t : State) : Host.Outcome State Fault Refusal :=
  if n < t.env.log.length then .fault .sinkStall else .next (t.setUnanswered (some n))

theorem settle_stallOr {r : State} (h : settle (s.setUnanswered none) (r.setUnanswered none) = .next t) :
    settle (s.setUnanswered (some n)) (r.setUnanswered (some n)) = stallOr n t := by
  obtain rfl := settle_eq_next h
  rfl

theorem frameOutcome_stallOr {r : Option State}
    (h : frameOutcome (s.setUnanswered none) (r.map (State.setUnanswered none)) = .next t) :
    frameOutcome (s.setUnanswered (some n)) (r.map (State.setUnanswered (some n))) = stallOr n t := by
  cases r with
  | none => cases h
  | some r => exact settle_stallOr (s := s) (r := landRaces r) h

theorem execOneshot_stallOr {len : BitVec 24} (h : execOneshot len (s.setUnanswered none) = .next t) :
    execOneshot len (s.setUnanswered (some n)) = stallOr n t := by
  have hshared (u : Option Nat) : sharesWorkPath (s.setUnanswered u) = sharesWorkPath s := rfl
  rw [execOneshot, hshared, oneShot_setUnanswered] at h ⊢
  split at h
  · cases h
  · next hpath => exact (if_neg hpath).trans (frameOutcome_stallOr h)

/-- The same run with the host leaving request `n` unanswered, for every command. -/
theorem exec_command_stallOr (len : BitVec 24) : ∀ i ∈ [Instr.start len, .addframe len, .finish len, .oneshot len],
    exec i (s.setUnanswered none) = .next t → exec i (s.setUnanswered (some n)) = stallOr n t := by
  simp only [List.forall_mem_cons]
  refine ⟨fun h => ?_, fun h => ?_, fun h => ?_, execOneshot_stallOr, nofun⟩
  · rw [exec, execStart, startSession_setUnanswered] at h ⊢
    exact settle_stallOr h
  · rw [exec, execAddframe, addFrame_setUnanswered] at h ⊢
    exact frameOutcome_stallOr h
  · rw [exec, execFinish, finishSession_setUnanswered] at h ⊢
    exact settle_stallOr h

end

/-- Settles O35: the run is the same whichever request stays unanswered, and only its end compares that request with the
log. -/
theorem unansweredRequestStalls : Obligations.UnansweredRequestStalls := by
  intro s t len n i hi hn h
  have hs : s.setUnanswered (some n) = s := by rw [← hn]; rfl
  exact (congrArg (exec i) hs).symm.trans (exec_command_stallOr len i hi h)

end Sys2Proof.Machine

/-! ### The word formats: the rows of the opcode table and the fields, by arithmetic on a word's value (30_encoding.md
R91, R92, R109) -/

namespace Sys2Proof

open Laws.TableRow (cmd_toNat eop_toNat)

/-- A mask of the bits from `k` up keeps the word's multiple of `2 ^ k`. -/
theorem and_highMask_eq_iff {n : Nat} (w m : BitVec n) (k : Nat) :
    w &&& BitVec.allOnes n <<< k = m ↔ w.toNat / 2 ^ k * 2 ^ k = m.toNat := by
  have hfits : w.toNat / 2 ^ k * 2 ^ k < 2 ^ n := (Nat.div_mul_le_self _ _).trans_lt w.isLt
  rw [← BitVec.shiftLeft_ushiftRight, ← BitVec.toNat_inj, BitVec.toNat_shiftLeft, BitVec.toNat_ushiftRight,
    Nat.shiftLeft_eq, Nat.shiftRight_eq_div_pow, Nat.mod_eq_of_lt hfits]

/-- The rows of the `CMD` format fix `OP` and `RSV` and leave `LEN` open. -/
theorem cmdRow_iff (w m : Word) : w &&& 0x000000FF#32 = m ↔ w.toNat % 256 = m.toNat := by
  rw [← BitVec.toNat_inj, BitVec.toNat_and]
  exact Eq.congr_left (Nat.and_two_pow_sub_one_eq_mod w.toNat 8)

/-- The rows of LZW_BEGIN and LZW_END fix the whole word. -/
theorem wholeRow_iff (w m : EopWord) : w &&& 0x7FFFFFFFF#35 = m ↔ w.toNat = m.toNat := by
  rw [← BitVec.toNat_inj, show w &&& 0x7FFFFFFFF#35 = w from BitVec.and_allOnes]

/-- The row of LZW_SYMBOL leaves the symbol open. -/
theorem symbolRow_iff (w : EopWord) : w &&& 0x7FFFFFF00#35 = 0x200000000#35 ↔ w.toNat / 256 = 2 ^ 25 := by
  refine (and_highMask_eq_iff w 0x200000000#35 8).trans ?_
  simp only [BitVec.toNat_ofNat]
  omega

/-- The row of QUANT leaves the pixel word open. -/
theorem quantRow_iff (w : EopWord) : w &&& 0x700000000#35 = 0x400000000#35 ↔ w.toNat / 2 ^ 32 = 4 := by
  refine (and_highMask_eq_iff w 0x400000000#35 32).trans ?_
  simp only [BitVec.toNat_ofNat]
  omega

theorem lenField_toNat (w : Word) : (lenField w).toNat = w.toNat / 256 := by
  rw [lenField, BitVec.extractLsb'_toNat, Nat.shiftRight_eq_div_pow]
  omega

theorem symField_toNat (w : EopWord) : (symField w).toNat = w.toNat % 256 := BitVec.extractLsb'_toNat 0 8 w

theorem eargField_toNat (w : EopWord) : (eargField w).toNat = w.toNat % 2 ^ 32 := BitVec.extractLsb'_toNat 0 32 w

theorem cmdValue_iff {w : Word} {len : BitVec 24} {op : Nat} (hop : op < 256) :
    w.toNat = 256 * len.toNat + op ↔ w.toNat % 256 = op ∧ lenField w = len := by
  rw [← BitVec.toNat_inj, lenField_toNat]
  omega

theorem symbolValue_iff {w : EopWord} {sym : BitVec 8} :
    w.toNat = 2 * 2 ^ 32 + sym.toNat ↔ w.toNat / 256 = 2 ^ 25 ∧ symField w = sym := by
  rw [← BitVec.toNat_inj, symField_toNat]
  omega

theorem quantValue_iff {w : EopWord} {pixel : Word} :
    w.toNat = 4 * 2 ^ 32 + pixel.toNat ↔ w.toNat / 2 ^ 32 = 4 ∧ eargField w = pixel := by
  rw [← BitVec.toNat_inj, eargField_toNat]
  omega

end Sys2Proof

/-! ### Decoding and encoding: both agree with what a word spells -/

namespace Sys2Proof

open Laws.TableRow (cmd_toNat eop_toNat)

/-- The word spells the instruction: its value is that of `LEN ++ RSV ++ OP` or `EOPC ++ EARG` with the instruction's
code and operand (30_encoding.md R91, R92). -/
inductive Spells : InWord → Instr → Prop
  | start {w len} (h : w.toNat = 256 * len.toNat + 1) : Spells (.cmd w) (.start len)
  | addframe {w len} (h : w.toNat = 256 * len.toNat + 2) : Spells (.cmd w) (.addframe len)
  | finish {w len} (h : w.toNat = 256 * len.toNat + 3) : Spells (.cmd w) (.finish len)
  | oneshot {w len} (h : w.toNat = 256 * len.toNat + 4) : Spells (.cmd w) (.oneshot len)
  | lzwBegin {w} (h : w.toNat = 1 * 2 ^ 32) : Spells (.eop w) .lzwBegin
  | lzwSymbol {w sym} (h : w.toNat = 2 * 2 ^ 32 + sym.toNat) : Spells (.eop w) (.lzwSymbol sym)
  | lzwEnd {w} (h : w.toNat = 3 * 2 ^ 32) : Spells (.eop w) .lzwEnd
  | quant {w pixel} (h : w.toNat = 4 * 2 ^ 32 + pixel.toNat) : Spells (.eop w) (.quant pixel)

theorem spells_of_decode {word : InWord} {i : Instr} (h : decode word = .ok i) : Spells word i := by
  cases word with
  | cmd w =>
    simp only [decode, decodeCmd, cmdRow_iff] at h
    split_ifs at h with hrow hrow hrow hrow <;> cases h
    · exact .start ((cmdValue_iff (by decide)).mpr ⟨hrow, rfl⟩)
    · exact .addframe ((cmdValue_iff (by decide)).mpr ⟨hrow, rfl⟩)
    · exact .finish ((cmdValue_iff (by decide)).mpr ⟨hrow, rfl⟩)
    · exact .oneshot ((cmdValue_iff (by decide)).mpr ⟨hrow, rfl⟩)
  | eop w =>
    simp only [decode, decodeEop, wholeRow_iff, symbolRow_iff, quantRow_iff] at h
    split_ifs at h with hrow hrow hrow hrow <;> cases h
    · exact .lzwBegin hrow
    · exact .lzwSymbol (symbolValue_iff.mpr ⟨hrow, rfl⟩)
    · exact .lzwEnd hrow
    · exact .quant (quantValue_iff.mpr ⟨hrow, rfl⟩)

/-- The decoder on a command word whose `RSV` and `OP` are those of `op`. -/
theorem decodeCmd_of_value {w : Word} {len : BitVec 24} {op : Nat} (hop : op < 256)
    (h : w.toNat = 256 * len.toNat + op) :
    decodeCmd w = if op = 1 then .ok (.start len) else if op = 2 then .ok (.addframe len)
      else if op = 3 then .ok (.finish len) else if op = 4 then .ok (.oneshot len) else .error .illegalCommand := by
  obtain ⟨hrow, hlen⟩ := (cmdValue_iff hop).mp h
  simp [decodeCmd, cmdRow_iff, hrow, hlen]

/-- No `EOP` row that stands before the right one in the decoder takes the word. -/
theorem decode_of_spells {word : InWord} {i : Instr} (h : Spells word i) : decode word = .ok i := by
  cases h with
  | start h => exact decodeCmd_of_value (by decide) h
  | addframe h => exact decodeCmd_of_value (by decide) h
  | finish h => exact decodeCmd_of_value (by decide) h
  | oneshot h => exact decodeCmd_of_value (by decide) h
  | lzwBegin h => simp [decode, decodeEop, wholeRow_iff, h]
  | @lzwSymbol w sym h =>
    have hbegin : ¬ w.toNat = 2 ^ 32 := by omega
    obtain ⟨hrow, hsym⟩ := symbolValue_iff.mp h
    rw [decode, decodeEop, if_neg (mt (wholeRow_iff w 0x100000000#35).mp hbegin),
      if_pos ((symbolRow_iff w).mpr hrow), hsym]
  | lzwEnd h => simp [decode, decodeEop, wholeRow_iff, symbolRow_iff, h]
  | @quant w pixel h =>
    have hbegin : ¬ w.toNat = 2 ^ 32 := by omega
    have hsymbol : ¬ w.toNat / 256 = 2 ^ 25 := by omega
    have hend : ¬ w.toNat = 3 * 2 ^ 32 := by omega
    obtain ⟨hrow, hpixel⟩ := quantValue_iff.mp h
    rw [decode, decodeEop, if_neg (mt (wholeRow_iff w 0x100000000#35).mp hbegin),
      if_neg (mt (symbolRow_iff w).mp hsymbol), if_neg (mt (wholeRow_iff w 0x300000000#35).mp hend),
      if_pos ((quantRow_iff w).mpr hrow), hpixel]

theorem decode_eq_ok_iff {word : InWord} {i : Instr} : decode word = .ok i ↔ Spells word i :=
  ⟨spells_of_decode, decode_of_spells⟩

theorem symbolWord_toNat (sym : BitVec 8) : (0b010#3 ++ (0#24 ++ sym)).toNat = 2 * 2 ^ 32 + sym.toNat := by
  rw [eop_toNat, BitVec.toNat_append]
  simp

theorem spells_encode (i : Instr) : Spells (encode i) i := by
  cases i with
  | start len => exact .start (cmd_toNat len 0x1#4)
  | addframe len => exact .addframe (cmd_toNat len 0x2#4)
  | finish len => exact .finish (cmd_toNat len 0x3#4)
  | oneshot len => exact .oneshot (cmd_toNat len 0x4#4)
  | lzwBegin => exact .lzwBegin rfl
  | lzwSymbol sym => exact .lzwSymbol (symbolWord_toNat sym)
  | lzwEnd => exact .lzwEnd rfl
  | quant pixel => exact .quant (eop_toNat 0b100#3 pixel)

theorem cmd_eq_of_toNat_eq {w w' : Word} {n : Nat} (h : w.toNat = n) (h' : w'.toNat = n) : InWord.cmd w = .cmd w' :=
  congrArg InWord.cmd (BitVec.eq_of_toNat_eq (h.trans h'.symm))

theorem eop_eq_of_toNat_eq {w w' : EopWord} {n : Nat} (h : w.toNat = n) (h' : w'.toNat = n) : InWord.eop w = .eop w' :=
  congrArg InWord.eop (BitVec.eq_of_toNat_eq (h.trans h'.symm))

/-- An instruction has one spelling: the format and the value fix the word. -/
theorem Spells.unique {word word' : InWord} {i : Instr} : Spells word i → Spells word' i → word = word'
  | .start h, .start h' => cmd_eq_of_toNat_eq h h'
  | .addframe h, .addframe h' => cmd_eq_of_toNat_eq h h'
  | .finish h, .finish h' => cmd_eq_of_toNat_eq h h'
  | .oneshot h, .oneshot h' => cmd_eq_of_toNat_eq h h'
  | .lzwBegin h, .lzwBegin h' => eop_eq_of_toNat_eq h h'
  | .lzwSymbol h, .lzwSymbol h' => eop_eq_of_toNat_eq h h'
  | .lzwEnd h, .lzwEnd h' => eop_eq_of_toNat_eq h h'
  | .quant h, .quant h' => eop_eq_of_toNat_eq h h'

theorem encode_eq_iff {word : InWord} {i : Instr} : encode i = word ↔ Spells word i :=
  ⟨fun h => h ▸ spells_encode i, (spells_encode i).unique⟩

/-- Settles O1: a word decodes to what it spells, and an instruction encodes to the one word that spells it. -/
theorem decodeEncodeInverse : Obligations.DecodeEncodeInverse := fun _ _ => decode_eq_ok_iff.trans encode_eq_iff.symm

section
variable (w : Word) (len : BitVec 24)

theorem decode_eq_start_iff : decode (.cmd w) = .ok (.start len) ↔ w.toNat = 256 * len.toNat + 1 :=
  decode_eq_ok_iff.trans ⟨fun | .start h => h, .start⟩

theorem decode_eq_addframe_iff : decode (.cmd w) = .ok (.addframe len) ↔ w.toNat = 256 * len.toNat + 2 :=
  decode_eq_ok_iff.trans ⟨fun | .addframe h => h, .addframe⟩

theorem decode_eq_finish_iff : decode (.cmd w) = .ok (.finish len) ↔ w.toNat = 256 * len.toNat + 3 :=
  decode_eq_ok_iff.trans ⟨fun | .finish h => h, .finish⟩

theorem decode_eq_oneshot_iff : decode (.cmd w) = .ok (.oneshot len) ↔ w.toNat = 256 * len.toNat + 4 :=
  decode_eq_ok_iff.trans ⟨fun | .oneshot h => h, .oneshot⟩

end

section
variable (w : EopWord)

theorem decode_eq_lzwBegin_iff : decode (.eop w) = .ok .lzwBegin ↔ w.toNat = 1 * 2 ^ 32 :=
  decode_eq_ok_iff.trans ⟨fun | .lzwBegin h => h, .lzwBegin⟩

theorem decode_eq_lzwSymbol_iff (sym : BitVec 8) :
    decode (.eop w) = .ok (.lzwSymbol sym) ↔ w.toNat = 2 * 2 ^ 32 + sym.toNat :=
  decode_eq_ok_iff.trans ⟨fun | .lzwSymbol h => h, .lzwSymbol⟩

theorem decode_eq_lzwEnd_iff : decode (.eop w) = .ok .lzwEnd ↔ w.toNat = 3 * 2 ^ 32 :=
  decode_eq_ok_iff.trans ⟨fun | .lzwEnd h => h, .lzwEnd⟩

theorem decode_eq_quant_iff (pixel : Word) :
    decode (.eop w) = .ok (.quant pixel) ↔ w.toNat = 4 * 2 ^ 32 + pixel.toNat :=
  decode_eq_ok_iff.trans ⟨fun | .quant h => h, .quant⟩

end

/-- Settles O3: each row's words by their value, from what a word spells. -/
theorem decodedFieldValues : Obligations.DecodedFieldValues :=
  ⟨fun w len => ⟨decode_eq_start_iff w len, decode_eq_addframe_iff w len, decode_eq_finish_iff w len,
    decode_eq_oneshot_iff w len⟩,
  fun w sym pixel => ⟨decode_eq_lzwBegin_iff w, decode_eq_lzwSymbol_iff w sym, decode_eq_lzwEnd_iff w,
    decode_eq_quant_iff w pixel⟩⟩

/-! #### The rows of the table, and the words that select none -/

/-- A `CMD` word that selects no row is an illegal command (30_encoding.md R110). -/
theorem decode_cmd_eq_error_iff (w : Word) :
    decode (.cmd w) = .error .illegalCommand ↔
      ∀ m ∈ [0x00000001#32, 0x00000002#32, 0x00000003#32, 0x00000004#32], w &&& 0x000000FF#32 ≠ m := by
  rw [decode, decodeCmd]
  split_ifs <;> simp [*]

/-- An `EOP` word that selects no row is rejected, for one reason or the other (30_encoding.md R112). -/
theorem decode_eop_eq_error_iff (w : EopWord) :
    (∃ reason, decode (.eop w) = .error reason) ↔
      w &&& 0x7FFFFFFFF#35 ≠ 0x100000000#35 ∧ w &&& 0x7FFFFFF00#35 ≠ 0x200000000#35 ∧
        w &&& 0x7FFFFFFFF#35 ≠ 0x300000000#35 ∧ w &&& 0x700000000#35 ≠ 0x400000000#35 := by
  rw [decode, decodeEop]
  split_ifs <;> simp [*]

/-- A row that leaves `LEN` open is selected exactly when the word has the row's value for some `LEN`. -/
theorem cmdRow_iff_exists_len (w : Word) {op : Nat} (hop : op < 256) :
    w &&& 0x000000FF#32 = BitVec.ofNat 32 op ↔ ∃ len : BitVec 24, w.toNat = 256 * len.toNat + op := by
  have hvalue : (BitVec.ofNat 32 op).toNat = op := Nat.mod_eq_of_lt (by omega)
  simp [cmdRow_iff, hvalue, cmdValue_iff hop]

theorem symbolRow_iff_exists_sym (w : EopWord) :
    w &&& 0x7FFFFFF00#35 = 0x200000000#35 ↔ ∃ sym : BitVec 8, w.toNat = 2 * 2 ^ 32 + sym.toNat := by
  simp only [symbolRow_iff, symbolValue_iff, exists_and_left, exists_eq', and_true]

theorem quantRow_iff_exists_pixel (w : EopWord) :
    w &&& 0x700000000#35 = 0x400000000#35 ↔ ∃ pixel : Word, w.toNat = 4 * 2 ^ 32 + pixel.toNat := by
  simp only [quantRow_iff, quantValue_iff, exists_and_left, exists_eq', and_true]

/-- Settles O2: a row's mask test and the decoder's answer say the same about the word's value. -/
theorem tableRowsSelectInstructions : Obligations.TableRowsSelectInstructions := by
  refine ⟨fun w => ⟨?_, ?_, ?_, ?_, (decode_cmd_eq_error_iff w).symm⟩,
    fun w => ⟨?_, ?_, ?_, ?_, (decode_eop_eq_error_iff w).symm⟩⟩
  · simpa only [decode_eq_start_iff] using cmdRow_iff_exists_len w (op := 1) (by decide)
  · simpa only [decode_eq_addframe_iff] using cmdRow_iff_exists_len w (op := 2) (by decide)
  · simpa only [decode_eq_finish_iff] using cmdRow_iff_exists_len w (op := 3) (by decide)
  · simpa only [decode_eq_oneshot_iff] using cmdRow_iff_exists_len w (op := 4) (by decide)
  · exact (wholeRow_iff w _).trans (decode_eq_lzwBegin_iff w).symm
  · simpa only [decode_eq_lzwSymbol_iff] using symbolRow_iff_exists_sym w
  · exact (wholeRow_iff w _).trans (decode_eq_lzwEnd_iff w).symm
  · simpa only [decode_eq_quant_iff] using quantRow_iff_exists_pixel w

/-- Settles O6: the decoder runs on the nine written-out words. -/
theorem sampleWordsDecode : Obligations.SampleWordsDecode := by
  unfold Obligations.SampleWordsDecode
  decide

end Sys2Proof

/-! ### The step on a word that stands for no instruction (30_encoding.md R110, R112) -/

namespace Sys2Proof.Machine

theorem step_of_illegal_command {s : State} {w : Word} {rest : List HostMove} {reason : Reject}
    (hinbox : s.env.inbox = .writeReg 0 w :: rest) (h : decode (.cmd w) = .error reason) :
    step s = .next (illegalCommand (s.setInbox rest)) :=
  step_of_hostMove_done hinbox (by simp only [hostMove, writeRegister, h])

theorem step_of_reserved_eop {s : State} {w : EopWord} {rest : List HostMove} {reason : Reject}
    (hinbox : s.env.inbox = .engineOp w :: rest) (h : decode (.eop w) = .error reason) :
    step s = .refused .reservedEop :=
  step_of_hostMove_done hinbox (by simp only [hostMove, driveEngine, h])

/-- Settles O4: such a word fits none of the four `CMD` rows, and the failure writes `RESULT` and the cause only. -/
theorem undefinedCommandWordFails : Obligations.UndefinedCommandWordFails := by
  intro s w rest hinbox hw
  have hop : w.toNat % 256 ≠ 1 ∧ w.toNat % 256 ≠ 2 ∧ w.toNat % 256 ≠ 3 ∧ w.toNat % 256 ≠ 4 := by omega
  have hdecode : decode (.cmd w) = .error .illegalCommand := by
    simpa [decode_cmd_eq_error_iff, cmdRow_iff] using hop
  exact step_of_illegal_command hinbox hdecode

/-- LZW_SYMBOL is refused for a symbol of `CLEAR` or more, whatever the state (42_lzw_engine.md R184). -/
theorem execLzwSymbol_refuses {sym : BitVec 8} (h : 4 ≤ sym.toNat) (s : State) :
    ∃ r, execLzwSymbol sym s = .refused r := by
  unfold execLzwSymbol
  split_ifs with hinactive hlegal
  · exact ⟨_, rfl⟩
  · exact ⟨_, rfl⟩
  · exact absurd h hlegal

/-- Settles O5: the reserved words fit none of the four `EOP` rows, and an LZW_SYMBOL with a symbol of `CLEAR` or more
either is one of them or is refused by its own check. -/
theorem reservedEngineWordRefused : Obligations.ReservedEngineWordRefused := by
  intro s w rest hinbox eopc earg
  have hreserved : (eopc = 0 ∨ 5 ≤ eopc ∨ (eopc = 1 ∨ eopc = 3) ∧ earg ≠ 0 ∨ eopc = 2 ∧ 256 ≤ earg) →
      step s = .refused .reservedEop := by
    intro h
    obtain ⟨reason, hdecode⟩ : ∃ reason, decode (.eop w) = .error reason := by
      rw [decode_eop_eq_error_iff]
      simp only [ne_eq, wholeRow_iff, symbolRow_iff, quantRow_iff, BitVec.toNat_ofNat]
      omega
    exact step_of_reserved_eop hinbox hdecode
  refine ⟨hreserved, fun hsymbol hillegal => ?_⟩
  by_cases hfits : earg < 256
  · have hdecode : decode (.eop w) = .ok (.lzwSymbol (symField w)) := by
      rw [decode_eq_lzwSymbol_iff, symField_toNat]
      omega
    rw [stepRunsDecodedInstruction s (.eop w) _ rest hinbox hdecode]
    refine execLzwSymbol_refuses ?_ _
    rw [symField_toNat]
    omega
  · exact ⟨_, hreserved (by omega)⟩

/-- Settles O58: the bytes stand in the definitions of the structural blocks, at this hardware's parameters. -/
theorem structuralBytes : Obligations.StructuralBytes := ⟨rfl, rfl, rfl, rfl, rfl, rfl⟩

end Sys2Proof.Machine

/-! ### The Quantizer: the weight by arithmetic on a pixel word's value (40_quantizer.md R130, R133) -/

namespace Sys2Proof.Machine

theorem pixelR_toNat (p : Word) : (pixelR p).toNat = p.toNat / 65536 % 256 := by
  rw [pixelR, BitVec.extractLsb'_toNat, Nat.shiftRight_eq_div_pow]

theorem pixelG_toNat (p : Word) : (pixelG p).toNat = p.toNat / 256 % 256 := by
  rw [pixelG, BitVec.extractLsb'_toNat, Nat.shiftRight_eq_div_pow]

theorem pixelB_toNat (p : Word) : (pixelB p).toNat = p.toNat % 256 := BitVec.extractLsb'_toNat 0 8 p

theorem lumaWeight_hw (p : Word) :
    lumaWeight Config.hw p =
      306 * (p.toNat / 65536 % 256) + 601 * (p.toNat / 256 % 256) + 117 * (p.toNat % 256) := by
  rw [← pixelR_toNat, ← pixelG_toNat, ← pixelB_toNat]
  rfl

theorem quantize_hw_eq_false_iff (p : Word) : quantize Config.hw p = false ↔ lumaWeight Config.hw p < 512 :=
  decide_eq_false_iff_not.trans Nat.not_le

/-- The weights below the threshold: the green weight alone reaches 512, two units of red do, five of blue do, and
beside one unit of red two of blue do (40_quantizer.md R133). -/
theorem weight_lt_threshold_iff (r g b : Nat) :
    306 * r + 601 * g + 117 * b < 512 ↔ g = 0 ∧ (r = 0 ∧ b ≤ 4 ∨ r = 1 ∧ b ≤ 1) := by
  omega

/-- Settles O15: the comparator gives 0 below the threshold, and the weights say which colours lie there. -/
theorem quantBlackColours : Obligations.QuantBlackColours := by
  intro p r g b
  rw [quantize_hw_eq_false_iff, lumaWeight_hw]
  exact weight_lt_threshold_iff r g b

/-- Settles O14: QUANT writes the comparator's bit and nothing else, and its weight is the one of R130. -/
theorem quantResult : Obligations.QuantResult := by
  intro s p
  rw [← lumaWeight_hw]
  rfl

end Sys2Proof.Machine

/-! ### START and FINISH: the requests for known answers, and what the two leave alone -/

namespace Sys2Proof.Machine

section
variable {s : State}

/-- A command that issued the transcript, each request of it answered, ends. -/
theorem settle_after {t : State} {tr : Transcript} (h : s.env.answersNext tr.length)
    (ht : t.env.log = s.env.log ++ tr) : settle s t = .next t :=
  settle_of_answersNext h (by rw [ht, List.length_append])

theorem startSession_of_open_ok (hidle : s.fmt.sess = .idle)
    (h : s.env.gives [(.openSink .session s.path, true)]) :
    startSession s = startOpened (s.setEnv (s.env.after [(.openSink .session s.path, true)])) := by
  simp only [startSession, hidle, sinkReq_of_gives h]

theorem startSession_of_open_fail (hidle : s.fmt.sess = .idle)
    (h : s.env.gives [(.openSink .session s.path, false)]) :
    startSession s = failCommand .ioFailure (s.setEnv (s.env.after [(.openSink .session s.path, false)])) := by
  simp only [startSession, hidle, sinkReq_of_gives h]

/-- A request in a state whose environment is given by what was issued before. -/
theorem sinkReq_setEnv_of_gives {r : Request} {a : Bool} {env : Env} (h : env.gives [(r, a)]) :
    sinkReq r (s.setEnv env) = (a, s.setEnv (env.after [(r, a)])) :=
  sinkReq_of_gives (s := s.setEnv env) h

/-- The signature accepted: the session is open (41_gif_formatter.md R141). -/
theorem startOpened_of_gives (h : s.env.gives (accepted .session sigBytes)) :
    startOpened s = completeCommand
      ((s.setEnv (s.env.after (accepted .session sigBytes))).setFmt (s.fmt.openSession s.path)) := by
  simp only [startOpened, writeAll_of_gives h, setEnv_fmt, setEnv_path]

/-- The signature cut off: CLOSE, whatever its answer (41_gif_formatter.md R142). -/
theorem startOpened_of_cutOff {k : Nat} {closed : Bool} (hk : k < sigBytes.length)
    (h : s.env.gives (cutOff .session sigBytes k ++ [(.close .session, closed)])) :
    startOpened s = failCommand .ioFailure
      (s.setEnv (s.env.after (cutOff .session sigBytes k ++ [(.close .session, closed)]))) := by
  obtain ⟨hsig, hclose⟩ := (Env.gives_append _ _ _).mp h
  simp only [startOpened, writeAll_of_cutOff hk hsig, sinkReq_setEnv_of_gives hclose, Env.after_after]

/-- Settles O16: OPEN and the six WRITEs of the signature take the seven answers. -/
theorem startOpensSession : Obligations.StartOpensSession := by
  intro s len hidle tr hg hn
  obtain ⟨hopen, hsig⟩ := (Env.gives_append s.env [(.openSink .session s.path, true)] _).mp hg
  have hrun : startSession s = _ := (startSession_of_open_ok hidle hopen).trans (startOpened_of_gives hsig)
  simp only [setEnv_env, setEnv_setEnv, Env.after_after] at hrun
  rw [exec, execStart, hrun]
  exact settle_after (tr := tr) hn rfl

/-- Settles O18: OPEN answered `fail` ends START; a signature byte answered `fail` is followed by CLOSE alone. -/
theorem startFailuresReleaseSink : Obligations.StartFailuresReleaseSink := by
  intro s len hidle
  constructor
  · intro tr htr hg hn
    subst htr
    rw [exec, execStart, startSession_of_open_fail hidle hg]
    exact settle_after hn rfl
  · intro k closed hk tr hg hn
    obtain ⟨hopen, hsig⟩ := (Env.gives_append s.env [(.openSink .session s.path, true)] _).mp hg
    have hrun : startSession s = _ := (startSession_of_open_ok hidle hopen).trans (startOpened_of_cutOff hk hsig)
    simp only [setEnv_env, setEnv_setEnv, Env.after_after] at hrun
    rw [exec, execStart, hrun]
    exact settle_after (tr := tr) hn rfl

/-! #### FINISH -/

/-- Trailer and CLOSE answered ok: RENAME decides how FINISH ends (41_gif_formatter.md R160). -/
theorem finishSession_of_close_ok {renamed : Bool} (hstarted : s.fmt.sess = .started) {tr : Transcript}
    (htr : tr = [(.write .session trailerByte, true), (.close .session, true),
      (.rename s.fmt.workPath s.path, renamed)]) (h : s.env.gives tr) :
    finishSession s = finishEnd renamed (s.setEnv (s.env.after tr)) := by
  subst htr
  obtain ⟨hwrite, h⟩ := (Env.gives_append s.env [(.write .session trailerByte, true)] _).mp h
  obtain ⟨hclose, hrename⟩ := (Env.gives_append _ [(.close .session, true)] _).mp h
  simp only [finishSession, hstarted, sinkReq_of_gives hwrite, finishClose, sinkReq_setEnv_of_gives hclose,
    Bool.and_self, setEnv_fmt, setEnv_path]
  rw [sinkReq_setEnv_of_gives hrename, Env.after_after, Env.after_after]
  rfl

/-- Trailer or CLOSE answered `fail`: no RENAME (41_gif_formatter.md R160). -/
theorem finishSession_of_close_fail {ok okClose : Bool} (hstarted : s.fmt.sess = .started)
    (hfail : (ok && okClose) = false) {tr : Transcript}
    (htr : tr = [(.write .session trailerByte, ok), (.close .session, okClose)]) (h : s.env.gives tr) :
    finishSession s = finishEnd false (s.setEnv (s.env.after tr)) := by
  subst htr
  obtain ⟨hwrite, hclose⟩ := (Env.gives_append s.env [(.write .session trailerByte, ok)] _).mp h
  simp only [finishSession, hstarted, sinkReq_of_gives hwrite, finishClose, sinkReq_setEnv_of_gives hclose, hfail,
    Env.after_after]
  rfl

/-- FINISH's failure after the requests of `tr`: DELETE of the work file, whatever its answer. -/
theorem finishEnd_fail_of_gives {tr : Transcript} {deleted : Bool}
    (h : (s.env.after tr).gives [(.delete s.fmt.workPath, deleted)]) :
    finishEnd false (s.setEnv (s.env.after tr)) = failCommand .ioFailure
      ((s.setEnv (s.env.after (tr ++ [(.delete s.fmt.workPath, deleted)]))).setFmt s.fmt.closeSession) := by
  simp only [finishEnd, setEnv_fmt, sinkReq_setEnv_of_gives h, Env.after_after]

/-- The rows of 41_gif_formatter.md R161 that end in a failure: RENAME or an earlier request is answered `fail`, and
DELETE is the last request. -/
theorem finishSession_of_fail {deleted : Bool} (hstarted : s.fmt.sess = .started) {tr : Transcript}
    (htr : tr = [(.write .session trailerByte, true), (.close .session, true),
        (.rename s.fmt.workPath s.path, false)] ∨
      ∃ ok okClose, (ok && okClose) = false ∧ tr = [(.write .session trailerByte, ok), (.close .session, okClose)])
    (h : s.env.gives (tr ++ [(.delete s.fmt.workPath, deleted)])) :
    finishSession s = failCommand .ioFailure
      ((s.setEnv (s.env.after (tr ++ [(.delete s.fmt.workPath, deleted)]))).setFmt s.fmt.closeSession) := by
  obtain ⟨hg, hdelete⟩ := (Env.gives_append _ _ _).mp h
  rw [← finishEnd_fail_of_gives hdelete]
  obtain htr | ⟨ok, okClose, hfail, htr⟩ := htr
  · exact finishSession_of_close_ok hstarted htr hg
  · exact finishSession_of_close_fail hstarted hfail htr hg

end

/-- Settles O23: the row is fixed by the answers to the trailer, CLOSE and RENAME; DELETE's answer is not read. -/
theorem finishRequestTable : Obligations.FinishRequestTable := by
  intro s len deleted hstarted trailer close rename delete
  refine ⟨fun tr htr hg hn => ?_, fun tr htr hg hn => ?_⟩
  · rw [exec, execFinish, finishSession_of_close_ok hstarted htr hg]
    exact settle_after hn rfl
  · obtain ⟨first, rfl, hfirst⟩ : ∃ first, tr = first ++ [(delete, deleted)] ∧
        (first = [(trailer, true), (close, true), (rename, false)] ∨
          ∃ ok okClose, (ok && okClose) = false ∧ first = [(trailer, ok), (close, okClose)]) := by
      simp only [List.mem_cons, List.not_mem_nil, or_false] at htr
      obtain rfl | rfl | rfl | rfl := htr
      · exact ⟨_, rfl, .inl rfl⟩
      · exact ⟨_, rfl, .inr ⟨_, _, rfl, rfl⟩⟩
      · exact ⟨_, rfl, .inr ⟨_, _, rfl, rfl⟩⟩
      · exact ⟨_, rfl, .inr ⟨_, _, rfl, rfl⟩⟩
    rw [exec, execFinish, finishSession_of_fail hstarted hfirst hg]
    exact settle_after hn rfl

/-- Settles O31: both issue requests and then write the formatter; a START that opens a session has `RESULT` 1. -/
theorem frameOfStartAndFinish : Obligations.FrameOfStartAndFinish := by
  intro s t len
  refine ⟨fun i hi h => ?_, fun h hresult => ?_, fun h => ?_⟩
  · cases exec_ran h with
    | startFails hu =>
      obtain ⟨tr, -, rfl⟩ := hu
      exact ⟨rfl, rfl, rfl, rfl, rfl⟩
    | startOpens _ hu =>
      obtain ⟨tr, -, rfl⟩ := hu
      exact ⟨rfl, rfl, rfl, rfl, rfl⟩
    | finishFails => exact ⟨rfl, rfl, rfl, rfl, rfl⟩
    | finishEnds _ hu hend =>
      obtain ⟨tr, -, rfl⟩ := hu
      obtain ⟨_, _, rfl⟩ := hend.eq_setFmt
      exact ⟨rfl, rfl, rfl, rfl, rfl⟩
    | addframe => simp at hi
    | oneshot => simp at hi
    | lzwBegin => simp at hi
    | lzwSymbol => simp at hi
    | lzwEnd => simp at hi
    | quant => simp at hi
  · cases exec_ran h with
    | startFails hu =>
      obtain ⟨tr, -, rfl⟩ := hu
      rfl
    | startOpens => simp at hresult
  · cases exec_ran h with
    | finishFails hidle => simp [Formatter.returned, ← hidle]
    | finishEnds _ hu hend =>
      obtain ⟨tr, -, rfl⟩ := hu
      obtain ⟨_, _, rfl⟩ := hend.eq_setFmt
      rfl

end Sys2Proof.Machine

/-! ### ADDFRAME and ONESHOT: what they leave alone -/

namespace Sys2Proof.Machine

/-- Settles O26: the shared path is tested first. -/
theorem oneShotSharedPathRefused : Obligations.OneShotSharedPathRefused := by
  intro s len hstarted hpath
  have hshared : sharesWorkPath s = true := by simp [sharesWorkPath, hstarted, hpath]
  rw [exec, execOneshot, if_pos hshared]

/-- Writes elsewhere leave a word as it is. -/
theorem Memory.read_foldl_write_of_not_mem {α : Type} [DecidableEq α] {unlisted : α} {writes : List (Nat × α)} {i : Nat}
    (h : ∀ cell ∈ writes, cell.1 ≠ i) (m : Memory α) :
    Memory.read unlisted (writes.foldl (fun m cell => Memory.write unlisted m cell.1 cell.2) m) i =
      Memory.read unlisted m i := by
  induction writes generalizing m with
  | nil => rfl
  | cons cell rest ih =>
    obtain ⟨hcell, hrest⟩ := List.forall_mem_cons.mp h
    exact (ih hrest _).trans (Memory.read_write_ne m hcell.symm _)

/-- A frame-buffer word that no write races is as before when the writes have landed (20_memory.md R78). -/
theorem landRaces_read {s : State} {i : Nat} (h : raced s i = false) :
    Memory.read unlistedPixel (landRaces s).fb i = Memory.read unlistedPixel s.fb i := by
  refine Memory.read_foldl_write_of_not_mem (fun cell hcell heq => ?_) s.fb
  have : raced s i = true := List.any_eq_true.mpr ⟨cell, hcell, by simpa using heq⟩
  rw [h] at this
  cases this

/-- From `s` to `t` a request was issued, and `first_pending` at most cleared. -/
structure Underway (s t : State) : Prop where
  log : s.env.log.length < t.env.log.length
  pending : t.fmt.firstPending = true → s.fmt.firstPending = true

/-- From `s` to `t` no request was taken back, and `first_pending` at most cleared. -/
structure Onward (s t : State) : Prop where
  log : s.env.log.length ≤ t.env.log.length
  pending : t.fmt.firstPending = true → s.fmt.firstPending = true

theorem Underway.bind {s : State} {r : Res} {f : State → Res} (hr : r.All (Underway s))
    (hf : ∀ t, (f t).All (Onward t)) : (r.bind f).All (Underway s) :=
  hr.bind (fun _ h => h) fun t ht => (hf t).mono fun _ h =>
    ⟨ht.log.trans_le h.log, fun hp => ht.pending (h.pending hp)⟩

theorem Onward.bind {s : State} {r : Res} {f : State → Res} (hr : r.All (Onward s))
    (hf : ∀ t, (f t).All (Onward t)) : (r.bind f).All (Onward s) :=
  hr.bind (fun _ h => h) fun t ht => (hf t).mono fun _ h =>
    ⟨ht.log.trans h.log, fun hp => ht.pending (h.pending hp)⟩

theorem IssuedOnly.onward {P : Request → Prop} {s t : State} (h : IssuedOnly P s t) : Onward s t := by
  obtain ⟨⟨tr, -, -, hlog, -⟩, hfmt⟩ := h
  exact ⟨by simp [hlog], fun hp => hfmt ▸ hp⟩

theorem out_onward (ctx : Ctx) (bytes : List Byte) (s : State) : (out (.sink ctx) bytes s).All (Onward s) :=
  (out_issuedOnly ctx s bytes).mono fun _ h => h.onward

theorem encodeFrame_onward (c : Config) (ctx : Ctx) (s : State) : (encodeFrame c ctx s).All (Onward s) :=
  (encodeFrame_issuedOnly c ctx s).mono fun _ h => h.onward

/-- `Write` of a byte or more issues a request at least. -/
theorem out_underway (ctx : Ctx) {bytes : List Byte} (hbytes : bytes ≠ []) (s : State) :
    (out (.sink ctx) bytes s).All (Underway s) := by
  have hpos : 0 < bytes.length := List.length_pos_iff.mpr hbytes
  rcases out_sink_cases ctx bytes s with ⟨-, h⟩ | ⟨k, hk, -, h⟩
  · rw [h]
    exact ⟨by simpa [Env.after] using hpos, id⟩
  · rw [h]
    exact ⟨by simp [Env.after, cutOff]; omega, id⟩

theorem writeHeader_onward (c : Config) (s : State) : (writeHeader c s).All (Onward s) := by
  unfold writeHeader
  split
  · exact Onward.bind (out_onward _ _ s) fun t1 => Onward.bind (out_onward _ _ t1) fun t2 => ⟨le_rfl, nofun⟩
  · exact ⟨le_rfl, id⟩

/-- The frame-record of ADDFRAME, without the header before it (41_gif_formatter.md R145). -/
def writeRecord (c : Config) (s : State) : Res :=
  (out (.sink .session) (gceBytes c) s).bind fun t1 =>
    (out (.sink .session) (idBytes c) t1).bind fun t2 => encodeFrame c .session t2

theorem writeFrame_eq (c : Config) (s : State) : writeFrame c s = (writeHeader c s).bind (writeRecord c) := rfl

theorem Underway.onward {s t : State} (h : Underway s t) : Onward s t := ⟨h.log.le, h.pending⟩

theorem writeRecord_underway (c : Config) (s : State) : (writeRecord c s).All (Underway s) :=
  Underway.bind (out_underway _ (by simp [gceBytes]) s) fun t1 => Onward.bind (out_onward _ _ t1) fun t2 =>
    encodeFrame_onward c _ t2

/-- ADDFRAME's first request is the first WRITE of `LSD`, or of `GCE` (41_gif_formatter.md R145). -/
theorem writeFrame_underway (c : Config) (s : State) : (writeFrame c s).All (Underway s) := by
  rw [writeFrame_eq]
  unfold writeHeader
  split
  · rw [Res.bind_assoc]
    refine Underway.bind (out_underway _ (by simp [lsdBytes]) s) fun t1 => Onward.bind ?_ fun t2 =>
      (writeRecord_underway c t2).mono fun _ h => h.onward
    exact Onward.bind (out_onward _ _ t1) fun t2 => ⟨le_rfl, nofun⟩
  · exact writeRecord_underway c s

/-- Rejected before its first request, the command changes `RESULT` and the cause only; else it is under way. -/
def RejectedOrUnderway (s t : State) : Prop :=
  (∃ cause, t = failCommand cause s) ∨ ∃ u, Underway s u ∧ Ended u t

theorem addFrame_rejectedOrUnderway {c : Config} {len : BitVec 24} {s t : State} (h : addFrame c len s = some t) :
    RejectedOrUnderway s t := by
  unfold addFrame at h
  split at h
  · cases h
    exact .inl ⟨_, rfl⟩
  · split at h
    · have hrun := writeFrame_underway c s
      cases hw : writeFrame c s with
      | ok u =>
        rw [hw] at h hrun
        cases h
        exact .inr ⟨u, hrun, .completed⟩
      | raised u =>
        rw [hw] at h hrun
        cases h
        exact .inr ⟨abandonEngine u, ⟨hrun.log, hrun.pending⟩, .failed nofun⟩
      | endless =>
        rw [hw] at h
        cases h
    · cases h
      exact .inl ⟨_, rfl⟩

theorem oneShot_rejectedOrUnderway {c : Config} {len : BitVec 24} {s t : State} (h : oneShot c len s = some t) :
    RejectedOrUnderway s t := by
  unfold oneShot at h
  split at h
  · have hopen : Underway s (sinkReq (.openSink .oneshot s.path) s).2 := ⟨by simp [sinkReq], id⟩
    rcases hreq : sinkReq (.openSink .oneshot s.path) s with ⟨_ | _, u⟩
    · simp only [hreq] at h hopen
      cases h
      exact .inr ⟨u, hopen, .failed nofun⟩
    · simp only [hreq] at h hopen
      obtain ⟨v, hv, hend⟩ := oneShotEnd_issuedOnly
        ((writeDocument_issuedOnly c u).mono fun _ hv => hv.mono fun _ => Request.On.notOn_session) h
      exact .inr ⟨v, ⟨hopen.log.trans_le hv.onward.log, fun hp => hopen.pending (hv.onward.pending hp)⟩, hend⟩
  · cases h
    exact .inl ⟨_, rfl⟩

theorem RejectedOrUnderway.pending {s t : State} (h : RejectedOrUnderway s t) (ht : t.fmt.firstPending = true) :
    s.fmt.firstPending = true := by
  obtain ⟨cause, rfl⟩ | ⟨u, hu, hend⟩ := h
  · exact ht
  · obtain ⟨_, _, rfl⟩ := hend.eq_setFmt
    exact hu.pending ht

/-- A command that issued no request was rejected. -/
theorem RejectedOrUnderway.rejected {s t : State} (h : RejectedOrUnderway s t) (hlog : t.env.log = s.env.log) :
    t.eng = s.eng ∧ t.pixIdx = s.pixIdx ∧ t.env.fbDraws = s.env.fbDraws := by
  obtain ⟨cause, rfl⟩ | ⟨u, hu, hend⟩ := h
  · exact ⟨rfl, rfl, rfl⟩
  · obtain ⟨_, _, rfl⟩ := hend.eq_setFmt
    exact absurd (congrArg List.length hlog) hu.log.ne'

/-- What ADDFRAME and ONESHOT leave alone, `v` being where the command ended, before the host's writes landed. -/
theorem landRaces_frame {s u v : State} (hu : FrameStep s u) (hend : Ended u v) :
    (landRaces v).path = s.path ∧ (landRaces v).fmt.sess = s.fmt.sess ∧ (landRaces v).fmt.workPath = s.fmt.workPath ∧
      (landRaces v).env = { s.env with
        answers := v.env.answers, log := v.env.log, racing := [], fbDraws := v.env.fbDraws } ∧
      ∀ a, raced s a = false →
        Memory.read unlistedPixel (landRaces v).fb a = Memory.read unlistedPixel s.fb a := by
  obtain ⟨_, _, rfl⟩ := hend.eq_setFmt
  obtain ⟨_, _, _, _, _, _, rfl⟩ := hu.frame
  exact ⟨rfl, rfl, rfl, rfl, fun a ha => landRaces_read (s := s) ha⟩

/-- Settles O32: ADDFRAME and ONESHOT keep within their frame, a rejected one issued no request, and of the frame buffer
only raced words change. -/
theorem frameOfFrameCommands : Obligations.FrameOfFrameCommands := by
  intro s t len
  simp only [List.forall_mem_cons]
  refine ⟨fun h => ?_, fun h => ?_, nofun⟩
  · obtain ⟨v, hv, rfl⟩ := frameOutcome_eq_next h
    obtain ⟨u, hu, hend⟩ := addFrame_cases hv
    obtain ⟨hpath, hsess, hwork, henv, hfb⟩ := landRaces_frame hu hend
    have hrun := addFrame_rejectedOrUnderway hv
    exact ⟨hpath, hsess, hwork, hrun.pending, nofun, henv, hfb, hrun.rejected⟩
  · obtain ⟨result, cause, hfmt⟩ := exec_oneshot_fmt h
    obtain ⟨v, hv, rfl⟩ := execOneshot_next h
    obtain ⟨u, hu, hend⟩ := oneShot_cases hv
    obtain ⟨hpath, hsess, hwork, henv, hfb⟩ := landRaces_frame hu hend
    have hrun := oneShot_rejectedOrUnderway hv
    exact ⟨hpath, hsess, hwork, hrun.pending, fun _ => by rw [hfmt]; rfl, henv, hfb, hrun.rejected⟩

end Sys2Proof.Machine

/-! ### The closed forms: the compressor step by step, the payload bit by bit, the sub-blocks packet by packet -/

namespace Sys2Proof.Machine

/-! #### The compressor (42_lzw_engine.md R192 to R196) -/

/-- The compressor after a miss with room in the dictionary: the pair is inserted, and `x` starts the next match. -/
def Coder.insertPair (c : Config) (k : Coder) (x : Nat) : Coder :=
  { dict := ((k.ent, x), k.free) :: k.dict, free := k.free + 1, width := k.grown c, ent := x }

/-- The compressor after a hit: the pair's code is the match. -/
def Coder.extend (k : Coder) (code : Nat) : Coder := { k with ent := code }

section
variable {c : Config} {k : Coder} {x : Nat} {xs : List Nat}

theorem codesFrom_nil : codesFrom c k [] = [(k.ent, k.width), (c.eofc, k.grown c)] := rfl

theorem codesFrom_hit {code : Nat} (h : k.dict.lookup (k.ent, x) = some code) :
    codesFrom c k (x :: xs) = codesFrom c (k.extend code) xs := by
  rw [codesFrom, h]
  rfl

theorem codesFrom_miss (h : k.dict.lookup (k.ent, x) = none) (hroom : k.free < c.maxMaxCode) :
    codesFrom c k (x :: xs) = (k.ent, k.width) :: codesFrom c (k.insertPair c x) xs := by
  rw [codesFrom, h]
  exact if_pos hroom

theorem codesFrom_full (h : k.dict.lookup (k.ent, x) = none) (hfull : ¬ k.free < c.maxMaxCode) :
    codesFrom c k (x :: xs) = (k.ent, k.width) :: (c.clear, k.grown c) :: codesFrom c (Coder.fresh c x) xs := by
  rw [codesFrom, h]
  exact if_neg hfull

end

/-- The ranges of 42_lzw_engine.md R214 in the compressor of the closed form. -/
structure Coder.InRange (k : Coder) : Prop where
  free_low : 6 ≤ k.free
  free_high : k.free ≤ 4096
  width_low : 3 ≤ k.width
  width_high : k.width ≤ 12
  width_fits : k.free ≤ 2 ^ k.width
  ent_range : k.ent < 4 ∨ 6 ≤ k.ent ∧ k.ent < k.free
  code_range : ∀ key code, k.dict.lookup key = some code → 6 ≤ code ∧ code < k.free

namespace Coder.InRange

variable {k : Coder} {x : Nat}

theorem fresh (hx : x < 4) : (Coder.fresh Config.hw x).InRange where
  free_low := le_rfl
  free_high := show (6 : Nat) ≤ 4096 by decide
  width_low := le_rfl
  width_high := show (3 : Nat) ≤ 12 by decide
  width_fits := show (6 : Nat) ≤ 2 ^ 3 by decide
  ent_range := .inl hx
  code_range := nofun

theorem extend (h : k.InRange) {key : Nat × Nat} {code : Nat} (hcode : k.dict.lookup key = some code) :
    (k.extend code).InRange :=
  { h with ent_range := .inr (h.code_range key code hcode) }

theorem ent_lt (h : k.InRange) : k.ent < 2 ^ k.width := by
  have h8 : 2 ^ 3 ≤ 2 ^ k.width := Nat.pow_le_pow_right (by omega) h.width_low
  have := h.width_fits
  have := h.ent_range
  omega

theorem ent_lt_4096 (h : k.InRange) : k.ent < 4096 := by
  have := h.free_high
  have := h.ent_range
  omega

theorem ent_ne_clear (h : k.InRange) : k.ent ≠ 4 := by
  have := h.ent_range
  omega

theorem ent_ne_eofc (h : k.InRange) : k.ent ≠ 5 := by
  have := h.ent_range
  omega

/-- The growth test (42_lzw_engine.md R196) asks whether the next code has reached `2^width`, and at 12 bits never
succeeds. -/
theorem grown_eq (h : k.InRange) :
    k.grown Config.hw = if k.free = 2 ^ k.width ∧ k.width < 12 then k.width + 1 else k.width := by
  have := h.width_fits
  have := h.free_high
  have := h.width_high
  have hpos : 0 < 2 ^ k.width := Nat.two_pow_pos _
  unfold Coder.grown maxcode
  rw [Config.hw_maxBits, Config.hw_maxMaxCode]
  split_ifs <;> omega

theorem grown_low (h : k.InRange) : 3 ≤ k.grown Config.hw := by
  have := h.width_low
  rw [h.grown_eq]
  split <;> omega

theorem grown_high (h : k.InRange) : k.grown Config.hw ≤ 12 := by
  have := h.width_high
  rw [h.grown_eq]
  split <;> omega

theorem insertPair (h : k.InRange) (hx : x < 4) (hroom : k.free < 4096) : (k.insertPair Config.hw x).InRange where
  free_low := h.free_low.trans (Nat.le_succ _)
  free_high := hroom
  width_low := h.grown_low
  width_high := h.grown_high
  width_fits := by
    show k.free + 1 ≤ 2 ^ k.grown Config.hw
    have hfits := h.width_fits
    rw [h.grown_eq]
    split
    · next hgrow =>
      rw [hgrow.1, Nat.pow_succ]
      have hpos := Nat.two_pow_pos k.width
      omega
    · next hsame =>
      rcases h.width_high.eq_or_lt with h12 | h12
      · rw [h12]
        exact hroom
      · exact Nat.lt_of_le_of_ne hfits fun hfull => hsame ⟨hfull, h12⟩
  ent_range := .inl hx
  code_range key code hcode := by
    have hfree := h.free_low
    show 6 ≤ code ∧ code < k.free + 1
    rw [Coder.insertPair, List.lookup_cons] at hcode
    split at hcode
    · cases hcode
      omega
    · have := h.code_range key code hcode
      omega

end Coder.InRange

/-- Every code fits its width, which is 3 at least (30_encoding.md R115). -/
def CodesFit (l : List (Nat × Nat)) : Prop := ∀ p ∈ l, p.1 < 2 ^ p.2 ∧ 3 ≤ p.2

theorem codesFit_cons {v n : Nat} {l : List (Nat × Nat)} : CodesFit ((v, n) :: l) ↔ (v < 2 ^ n ∧ 3 ≤ n) ∧ CodesFit l :=
  List.forall_mem_cons

/-- `CLEAR` and the EOFCode fit any width from 3 up. -/
theorem lt_two_pow_of_three_le {v n : Nat} (hv : v < 8) (hn : 3 ≤ n) : v < 2 ^ n :=
  hv.trans_le (Nat.pow_le_pow_right (by omega) hn : 2 ^ 3 ≤ 2 ^ n)

theorem codesFrom_fit {k : Coder} (h : k.InRange) {xs : List Nat} (hxs : ∀ x ∈ xs, x < 4) :
    CodesFit (codesFrom Config.hw k xs) := by
  induction xs generalizing k with
  | nil =>
    rw [codesFrom_nil, codesFit_cons, codesFit_cons]
    exact ⟨⟨h.ent_lt, h.width_low⟩, ⟨lt_two_pow_of_three_le (by decide) h.grown_low, h.grown_low⟩, nofun⟩
  | cons x xs ih =>
    obtain ⟨hx, hxs⟩ := List.forall_mem_cons.mp hxs
    cases hfind : k.dict.lookup (k.ent, x) with
    | some code =>
      rw [codesFrom_hit hfind]
      exact ih (h.extend hfind) hxs
    | none =>
      by_cases hroom : k.free < 4096
      · rw [codesFrom_miss (c := Config.hw) hfind hroom, codesFit_cons]
        exact ⟨⟨h.ent_lt, h.width_low⟩, ih (h.insertPair hx hroom) hxs⟩
      · rw [codesFrom_full (c := Config.hw) hfind hroom, codesFit_cons, codesFit_cons]
        exact ⟨⟨h.ent_lt, h.width_low⟩, ⟨lt_two_pow_of_three_le (by decide) h.grown_low, h.grown_low⟩,
          ih (Coder.InRange.fresh hx) hxs⟩

theorem codes_fit {q : List Nat} (hq : ∀ x ∈ q, x < 4) : CodesFit (codes Config.hw q) := by
  cases q with
  | nil => exact nofun
  | cons x xs =>
    obtain ⟨hx, hxs⟩ := List.forall_mem_cons.mp hq
    rw [codes, codesFit_cons]
    exact ⟨by decide, codesFrom_fit (Coder.InRange.fresh hx) hxs⟩

/-! #### The payload (42_lzw_engine.md R211) -/

section
variable {a b v n : Nat} {l : List (Nat × Nat)}

theorem payload_congr {l l' : List (Nat × Nat)} (hbits : totalBits l = totalBits l')
    (hnumber : streamNumber l = streamNumber l') : payload l = payload l' := by
  rw [payload, payload, hbits, hnumber]

/-- Bits that are none and zero change nothing. -/
theorem payload_cons_empty (l : List (Nat × Nat)) : payload ((0, 0) :: l) = payload l :=
  payload_congr (by simp [totalBits]) (by simp [streamNumber])

/-- A code packed above the buffered bits (42_lzw_engine.md R195). -/
theorem payload_pack : payload ((a, b) :: (v, n) :: l) = payload ((a + v * 2 ^ b, b + n) :: l) :=
  payload_congr (by simp [totalBits, Nat.add_assoc]) (by simp only [streamNumber]; ring)

/-- The low byte of the buffered bits is the payload's next byte (42_lzw_engine.md R195). -/
theorem payload_peel : payload ((a, b + 8) :: l) = BitVec.ofNat 8 a :: payload ((a / 256, b) :: l) := by
  have hbytes : (b + 8 + totalBits l + 7) / 8 = (b + totalBits l + 7) / 8 + 1 := by omega
  have hfirst : BitVec.ofNat 8 ((a + 2 ^ (b + 8) * streamNumber l) >>> (8 * 0)) = BitVec.ofNat 8 a := by
    apply BitVec.eq_of_toNat_eq
    rw [Nat.mul_zero, Nat.shiftRight_zero, BitVec.toNat_ofNat, BitVec.toNat_ofNat, Nat.pow_add, Nat.mul_right_comm,
      Nat.add_mul_mod_self_right]
  have hrest (i : Nat) : (a + 2 ^ (b + 8) * streamNumber l) >>> (8 * (i + 1)) =
      (a / 256 + 2 ^ b * streamNumber l) >>> (8 * i) := by
    rw [Nat.mul_succ, Nat.add_comm (8 * i), Nat.shiftRight_add, Nat.shiftRight_eq_div_pow _ 8,
      show a + 2 ^ (b + 8) * streamNumber l = a + 256 * (2 ^ b * streamNumber l) by ring,
      Nat.add_mul_div_left _ _ (by decide)]
  simp only [payload, totalBits, streamNumber, hbytes, List.range_succ_eq_map, List.map_cons, List.map_map, hfirst]
  congr 1
  exact List.map_congr_left fun i _ => congrArg _ (hrest i)

theorem payload_nothing (a : Nat) : payload [(a, 0)] = [] := by
  simp [payload, totalBits]

/-- The last partial byte (42_lzw_engine.md R198). -/
theorem payload_partial (hlow : 0 < b) (hhigh : b ≤ 7) : payload [(a, b)] = [BitVec.ofNat 8 a] := by
  have hone : (b + 0 + 7) / 8 = 1 := by omega
  simp [payload, totalBits, streamNumber, hone, List.range_succ]

end

/-! #### The sub-blocks (30_encoding.md R102) -/

/-- Beyond one chunk for each byte, more fuel changes nothing. -/
theorem subBlocksFrom_fuel {size : Nat} (hsize : 0 < size) {fuel fuel' : Nat} {p : List Byte} (h : p.length ≤ fuel)
    (h' : p.length ≤ fuel') : subBlocksFrom size fuel p = subBlocksFrom size fuel' p := by
  induction fuel generalizing fuel' p with
  | zero =>
    obtain rfl : p = [] := List.length_eq_zero_iff.mp (by omega)
    cases fuel' <;> simp [subBlocksFrom]
  | succ fuel ih =>
    by_cases hp : p = []
    · subst hp
      cases fuel' <;> simp [subBlocksFrom]
    · have hpos : 0 < p.length := List.length_pos_iff.mpr hp
      obtain ⟨fuel', rfl⟩ : ∃ n, fuel' = n + 1 := ⟨fuel' - 1, by omega⟩
      have hdrop : (p.drop size).length + 1 ≤ p.length := by
        rw [List.length_drop]
        omega
      rw [subBlocksFrom, subBlocksFrom, if_neg hp, if_neg hp, ih (fuel' := fuel') (by omega) (by omega)]

theorem subBlocks_nil : subBlocks Config.hw [] = [] := rfl

theorem subBlocks_of_ne_nil {p : List Byte} (hp : p ≠ []) :
    subBlocks Config.hw p =
      BitVec.ofNat 8 (p.take 254).length :: (p.take 254 ++ subBlocks Config.hw (p.drop 254)) := by
  obtain ⟨n, hn⟩ : ∃ n, p.length = n + 1 := ⟨p.length - 1, by have := List.length_pos_iff.mpr hp; omega⟩
  have hdrop : (p.drop 254).length ≤ n := by
    rw [List.length_drop]
    omega
  rw [subBlocks, hn, subBlocksFrom, if_neg hp, Config.hw_pktMax, subBlocks, Config.hw_pktMax,
    subBlocksFrom_fuel (by decide) hdrop le_rfl]

/-- A full packet is a sub-block (42_lzw_engine.md R200). -/
theorem subBlocks_full {p : List Byte} (hp : p.length = 254) (rest : List Byte) :
    subBlocks Config.hw (p ++ rest) = 254#8 :: (p ++ subBlocks Config.hw rest) := by
  have hne : p ++ rest ≠ [] := by
    intro h
    have := congrArg List.length h
    simp [hp] at this
  rw [subBlocks_of_ne_nil hne, List.take_left' hp, List.drop_left' hp, hp]

/-- The last packet, if there is one, is a sub-block (42_lzw_engine.md R198, R201). -/
theorem subBlocks_last {p : List Byte} (hne : p ≠ []) (hp : p.length ≤ 254) :
    subBlocks Config.hw p = BitVec.ofNat 8 p.length :: p := by
  rw [subBlocks_of_ne_nil hne, List.take_of_length_le hp, List.drop_of_length_le hp, subBlocks_nil, List.append_nil]

end Sys2Proof.Machine

/-! ### Operations that send a known sequence of bytes

`Produces port bytes Q s r`: the operation `r`, run from `s`, hands exactly `bytes` to `Out`, in order and wherever it
is cut off, and touches nothing outside the engine, `pix_idx` and the draws. On a sink this fixes every request of a frame,
for every answer of the host. -/

namespace Sys2Proof.Machine

theorem out_sink_of_cutOff {ctx : Ctx} {bytes : List Byte} {k : Nat} {s : State} (hk : k < bytes.length)
    (h : s.env.gives (cutOff ctx bytes k)) :
    out (.sink ctx) bytes s = .raised (s.setEnv (s.env.after (cutOff ctx bytes k))) := by
  simp [out, writeAll_of_cutOff hk h]

/-- The states agree on all but the engine, `pix_idx` and the draws. -/
structure SameButCoding (s t : State) : Prop where
  fmt : t.fmt = s.fmt
  path : t.path = s.path
  fb : t.fb = s.fb
  env : ∃ draws, t.env = { s.env with fbDraws := draws }

namespace SameButCoding

variable {s t u : State}

theorem refl (s : State) : SameButCoding s s := ⟨rfl, rfl, rfl, _, rfl⟩

theorem trans (h : SameButCoding s t) (h' : SameButCoding t u) : SameButCoding s u where
  fmt := h'.fmt.trans h.fmt
  path := h'.path.trans h.path
  fb := h'.fb.trans h.fb
  env := by
    obtain ⟨_, hst⟩ := h.env
    obtain ⟨draws, htu⟩ := h'.env
    exact ⟨draws, by rw [htu, hst]⟩

theorem setEng (s : State) (e : Engine) : SameButCoding s (s.setEng e) := ⟨rfl, rfl, rfl, _, rfl⟩

theorem setPixIdx (s : State) (i : BitVec 24) : SameButCoding s (s.setPixIdx i) := ⟨rfl, rfl, rfl, _, rfl⟩

theorem readPixel (i : Nat) (s : State) : SameButCoding s (readPixel i s).2 := by
  rcases readPixel_state i s with h | h
  · rw [h]
    exact refl s
  · rw [h]
    exact ⟨rfl, rfl, rfl, _, rfl⟩

theorem log (h : SameButCoding s t) : t.env.log = s.env.log := by
  obtain ⟨_, henv⟩ := h.env
  rw [henv]

theorem answers (h : SameButCoding s t) : t.env.answers = s.env.answers := by
  obtain ⟨_, henv⟩ := h.env
  rw [henv]

theorem racing (h : SameButCoding s t) : t.env.racing = s.env.racing := by
  obtain ⟨_, henv⟩ := h.env
  rw [henv]

theorem after (h : SameButCoding s t) (tr : Transcript) :
    SameButCoding (s.setEnv (s.env.after tr)) (t.setEnv (t.env.after tr)) := by
  obtain ⟨draws, henv⟩ := h.env
  exact ⟨h.fmt, h.path, h.fb, draws, by rw [setEnv_env, henv]; rfl⟩

/-- `Out` reads neither the engine nor the draws. -/
theorem out (h : SameButCoding s t) (port : Port) (bytes : List Byte) :
    ∃ u v, SameButCoding u v ∧
      (Machine.out port bytes s = .ok u ∧ Machine.out port bytes t = .ok v ∨
        Machine.out port bytes s = .raised u ∧ Machine.out port bytes t = .raised v) := by
  cases port with
  | list =>
    obtain ⟨draws, henv⟩ := h.env
    refine ⟨_, _, ?_, .inl ⟨out_list bytes s, out_list bytes t⟩⟩
    exact ⟨h.fmt, h.path, h.fb, draws, by rw [setEnv_env, henv]; rfl⟩
  | sink ctx =>
    have hgives (tr : Transcript) : s.env.gives tr → t.env.gives tr :=
      (Env.gives_congr h.log.symm h.answers.symm tr).mp
    rcases writeAll_cases ctx bytes s with ⟨hg, hs⟩ | ⟨k, hk, hg, hs⟩
    · refine ⟨_, _, h.after (accepted ctx bytes), .inl ⟨?_, ?_⟩⟩
      · exact out_sink_of_gives hg
      · exact out_sink_of_gives (hgives _ hg)
    · refine ⟨_, _, h.after (cutOff ctx bytes k), .inr ⟨?_, ?_⟩⟩
      · exact out_sink_of_cutOff hk hg
      · exact out_sink_of_cutOff hk (hgives _ hg)

end SameButCoding

theorem out_sink_cons (ctx : Ctx) (b : Byte) (bytes : List Byte) (s : State) :
    out (.sink ctx) (b :: bytes) s =
      if s.env.answerAt 0 then out (.sink ctx) bytes (s.setEnv (s.env.after [(.write ctx b, true)]))
      else .raised (s.setEnv (s.env.after [(.write ctx b, false)])) := by
  rw [out, writeAll_cons]
  cases s.env.answerAt 0 <;> rfl

/-- `Out` of two runs of bytes is `Out` of the one, then of the other. -/
theorem out_append (port : Port) (a b : List Byte) (s : State) :
    out port (a ++ b) s = (out port a s).bind (out port b) := by
  cases port with
  | list => simp [List.append_assoc]
  | sink ctx =>
    induction a generalizing s with
    | nil => rfl
    | cons x a ih =>
      rw [List.cons_append, out_sink_cons, out_sink_cons]
      split
      · exact ih _
      · rfl

/-- The operation sends `bytes`, and if it completes then in a state with `Q`. -/
inductive Produces (port : Port) (bytes : List Byte) (Q : State → Prop) (s : State) : Res → Prop
  | ok {u t : State} (hout : out port bytes s = .ok u) (hsame : SameButCoding u t) (hQ : Q t) :
    Produces port bytes Q s (.ok t)
  | raised {u t : State} (hout : out port bytes s = .raised u) (hsame : SameButCoding u t) :
    Produces port bytes Q s (.raised t)

namespace Produces

variable {port : Port} {a b : List Byte} {Q R : State → Prop} {s t : State} {r : Res} {f : State → Res}

theorem nothing (hs : Q s) : Produces port [] Q s (.ok s) := by
  cases port with
  | list => exact .ok (out_list [] s) ⟨rfl, rfl, rfl, s.env.fbDraws, by simp⟩ hs
  | sink ctx => exact .ok (u := s) rfl (SameButCoding.refl s) hs

/-- Where the engine, `pix_idx` or the draws change first. -/
theorem of_same (hst : SameButCoding s t) (h : Produces port b Q t r) : Produces port b Q s r := by
  obtain ⟨u, v, huv, ⟨hs, ht⟩ | ⟨hs, ht⟩⟩ := hst.out port b
  · cases h with
    | ok hout hsame hQ =>
      cases ht.symm.trans hout
      exact .ok hs (huv.trans hsame) hQ
    | raised hout => cases ht.symm.trans hout
  · cases h with
    | ok hout => cases ht.symm.trans hout
    | raised hout hsame =>
      cases ht.symm.trans hout
      exact .raised hs (huv.trans hsame)

/-- The bytes sent first, then those of the rest. -/
theorem bind (h : Produces port a Q s r) (hf : ∀ t, Q t → Produces port b R t (f t)) :
    Produces port (a ++ b) R s (r.bind f) := by
  cases h with
  | @ok u t hout hsame hQ =>
    have happend : Machine.out port (a ++ b) s = Machine.out port b u := by
      rw [out_append, hout]
      rfl
    have hrest : Produces port b R u (f t) := of_same hsame (hf t hQ)
    rw [Res.bind_ok]
    generalize f t = rest at hrest ⊢
    cases hrest with
    | ok hout' hsame' hR => exact .ok (happend.trans hout') hsame' hR
    | raised hout' hsame' => exact .raised (happend.trans hout') hsame'
  | raised hout hsame => exact .raised (by rw [out_append, hout]; rfl) hsame

theorem mono (h : Produces port b Q s r) (hQR : ∀ t, Q t → R t) : Produces port b R s r := by
  cases h with
  | ok hout hsame hQ => exact .ok hout hsame (hQR _ hQ)
  | raised hout hsame => exact .raised hout hsame

/-- `Out` itself, after which only the output has changed. -/
theorem out (port : Port) (bytes : List Byte) (s : State) :
    Produces port bytes (fun t => Machine.out port bytes s = .ok t) s (Machine.out port bytes s) := by
  cases hout : Machine.out port bytes s with
  | ok t => exact .ok hout (SameButCoding.refl t) rfl
  | raised t => exact .raised hout (SameButCoding.refl t)
  | endless =>
    obtain ⟨_, ⟨h, -⟩ | ⟨h, -⟩⟩ := out_of_env_eq (rfl : s.env = s.env) port bytes <;> cases hout.symm.trans h

/-- What a run accepted in full leaves. -/
theorem ok_of_gives {ctx : Ctx} (h : Produces (.sink ctx) b Q s r) (hg : s.env.gives (accepted ctx b)) :
    ∃ t, r = .ok t ∧ SameButCoding (s.setEnv (s.env.after (accepted ctx b))) t ∧ Q t := by
  have hok := out_sink_of_gives hg
  cases h with
  | ok hout hsame hQ =>
    cases hok.symm.trans hout
    exact ⟨_, rfl, hsame, hQ⟩
  | raised hout => cases hok.symm.trans hout

/-- What a run whose byte `k` is the first answered `fail` leaves. -/
theorem raised_of_cutOff {ctx : Ctx} {k : Nat} (h : Produces (.sink ctx) b Q s r) (hk : k < b.length)
    (hg : s.env.gives (cutOff ctx b k)) :
    ∃ t, r = .raised t ∧ SameButCoding (s.setEnv (s.env.after (cutOff ctx b k))) t := by
  have hfail := out_sink_of_cutOff hk hg
  cases h with
  | ok hout => cases hfail.symm.trans hout
  | raised hout hsame =>
    cases hfail.symm.trans hout
    exact ⟨_, rfl, hsame⟩

end Produces

end Sys2Proof.Machine

/-! ### The packer sends the payload (42_lzw_engine.md R195 to R201)

`Engine.owed e l` is what the engine has still to send if the codes `l` are all that is to come: the sub-blocks of the
packet's bytes and of the payload of the buffered bits followed by `l`. Each operation sends a front part of it and
leaves the rest owed, so each rule below takes the rest of the computation, `f`, along. -/

namespace Sys2Proof.Machine

/-- The bytes in the packet, oldest first. -/
def Engine.packet (e : Engine) : List Byte := packetBytes e e.pktCnt.toNat

/-- What is still to be sent for the codes `l` to come; the buffered bits count as a first code of their own. -/
def Engine.owed (e : Engine) (l : List (Nat × Nat)) : List Byte :=
  subBlocks Config.hw (e.packet ++ payload ((e.acc.toNat, e.accBits.toNat) :: l))

/-- The packet has room for a byte. -/
structure Engine.PacketOpen (e : Engine) : Prop where
  room : e.pktCnt.toNat < 254
  wf : Memory.wf unlistedByte e.pkt = true

/-- The engines differ in the packet at most. -/
def SameButPacket (e e' : Engine) : Prop := ∃ pkt count, e' = { e with pkt := pkt, pktCnt := count }

theorem Engine.packet_length (e : Engine) : e.packet.length = e.pktCnt.toNat := by
  simp [Engine.packet, packetBytes]

theorem Engine.packet_emptyPkt (e : Engine) : e.emptyPkt.packet = [] := rfl

theorem Engine.PacketOpen.storePkt_count {e : Engine} (h : e.PacketOpen) (b : Byte) :
    (e.storePkt b).pktCnt.toNat = e.pktCnt.toNat + 1 := by
  have := h.room
  rw [Engine.storePkt_pktCnt, BitVec.toNat_ofNat]
  omega

/-- A stored byte is the packet's last (42_lzw_engine.md R200). -/
theorem Engine.PacketOpen.packet_storePkt {e : Engine} (h : e.PacketOpen) (b : Byte) :
    (e.storePkt b).packet = e.packet ++ [b] := by
  have hold : ∀ k ∈ List.range e.pktCnt.toNat, (e.storePkt b).pktByte k = e.pktByte k := fun k hk =>
    Memory.read_write_ne _ (List.mem_range.mp hk).ne _
  have hnew : (e.storePkt b).pktByte e.pktCnt.toNat = b := Memory.read_write_same h.wf _ _
  rw [Engine.packet, h.storePkt_count, packetBytes, List.range_succ, List.map_append, List.map_congr_left hold,
    List.map_singleton, hnew]
  rfl

section
variable {port : Port} {Q : State → Prop} {s : State} {f : State → Res}

theorem EngineStep.of_out_ok {bytes : List Byte} {t : State} (h : out port bytes s = .ok t) : EngineStep port s t := by
  have hstep := out_step port bytes s
  rwa [h] at hstep

theorem eng_of_out_ok {bytes : List Byte} {t : State} (h : out port bytes s = .ok t) : t.eng = s.eng := by
  obtain ⟨env, ⟨hs, -⟩ | ⟨hs, -⟩⟩ := out_of_env_eq (rfl : s.env = s.env) port bytes
  · cases hs.symm.trans h
    rfl
  · cases hs.symm.trans h

/-- A packet that is full, or the last one, leaves as a sub-block (42_lzw_engine.md R201). -/
theorem flushPacket_produces {rest : List Byte} (hcount : s.eng.pktCnt.toNat ≤ 254)
    (hrest : s.eng.pktCnt.toNat = 254 ∨ rest = [])
    (hf : ∀ t, EngineStep port s t → t.eng = s.eng.emptyPkt →
      Produces port (subBlocks Config.hw rest) Q t (f t)) :
    Produces port (subBlocks Config.hw (s.eng.packet ++ rest)) Q s ((flushPacket port s).bind f) := by
  unfold flushPacket
  split
  · next hzero =>
    have hnil : s.eng.packet = [] := List.length_eq_zero_iff.mp (by rw [Engine.packet_length, hzero]; rfl)
    have hempty : s.eng = s.eng.emptyPkt := by
      unfold Engine.emptyPkt
      rw [← hzero]
    rw [hnil, List.nil_append]
    exact hf s (EngineStep.refl port s) hempty
  · next hzero =>
    have hblock : subBlocks Config.hw (s.eng.packet ++ rest) =
        (s.eng.pktCnt :: s.eng.packet) ++ subBlocks Config.hw rest := by
      rcases hrest with hfull | rfl
      · have hcnt : s.eng.pktCnt = 254#8 := BitVec.eq_of_toNat_eq hfull
        rw [subBlocks_full (by rw [Engine.packet_length, hfull]), hcnt, List.cons_append]
      · have hne : s.eng.packet ≠ [] := by
          intro hnil
          have hlen := s.eng.packet_length
          rw [hnil] at hlen
          exact hzero (BitVec.eq_of_toNat_eq hlen.symm)
        rw [List.append_nil, subBlocks_last hne (by rwa [Engine.packet_length]), Engine.packet_length,
          BitVec.ofNat_toNat, BitVec.setWidth_eq, subBlocks_nil, List.append_nil]
    rw [hblock, Res.bind_assoc]
    refine (Produces.out port _ s).bind fun t ht => ?_
    refine Produces.of_same (SameButCoding.setEng t t.eng.emptyPkt) (hf _ ?_ ?_)
    · exact (EngineStep.of_out_ok ht).trans (EngineStep.setEng port t _)
    · rw [setEng_eng, eng_of_out_ok ht]

/-- A byte pushed is the next of the payload; a full packet leaves (42_lzw_engine.md R200). -/
theorem pushByte_produces {b : Byte} {rest : List Byte} (h : s.eng.PacketOpen)
    (hf : ∀ t, EngineStep port s t → SameButPacket s.eng t.eng → t.eng.PacketOpen →
      Produces port (subBlocks Config.hw (t.eng.packet ++ rest)) Q t (f t)) :
    Produces port (subBlocks Config.hw (s.eng.packet ++ b :: rest)) Q s ((pushByte Config.hw port b s).bind f) := by
  have hcount := h.storePkt_count b
  have hwf : Memory.wf unlistedByte (s.eng.storePkt b).pkt = true := Memory.wf_write h.wf _ b
  have hroom := h.room
  rw [← List.singleton_append, ← List.append_assoc, ← h.packet_storePkt]
  refine Produces.of_same (SameButCoding.setEng s (s.eng.storePkt b)) ?_
  unfold pushByte flushIfFull
  rw [Config.hw_pktMax, setEng_eng]
  split
  · next hfull =>
    refine flushPacket_produces (s := s.setEng (s.eng.storePkt b)) (by rw [setEng_eng]; omega)
      (.inl (by rw [setEng_eng]; omega)) fun t hstep heng => ?_
    have hopen : t.eng.PacketOpen := ⟨by rw [heng]; exact empty_packet_room, by rw [heng]; exact hwf⟩
    have hrest := hf t ((EngineStep.setEng port s _).trans hstep) ⟨_, _, heng⟩ hopen
    rwa [heng, Engine.packet_emptyPkt, List.nil_append] at hrest
  · next hroom' =>
    exact hf _ (EngineStep.setEng port s _) ⟨_, _, rfl⟩ ⟨Nat.lt_of_not_le hroom', hwf⟩

/-- From `s` to `t` the packer moved `n` whole bytes into the packet. -/
structure Peeled (port : Port) (n : Nat) (s t : State) : Prop where
  step : EngineStep port s t
  frame : PackerFrame s t
  packet : t.eng.PacketOpen
  width : t.eng.nBits = s.eng.nBits
  acc : t.eng.acc.toNat = s.eng.acc.toNat / 256 ^ n
  bits : t.eng.accBits.toNat = s.eng.accBits.toNat - 8 * n

/-- The low byte, then `n` more. -/
theorem Peeled.succ {n : Nat} {t u : State} (hstep : EngineStep port s t) (hsame : SameButPacket s.eng t.eng)
    (hbits : 8 ≤ s.eng.accBits.toNat) (h : Peeled port n (t.setEng t.eng.dropByte) u) : Peeled port (n + 1) s u := by
  obtain ⟨pkt, count, heng⟩ := hsame
  have hframe : PackerFrame s (t.setEng t.eng.dropByte) := by
    rw [heng]
    exact ⟨rfl, rfl, rfl, rfl, rfl⟩
  refine ⟨hstep.trans ((EngineStep.setEng port t _).trans h.step), hframe.trans h.frame, h.packet, ?_, ?_, ?_⟩
  · rw [h.width, heng]
    rfl
  · rw [h.acc, heng, Nat.pow_succ, Nat.mul_comm, ← Nat.div_div_eq_div_mul]
    exact congrArg (· / 256 ^ n) (by simp [Nat.shiftRight_eq_div_pow])
  · have hlt := s.eng.accBits.isLt
    rw [h.bits, heng]
    simp only [setEng_eng, Engine.dropByte_accBits, BitVec.toNat_ofNat]
    omega

/-- The loop of `emit` (42_lzw_engine.md R195) sends nothing but what is owed. -/
theorem peelBytes_produces {n : Nat} {l : List (Nat × Nat)} (h : s.eng.PacketOpen) (hn : 8 * n ≤ s.eng.accBits.toNat)
    (hf : ∀ t, Peeled port n s t → Produces port (t.eng.owed l) Q t (f t)) :
    Produces port (s.eng.owed l) Q s ((peelBytes Config.hw port n s).bind f) := by
  induction n generalizing s with
  | zero => exact hf s ⟨EngineStep.refl port s, PackerFrame.refl s, h, rfl, (Nat.div_one _).symm, rfl⟩
  | succ n ih =>
    obtain ⟨m, hm⟩ : ∃ m, s.eng.accBits.toNat = m + 8 := ⟨s.eng.accBits.toNat - 8, by omega⟩
    have hlow : BitVec.ofNat 8 s.eng.acc.toNat = lowByte s.eng := by
      rw [BitVec.ofNat_toNat]
      rfl
    rw [Engine.owed, hm, payload_peel, hlow, peelBytes, Res.bind_assoc]
    refine pushByte_produces h fun t hstep hsame hopen => ?_
    refine Produces.of_same (SameButCoding.setEng t t.eng.dropByte) ?_
    have hacc : t.eng.dropByte.acc.toNat = s.eng.acc.toNat / 256 := by
      obtain ⟨pkt, count, heng⟩ := hsame
      rw [heng]
      simp [Nat.shiftRight_eq_div_pow]
    have hbits : t.eng.dropByte.accBits.toNat = m := by
      obtain ⟨pkt, count, heng⟩ := hsame
      have hlt := s.eng.accBits.isLt
      rw [heng]
      simp only [Engine.dropByte_accBits, BitVec.toNat_ofNat]
      omega
    have howed : (t.setEng t.eng.dropByte).eng.owed l =
        subBlocks Config.hw (t.eng.packet ++ payload ((s.eng.acc.toNat / 256, m) :: l)) := by
      rw [setEng_eng, Engine.owed, hacc, hbits]
      rfl
    rw [← howed]
    exact ih ⟨hopen.room, hopen.wf⟩ (by rw [setEng_eng, hbits]; omega) fun u hu =>
      hf u (Peeled.succ hstep hsame (by omega) hu)

/-- Between two codes fewer than 8 bits are buffered, and the packet is not full (42_lzw_engine.md R214). -/
structure Engine.PackerReady (e : Engine) : Prop where
  packet : e.PacketOpen
  bits : e.accBits.toNat ≤ 7
  acc : e.acc.toNat < 2 ^ e.accBits.toNat

theorem Engine.PackerReady.pack_bits {e : Engine} (h : e.PackerReady) (hwidth : e.nBits.toNat ≤ 12) (v : Nat) :
    (e.pack v).accBits.toNat = e.accBits.toNat + e.nBits.toNat := by
  have := h.bits
  rw [Engine.pack_accBits, BitVec.toNat_ofNat]
  omega

/-- A code that fits the width lands above the buffered bits (42_lzw_engine.md R195). -/
theorem Engine.PackerReady.pack_acc {e : Engine} (h : e.PackerReady) (hwidth : e.nBits.toNat ≤ 12) {v : Nat}
    (hv : v < 2 ^ e.nBits.toNat) :
    (e.pack v).acc.toNat = e.acc.toNat + v * 2 ^ e.accBits.toNat ∧
      e.acc.toNat + v * 2 ^ e.accBits.toNat < 2 ^ (e.accBits.toNat + e.nBits.toNat) := by
  have hfits : e.acc.toNat + v * 2 ^ e.accBits.toNat < 2 ^ (e.accBits.toNat + e.nBits.toNat) := by
    have hacc := h.acc
    have : (v + 1) * 2 ^ e.accBits.toNat ≤ 2 ^ e.nBits.toNat * 2 ^ e.accBits.toNat := Nat.mul_le_mul_right _ hv
    rw [Nat.pow_add, Nat.mul_comm (2 ^ e.accBits.toNat)]
    rw [Nat.succ_mul] at this
    omega
  refine ⟨?_, hfits⟩
  have hbound : 2 ^ (e.accBits.toNat + e.nBits.toNat) ≤ 2 ^ 19 :=
    Nat.pow_le_pow_right (by omega) (by have := h.bits; omega)
  rw [Engine.pack_acc, BitVec.toNat_ofNat, Nat.or_comm, ← Nat.shiftLeft_add_eq_or_of_lt h.acc, Nat.shiftLeft_eq,
    Nat.add_comm, Nat.mod_eq_of_lt (hfits.trans_le hbound)]

/-- From `s` to `t` the code `v` was emitted. -/
structure Emitted (port : Port) (v : Nat) (s t : State) : Prop where
  step : EngineStep port s t
  frame : PackerFrame s t
  ready : t.eng.PackerReady
  width : t.eng.nBits.toNat = nextWidth Config.hw v s.eng

theorem nextWidth_le {v : Nat} {e : Engine} (h : e.nBits.toNat ≤ 12) : nextWidth Config.hw v e ≤ 13 := by
  unfold nextWidth
  rw [Config.hw_ics]
  split_ifs <;> omega

theorem Peeled.emitted {v : Nat} {t : State} (hready : s.eng.PackerReady) (hwidth : s.eng.nBits.toNat ≤ 12)
    (hv : v < 2 ^ s.eng.nBits.toNat)
    (h : Peeled port ((s.eng.pack v).accBits.toNat / 8) (s.setEng (s.eng.pack v)) t) :
    Emitted port v s (t.setEng (t.eng.setWidth (nextWidth Config.hw v t.eng))) := by
  obtain ⟨hacc, hfits⟩ := hready.pack_acc hwidth hv
  have hbits := hready.pack_bits hwidth v
  have hframe : PackerFrame s t := PackerFrame.trans (t := s.setEng (s.eng.pack v)) ⟨rfl, rfl, rfl, rfl, rfl⟩ h.frame
  have hmod : t.eng.accBits.toNat = (s.eng.accBits.toNat + s.eng.nBits.toNat) % 8 := by
    rw [h.bits, setEng_eng, hbits]
    omega
  refine ⟨(EngineStep.setEng port s _).trans (h.step.trans (EngineStep.setEng port t _)), hframe,
    ⟨⟨h.packet.room, h.packet.wf⟩, ?_, ?_⟩, ?_⟩
  · show t.eng.accBits.toNat ≤ 7
    omega
  · show t.eng.acc.toNat < 2 ^ t.eng.accBits.toNat
    rw [h.acc, setEng_eng, hacc, hbits, hmod, Nat.div_lt_iff_lt_mul (by positivity),
      show (256 : Nat) = 2 ^ 8 by rfl, ← Nat.pow_mul, ← Nat.pow_add, Nat.mod_add_div]
    exact hfits
  · obtain ⟨-, -, hfree, -⟩ := hframe
    have hnext : nextWidth Config.hw v t.eng = nextWidth Config.hw v s.eng := by
      rw [nextWidth, nextWidth, hfree, h.width]
      rfl
    have hle := nextWidth_le (v := v) hwidth
    rw [hnext, setEng_eng, Engine.setWidth_nBits, BitVec.toNat_ofNat]
    omega

/-- `emit` (42_lzw_engine.md R195 to R197) sends a part of what is owed once the code is counted among the codes. -/
theorem emit_produces {v : Nat} {l : List (Nat × Nat)} (hready : s.eng.PackerReady) (hwidth : s.eng.nBits.toNat ≤ 12)
    (hv : v < 2 ^ s.eng.nBits.toNat) (hf : ∀ t, Emitted port v s t → Produces port (t.eng.owed l) Q t (f t)) :
    Produces port (s.eng.owed ((v, s.eng.nBits.toNat) :: l)) Q s ((emit Config.hw port v s).bind f) := by
  have howed : s.eng.owed ((v, s.eng.nBits.toNat) :: l) = (s.setEng (s.eng.pack v)).eng.owed l := by
    rw [setEng_eng, Engine.owed, Engine.owed, (hready.pack_acc hwidth hv).1, hready.pack_bits hwidth, payload_pack]
    rfl
  rw [howed, emit, Res.bind_assoc]
  refine Produces.of_same (SameButCoding.setEng s (s.eng.pack v)) ?_
  refine peelBytes_produces ⟨hready.packet.room, hready.packet.wf⟩ (by rw [setEng_eng]; omega) fun t ht => ?_
  exact Produces.of_same (SameButCoding.setEng t _) (hf _ (ht.emitted hready hwidth hv))

/-- LZW_BEGIN sends the code-size byte and counts `CLEAR` as the first code (42_lzw_engine.md R183). -/
theorem lzwBegin_produces {l : List (Nat × Nat)} (hwf : Memory.wf unlistedByte s.eng.pkt = true)
    (hf : ∀ t u, EngineStep port s t → t.eng = s.eng → Emitted port 4 (t.setEng (t.eng.begin Config.hw)) u →
      Produces port (u.eng.owed l) Q u (f u)) :
    Produces port (2#8 :: subBlocks Config.hw (payload ((4, 3) :: l))) Q s ((lzwBegin Config.hw port s).bind f) := by
  have hout : Produces port [2#8] _ s _ := Produces.out port [BitVec.ofNat 8 Config.hw.ics] s
  rw [← List.singleton_append, lzwBegin, Res.bind_assoc]
  refine hout.bind fun t ht => Produces.of_same (SameButCoding.setEng t (t.eng.begin Config.hw)) ?_
  have heng := eng_of_out_ok ht
  have howed : (t.setEng (t.eng.begin Config.hw)).eng.owed ((4, 3) :: l) =
      subBlocks Config.hw (payload ((4, 3) :: l)) := by
    rw [← payload_cons_empty ((4, 3) :: l)]
    rfl
  rw [← howed]
  refine emit_produces ⟨⟨show (0 : Nat) < 254 by decide, ?_⟩, show (0 : Nat) ≤ 7 by decide,
    show (0 : Nat) < 2 ^ 0 by decide⟩ (show (3 : Nat) ≤ 12 by decide) (show (4 : Nat) < 2 ^ 3 by decide)
    fun u hu => hf t u (EngineStep.of_out_ok ht) heng hu
  rw [setEng_eng, Engine.begin_pkt, heng]
  exact hwf

/-- The bit flush of LZW_END sends the last byte of the payload, if it is partial (42_lzw_engine.md R198). -/
theorem flushBits_produces (hready : s.eng.PackerReady)
    (hf : ∀ t, EngineStep port s t → t.eng.PacketOpen → Produces port (subBlocks Config.hw t.eng.packet) Q t (f t)) :
    Produces port (s.eng.owed []) Q s ((flushBits Config.hw port s).bind f) := by
  unfold flushBits
  split
  · next hzero =>
    have hnone : s.eng.owed [] = subBlocks Config.hw s.eng.packet := by
      rw [Engine.owed, hzero]
      show subBlocks Config.hw (s.eng.packet ++ payload [(s.eng.acc.toNat, 0)]) = _
      rw [payload_nothing, List.append_nil]
    rw [hnone]
    exact hf s (EngineStep.refl port s) hready.packet
  · next hzero =>
    have hpos : 0 < s.eng.accBits.toNat := Nat.pos_of_ne_zero fun h => hzero (BitVec.eq_of_toNat_eq h)
    have hlow : BitVec.ofNat 8 s.eng.acc.toNat = lowByte s.eng := by
      rw [BitVec.ofNat_toNat]
      rfl
    rw [Engine.owed, payload_partial hpos hready.bits, hlow, Res.bind_assoc]
    refine pushByte_produces hready.packet fun t hstep _ hopen => ?_
    refine Produces.of_same (SameButCoding.setEng t t.eng.clearAcc) ?_
    have hrest := hf (t.setEng t.eng.clearAcc) (hstep.trans (EngineStep.setEng port t _)) ⟨hopen.room, hopen.wf⟩
    rw [List.append_nil]
    exact hrest

/-- LZW_END sends all that is owed for the last match and the EOFCode (42_lzw_engine.md R198). -/
theorem lzwEnd_produces (hready : s.eng.PackerReady) (hwidth : s.eng.nBits.toNat ≤ 12)
    (hent : s.eng.ent.toNat < 2 ^ s.eng.nBits.toNat) (hlow : 3 ≤ nextWidth Config.hw s.eng.ent.toNat s.eng)
    (hhigh : nextWidth Config.hw s.eng.ent.toNat s.eng ≤ 12) (hQ : ∀ t, EngineStep port s t → Q t) :
    Produces port
      (s.eng.owed [(s.eng.ent.toNat, s.eng.nBits.toNat), (5, nextWidth Config.hw s.eng.ent.toNat s.eng)]) Q s
      (lzwEnd Config.hw port s) := by
  rw [lzwEnd]
  refine emit_produces hready hwidth hent fun t1 h1 => ?_
  rw [← h1.width]
  refine emit_produces h1.ready (h1.width ▸ hhigh) (lt_two_pow_of_three_le (by decide) (h1.width ▸ hlow))
    fun t2 h2 => ?_
  refine flushBits_produces h2.ready fun t3 h3 hopen => ?_
  rw [← List.append_nil t3.eng.packet]
  refine flushPacket_produces hopen.room.le (.inr rfl) fun t4 h4 _ => ?_
  refine Produces.of_same (SameButCoding.setEng t4 t4.eng.stop) (Produces.nothing (hQ _ ?_))
  exact h1.step.trans (h2.step.trans (h3.trans (h4.trans (EngineStep.setEng port t4 _))))

end

end Sys2Proof.Machine

/-! ### The dictionary in `HT` (42_lzw_engine.md R186 to R191, R210): searching, inserting, emptying -/

namespace Sys2Proof.Machine

/-! #### Keys (30_encoding.md R106) -/

theorem fcodeOf_toNat {sym ent : Nat} (hs : sym < 256) (he : ent < 4096) :
    (fcodeOf Config.hw sym ent).toNat = sym * 4096 + ent := by
  rw [fcodeOf, BitVec.toNat_ofNat, Config.hw_maxBits, Nat.shiftLeft_eq]
  omega

theorem Slot.prefixCode_eq (slot : Slot) : slot.prefixCode = slot.fcode.toNat % 4096 := by
  rw [Slot.prefixCode, BitVec.extractLsb'_toNat, Nat.shiftRight_zero]

theorem Slot.symbol_eq (slot : Slot) : slot.symbol = slot.fcode.toNat / 4096 := by
  have := slot.fcode.isLt
  rw [Slot.symbol, BitVec.extractLsb'_toNat, Nat.shiftRight_eq_div_pow]
  omega

/-- A slot's key is its pair: the code before, and the symbol. -/
theorem Slot.fcode_eq_iff {slot : Slot} {sym ent : Nat} (hs : sym < 256) (he : ent < 4096) :
    slot.fcode = fcodeOf Config.hw sym ent ↔ slot.prefixCode = ent ∧ slot.symbol = sym := by
  rw [← BitVec.toNat_inj, fcodeOf_toNat hs he, Slot.prefixCode_eq, Slot.symbol_eq]
  omega

/-! #### What the search says (42_lzw_engine.md R186) -/

section
variable {c : Config} {e : Engine} {fcode : BitVec 20} {disp fuel i j k sym ent : Nat}

theorem probeFrom_succ : probeFrom c e fcode disp (fuel + 1) i =
    if (e.slot i).valid = true ∧ (e.slot i).fcode = fcode then some (true, i)
    else if (e.slot i).valid = false then some (false, i)
    else probeFrom c e fcode disp fuel (nextProbe c disp i) := by
  simp only [probeFrom, Bool.and_eq_true, decide_eq_true_eq, Bool.not_eq_true']

theorem probeFrom_found_fcode (h : probeFrom c e fcode disp fuel i = some (true, k)) : (e.slot k).fcode = fcode := by
  induction fuel generalizing i with
  | zero => cases h
  | succ fuel ih =>
    rw [probeFrom_succ] at h
    split_ifs at h with hkey hempty
    · cases h
      exact hkey.2
    · cases h
    · exact ih h

theorem probeFrom_missed_empty (h : probeFrom c e fcode disp fuel i = some (false, k)) :
    (e.slot k).valid = false := by
  induction fuel generalizing i with
  | zero => cases h
  | succ fuel ih =>
    rw [probeFrom_succ] at h
    split_ifs at h with hkey hempty
    · cases h
    · cases h
      exact hempty
    · exact ih h

theorem slot_congr {e' : Engine} (h : e'.ht = e.ht) : e'.slot = e.slot := by
  funext k
  rw [Engine.slot, Engine.slot, h]

/-- The search reads the dictionary only. -/
theorem probeFrom_congr {e' : Engine} (h : e'.ht = e.ht) :
    probeFrom c e' fcode disp fuel i = probeFrom c e fcode disp fuel i := by
  induction fuel generalizing i with
  | zero => rfl
  | succ fuel ih => rw [probeFrom_succ, probeFrom_succ, slot_congr h, ih]

theorem lookup_congr {e' : Engine} (h : e'.ht = e.ht) : lookup c e' sym ent = lookup c e sym ent := probeFrom_congr h

theorem lookup_missed_empty (h : lookup c e sym ent = some (false, k)) : (e.slot k).valid = false :=
  probeFrom_missed_empty h

theorem DictionaryWf.congr {e' : Engine} (h : DictionaryWf c e) (hht : e'.ht = e.ht) (hfree : e'.freeEnt = e.freeEnt) :
    DictionaryWf c e' := by
  have hslot := slot_congr hht
  constructor
  · rw [hslot]
    exact h.index_range
  · rw [hslot, hfree]
    exact h.code_once
  · rw [hslot]
    exact h.key_once
  · rw [hslot]
    exact h.symbol_legal
  · rw [hslot]
    exact h.prefix_older
  · intro k
    rw [hslot, lookup_congr hht]
    exact h.found k

theorem HasEntry.congr {e' : Engine} (hht : e'.ht = e.ht) {pre code : Nat} :
    HasEntry e' pre sym code ↔ HasEntry e pre sym code := by
  simp only [HasEntry, Engine.slot, hht]

/-- A slot found holds the entry searched for. -/
theorem hasEntry_of_lookup (hs : sym < 256) (he : ent < 4096) (h : lookup Config.hw e sym ent = some (true, k)) :
    HasEntry e ent sym (e.slot k).code.toNat := by
  obtain ⟨hpre, hsym⟩ := (Slot.fcode_eq_iff hs he).mp (probeFrom_found_fcode h)
  exact ⟨k, lookup_found_valid h, hpre, hsym, rfl⟩

/-- The search finds every entry there is. -/
theorem DictionaryWf.lookup_of_hasEntry {code : Nat} (h : DictionaryWf c e) (hentry : HasEntry e ent sym code) :
    ∃ k, lookup c e sym ent = some (true, k) ∧ (e.slot k).code.toNat = code := by
  obtain ⟨k, hvalid, rfl, rfl, hcode⟩ := hentry
  exact ⟨k, h.found k hvalid, hcode⟩

theorem DictionaryWf.not_hasEntry_of_missed (h : DictionaryWf c e) (hmiss : lookup c e sym ent = some (false, k))
    (code : Nat) : ¬ HasEntry e ent sym code := by
  intro hentry
  obtain ⟨j, hfound, -⟩ := h.lookup_of_hasEntry hentry
  cases hmiss.symm.trans hfound

/-- The codes of the valid slots are among those given out so far (42_lzw_engine.md R210). -/
def CodesInRange (e : Engine) : Prop :=
  ∀ k, (e.slot k).valid = true → 6 ≤ (e.slot k).code.toNat ∧ (e.slot k).code.toNat < e.freeEnt.toNat

/-! #### The search ends (42_lzw_engine.md R188, R189) -/

/-- In the residues of `HSIZE` a probe is a subtraction. -/
theorem nextProbe_cast (hd : disp ≤ 5003) : ((nextProbe Config.hw disp i : Nat) : ZMod 5003) = i - disp := by
  unfold nextProbe
  rw [Config.hw_hsize]
  split
  · next hle => exact Nat.cast_sub hle
  · have h0 : ((5003 : Nat) : ZMod 5003) = 0 := ZMod.natCast_self 5003
    rw [Nat.cast_sub (by omega), Nat.cast_add, h0, add_zero]

theorem nextProbe_iterate_cast (hd : disp ≤ 5003) (k : Nat) :
    (((nextProbe Config.hw disp)^[k] i : Nat) : ZMod 5003) = i - k * disp := by
  induction k with
  | zero => simp
  | succ k ih =>
    rw [Function.iterate_succ_apply', nextProbe_cast hd, ih]
    push_cast
    ring

/-- `HSIZE` is prime, so the first `HSIZE` probes meet different slots. -/
theorem nextProbe_iterate_injOn (hlow : 0 < disp) (hhigh : disp < 5003) :
    Set.InjOn (fun k => (nextProbe Config.hw disp)^[k] i) (Finset.range 5003) := by
  have hprime : Fact (Nat.Prime 5003) := ⟨by norm_num⟩
  intro a ha b hb hab
  have ha' : a < 5003 := by simpa using ha
  have hb' : b < 5003 := by simpa using hb
  have hcast : (i : ZMod 5003) - a * disp = i - b * disp := by
    rw [← nextProbe_iterate_cast hhigh.le, ← nextProbe_iterate_cast hhigh.le]
    exact congrArg _ hab
  have hne : (disp : ZMod 5003) ≠ 0 := by
    rw [Ne, ZMod.natCast_eq_zero_iff]
    exact Nat.not_dvd_of_pos_of_lt hlow hhigh
  have heq : (a : ZMod 5003) = b := mul_right_cancel₀ hne (sub_right_injective hcast)
  rwa [ZMod.natCast_eq_natCast_iff', Nat.mod_eq_of_lt ha', Nat.mod_eq_of_lt hb'] at heq

theorem displacement_range (hi : i < 5003) :
    0 < displacement Config.hw i ∧ displacement Config.hw i < 5003 := by
  unfold displacement
  rw [Config.hw_hsize]
  split <;> omega

/-- A search that does not end has met valid slots only. -/
theorem valid_of_probeFrom_eq_none (h : probeFrom c e fcode disp fuel i = none) :
    ∀ k < fuel, (e.slot ((nextProbe c disp)^[k] i)).valid = true := by
  induction fuel generalizing i with
  | zero => exact nofun
  | succ fuel ih =>
    rw [probeFrom_succ] at h
    split_ifs at h with hkey hempty
    intro k hk
    cases k with
    | zero => exact Bool.eq_true_of_not_eq_false hempty
    | succ k => exact ih h k (by omega)

/-- There are fewer codes than slots, and each is in one slot, so the search meets its key or an empty slot. -/
theorem DictionaryWf.exists_lookup (h : DictionaryWf Config.hw e) (hcodes : CodesInRange e)
    (hfree : e.freeEnt.toNat ≤ 4096) (hs : sym < 256) (he : ent < 4096) : ∃ r, lookup Config.hw e sym ent = some r := by
  by_contra hnone
  have hprobe : lookup Config.hw e sym ent = none := by
    rw [Option.eq_none_iff_forall_ne_some]
    exact fun r hr => hnone ⟨r, hr⟩
  have hvalid := valid_of_probeFrom_eq_none hprobe
  obtain ⟨hlow, hhigh⟩ := displacement_range (hashIndex_lt hs he)
  obtain ⟨a, ha, b, hb, hne, hcode⟩ := Finset.exists_ne_map_eq_of_card_lt_of_maps_to
    (s := Finset.range 5003) (t := Finset.Ico 6 4096)
    (f := fun k => (e.slot ((nextProbe Config.hw (displacement Config.hw (hashIndex Config.hw sym ent)))^[k]
      (hashIndex Config.hw sym ent))).code.toNat) (by simp) (fun k hk => by
        obtain ⟨hlo, hhi⟩ := hcodes _ (hvalid k (by simpa using hk))
        exact Finset.mem_coe.mpr (Finset.mem_Ico.mpr ⟨hlo, hhi.trans_le hfree⟩))
  have hva := hvalid a (by simpa using ha)
  have hvb := hvalid b (by simpa using hb)
  obtain ⟨hca, hca'⟩ := hcodes _ hva
  obtain ⟨m, -, honce⟩ := h.code_once _ hca hca'
  exact hne (nextProbe_iterate_injOn hlow hhigh (by simpa using ha) (by simpa using hb)
    ((honce _ hva rfl).trans (honce _ hvb hcode.symm).symm))

/-! #### Inserting a pair (42_lzw_engine.md R185, R190) -/

/-- A key found before is found after an empty slot was filled. -/
theorem probeFrom_insert_of_found {key : BitVec 20} (hempty : (e.slot j).valid = false)
    (h : probeFrom c e key disp fuel i = some (true, k)) :
    probeFrom c (e.insert j fcode) key disp fuel i = some (true, k) := by
  induction fuel generalizing i with
  | zero => cases h
  | succ fuel ih =>
    rw [probeFrom_succ] at h
    have hne : (e.slot i).valid = true → i ≠ j := by
      rintro hv rfl
      simp [hv] at hempty
    split_ifs at h with hkey hfree
    · rw [probeFrom_succ, insert_slot_ne e (hne hkey.1), if_pos hkey]
      exact h
    · cases h
    · rw [probeFrom_succ, insert_slot_ne e (hne (Bool.eq_true_of_not_eq_false hfree)), if_neg hkey, if_neg hfree]
      exact ih h

/-- The inserted key is found where it was put: at the slot its search stopped at. -/
theorem probeFrom_insert_of_missed (hwf : Memory.wf unlistedSlot e.ht = true)
    (h : probeFrom c e fcode disp fuel i = some (false, j)) :
    probeFrom c (e.insert j fcode) fcode disp fuel i = some (true, j) := by
  have hempty := probeFrom_missed_empty h
  induction fuel generalizing i with
  | zero => cases h
  | succ fuel ih =>
    rw [probeFrom_succ] at h
    split_ifs at h with hkey hfree
    · cases h
    · cases h
      rw [probeFrom_succ, insert_slot_same hwf, if_pos ⟨rfl, rfl⟩]
    · have hne : i ≠ j := by
        rintro rfl
        exact hfree hempty
      rw [probeFrom_succ, insert_slot_ne e hne, if_neg hkey, if_neg hfree]
      exact ih h

/-- The slots of a dictionary with one pair more: the new one, and those of before. -/
theorem insert_slot_cases (hwf : Memory.wf unlistedSlot e.ht = true)
    (hvalid : ((e.insert j fcode).slot k).valid = true) :
    k = j ∧ (e.insert j fcode).slot k = { valid := true, fcode := fcode, code := BitVec.ofNat 12 e.freeEnt.toNat } ∨
      k ≠ j ∧ (e.insert j fcode).slot k = e.slot k ∧ (e.slot k).valid = true := by
  by_cases hk : k = j
  · subst hk
    exact .inl ⟨rfl, insert_slot_same hwf k fcode⟩
  · have hslot := insert_slot_ne e hk fcode
    exact .inr ⟨hk, hslot, hslot ▸ hvalid⟩

theorem newSlot_prefixCode (hs : sym < 256) (he : ent < 4096) (code : BitVec 12) :
    (Slot.mk true (fcodeOf Config.hw sym ent) code).prefixCode = ent :=
  ((Slot.fcode_eq_iff (slot := ⟨true, _, code⟩) hs he).mp rfl).1

theorem newSlot_symbol (hs : sym < 256) (he : ent < 4096) (code : BitVec 12) :
    (Slot.mk true (fcodeOf Config.hw sym ent) code).symbol = sym :=
  ((Slot.fcode_eq_iff (slot := ⟨true, _, code⟩) hs he).mp rfl).2

theorem newCode_toNat (hfree : e.freeEnt.toNat < 4096) : (BitVec.ofNat 12 e.freeEnt.toNat).toNat = e.freeEnt.toNat := by
  rw [BitVec.toNat_ofNat]
  exact Nat.mod_eq_of_lt hfree

theorem insert_freeEnt_toNat (hfree : e.freeEnt.toNat < 4096) :
    (e.insert j fcode).freeEnt.toNat = e.freeEnt.toNat + 1 := by
  rw [Engine.insert_freeEnt, BitVec.toNat_ofNat]
  omega

/-- The entries after an insertion: those of before and the new one. -/
theorem hasEntry_insert_iff (hwf : Memory.wf unlistedSlot e.ht = true) (hempty : (e.slot j).valid = false)
    (hfree : e.freeEnt.toNat < 4096) (hs : sym < 256) (he : ent < 4096) {pre x code : Nat} :
    HasEntry (e.insert j (fcodeOf Config.hw sym ent)) pre x code ↔
      pre = ent ∧ x = sym ∧ code = e.freeEnt.toNat ∨ HasEntry e pre x code := by
  constructor
  · rintro ⟨k, hvalid, rfl, rfl, rfl⟩
    rcases insert_slot_cases hwf hvalid with ⟨-, hslot⟩ | ⟨-, hslot, hvalid'⟩
    · rw [hslot]
      exact .inl ⟨newSlot_prefixCode hs he _, newSlot_symbol hs he _, newCode_toNat hfree⟩
    · rw [hslot]
      exact .inr ⟨k, hvalid', rfl, rfl, rfl⟩
  · rintro (⟨rfl, rfl, rfl⟩ | ⟨k, hvalid, hpre, hsym, hcode⟩)
    · refine ⟨j, ?_⟩
      rw [insert_slot_same hwf]
      exact ⟨rfl, newSlot_prefixCode hs he _, newSlot_symbol hs he _, newCode_toNat hfree⟩
    · have hk : k ≠ j := by
        rintro rfl
        simp [hvalid] at hempty
      refine ⟨k, ?_⟩
      rw [insert_slot_ne e hk]
      exact ⟨hvalid, hpre, hsym, hcode⟩

/-- The search for the pair `(ent, sym)` has stopped at the empty slot `j`, and the dictionary has room. -/
structure Insertable (e : Engine) (sym ent j : Nat) : Prop where
  dictionary : DictionaryWf Config.hw e
  wf : Memory.wf unlistedSlot e.ht = true
  codes : CodesInRange e
  low : 6 ≤ e.freeEnt.toNat
  room : e.freeEnt.toNat < 4096
  symbol : sym < 4
  pre : ent < 4 ∨ 6 ≤ ent ∧ ent < e.freeEnt.toNat
  missed : lookup Config.hw e sym ent = some (false, j)

namespace Insertable

variable (h : Insertable e sym ent j)

include h

theorem sym_lt : sym < 256 := h.symbol.trans (by decide)

theorem ent_lt : ent < 4096 := by
  have := h.pre
  have := h.room
  omega

theorem empty : (e.slot j).valid = false := lookup_missed_empty h.missed

theorem ne_of_valid (hvalid : (e.slot k).valid = true) : k ≠ j := by
  rintro rfl
  simp [h.empty] at hvalid

/-- The key is new. -/
theorem old_fcode_ne (hvalid : (e.slot k).valid = true) : (e.slot k).fcode ≠ fcodeOf Config.hw sym ent := by
  intro hkey
  obtain ⟨hpre, hsym⟩ := (Slot.fcode_eq_iff h.sym_lt h.ent_lt).mp hkey
  exact h.dictionary.not_hasEntry_of_missed h.missed _ ⟨k, hvalid, hpre, hsym, rfl⟩

/-- A property of all slots after the insertion: of the new one, and of those of before. -/
theorem forall_slot {P : Nat → Slot → Prop}
    (hnew : P j { valid := true, fcode := fcodeOf Config.hw sym ent, code := BitVec.ofNat 12 e.freeEnt.toNat })
    (hold : ∀ k, (e.slot k).valid = true → P k (e.slot k)) (k : Nat)
    (hvalid : ((e.insert j (fcodeOf Config.hw sym ent)).slot k).valid = true) :
    P k ((e.insert j (fcodeOf Config.hw sym ent)).slot k) := by
  obtain ⟨rfl, hslot⟩ | ⟨-, hslot, hvalid'⟩ := insert_slot_cases h.wf hvalid
  · exact hslot ▸ hnew
  · exact hslot ▸ hold k hvalid'

/-- The new code stands in the new slot, every other where it stood. -/
theorem code_once {code : Nat} (hlow : 6 ≤ code)
    (hhigh : code < (e.insert j (fcodeOf Config.hw sym ent)).freeEnt.toNat) :
    ∃ m, (((e.insert j (fcodeOf Config.hw sym ent)).slot m).valid = true ∧
        ((e.insert j (fcodeOf Config.hw sym ent)).slot m).code.toNat = code) ∧
      ∀ k, ((e.insert j (fcodeOf Config.hw sym ent)).slot k).valid = true →
        ((e.insert j (fcodeOf Config.hw sym ent)).slot k).code.toNat = code → k = m := by
  rw [insert_freeEnt_toNat h.room] at hhigh
  by_cases hcode : code = e.freeEnt.toNat
  · refine ⟨j, ?_, h.forall_slot (P := fun k slot => slot.code.toNat = code → k = j) (fun _ => rfl)
      fun k hvalid hk => ?_⟩
    · rw [insert_slot_same h.wf, hcode]
      exact ⟨rfl, newCode_toNat h.room⟩
    · have := (h.codes k hvalid).2
      omega
  · obtain ⟨m, ⟨hm, hmcode⟩, honce⟩ := h.dictionary.code_once code hlow (by omega)
    refine ⟨m, ?_, h.forall_slot (P := fun k slot => slot.code.toNat = code → k = m) (fun hk => ?_) honce⟩
    · rw [insert_slot_ne e (h.ne_of_valid hm)]
      exact ⟨hm, hmcode⟩
    · exact absurd (hk.symm.trans (newCode_toNat h.room)) hcode

theorem key_once {a b : Nat} (ha : ((e.insert j (fcodeOf Config.hw sym ent)).slot a).valid = true)
    (hb : ((e.insert j (fcodeOf Config.hw sym ent)).slot b).valid = true)
    (hab : ((e.insert j (fcodeOf Config.hw sym ent)).slot a).fcode =
      ((e.insert j (fcodeOf Config.hw sym ent)).slot b).fcode) : a = b := by
  obtain ⟨rfl, hsa⟩ | ⟨-, hsa, ha'⟩ := insert_slot_cases h.wf ha <;>
    obtain ⟨rfl, hsb⟩ | ⟨-, hsb, hb'⟩ := insert_slot_cases h.wf hb
  · rfl
  · rw [hsa, hsb] at hab
    exact absurd hab.symm (h.old_fcode_ne hb')
  · rw [hsa, hsb] at hab
    exact absurd hab (h.old_fcode_ne ha')
  · rw [hsa, hsb] at hab
    exact h.dictionary.key_once a b ha' hb' hab

/-- Inserting the pair keeps the dictionary well formed. -/
theorem dictionaryWf : DictionaryWf Config.hw (e.insert j (fcodeOf Config.hw sym ent)) where
  index_range := h.forall_slot (P := fun k _ => k < 5003) (lookup_lt h.sym_lt h.ent_lt h.missed)
    h.dictionary.index_range
  code_once _ hlow hhigh := h.code_once hlow hhigh
  key_once _ _ ha hb hab := h.key_once ha hb hab
  symbol_legal := h.forall_slot (P := fun _ slot => slot.symbol < 4)
    (by rw [newSlot_symbol h.sym_lt h.ent_lt]; exact h.symbol) h.dictionary.symbol_legal
  prefix_older := by
    refine h.forall_slot (P := fun _ slot => slot.prefixCode < slot.code.toNat ∧
      (slot.prefixCode < 4 ∨ 6 ≤ slot.prefixCode)) ?_ h.dictionary.prefix_older
    have hlow := h.low
    have hpre := h.pre
    rw [newSlot_prefixCode h.sym_lt h.ent_lt, newCode_toNat h.room]
    omega
  found := by
    refine h.forall_slot (P := fun k slot =>
      lookup Config.hw (e.insert j (fcodeOf Config.hw sym ent)) slot.symbol slot.prefixCode = some (true, k)) ?_ ?_
    · rw [newSlot_symbol h.sym_lt h.ent_lt, newSlot_prefixCode h.sym_lt h.ent_lt]
      exact probeFrom_insert_of_missed h.wf h.missed
    · exact fun k hvalid => probeFrom_insert_of_found h.empty (h.dictionary.found k hvalid)

end Insertable

/-- An empty dictionary is well formed. -/
theorem dictionaryWf_of_empty (hempty : ∀ k, (e.slot k).valid = false) (hfree : e.freeEnt.toNat = 6) :
    DictionaryWf Config.hw e := by
  have hno {k : Nat} {p : Prop} (hvalid : (e.slot k).valid = true) : p := by
    rw [hempty] at hvalid
    cases hvalid
  refine ⟨fun _ => hno, fun code hlo hhi => ?_, fun _ _ h => hno h, fun _ => hno, fun _ => hno, fun _ => hno⟩
  rw [Config.hw_first] at hlo
  omega

end

end Sys2Proof.Machine

/-! ### A frame's compression sends `LZWDATA` (42_lzw_engine.md R181, R211; 41_gif_formatter.md R150) -/

namespace Sys2Proof.Machine

theorem setEnt_ent_toNat {e : Engine} {v : Nat} (hv : v < 4096) : (e.setEnt v).ent.toNat = v := by
  rw [Engine.setEnt_ent, BitVec.toNat_ofNat]
  exact Nat.mod_eq_of_lt hv

/-- The packer is ready if it was, with the packet and the buffered bits as they were. -/
theorem Engine.PackerReady.congr {e e' : Engine} (h : e.PackerReady) (hpkt : e'.pkt = e.pkt)
    (hcount : e'.pktCnt = e.pktCnt) (hacc : e'.acc = e.acc) (hbits : e'.accBits = e.accBits) : e'.PackerReady :=
  ⟨⟨hcount ▸ h.packet.room, hpkt ▸ h.packet.wf⟩, hbits ▸ h.bits, hbits ▸ hacc ▸ h.acc⟩

/-- The engine with a match in hand stands where the closed form's compressor does. -/
structure Engine.Follows (e : Engine) (k : Coder) : Prop where
  haveEnt : e.haveEnt = true
  ent : e.ent.toNat = k.ent
  free : e.freeEnt.toNat = k.free
  width : e.nBits.toNat = k.width
  entry : ∀ pre sym code, HasEntry e pre sym code ↔ k.dict.lookup (pre, sym) = some code
  dictionary : DictionaryWf Config.hw e
  ht : Memory.wf unlistedSlot e.ht = true
  ready : e.PackerReady
  inRange : k.InRange

namespace Engine.Follows

variable {e : Engine} {k : Coder} {x : Nat}

theorem codesInRange (h : e.Follows k) : CodesInRange e := by
  intro j hvalid
  rw [h.free]
  exact h.inRange.code_range _ _ ((h.entry _ _ _).mp ⟨j, hvalid, rfl, rfl, rfl⟩)

theorem width_le (h : e.Follows k) : e.nBits.toNat ≤ 12 := h.width ▸ h.inRange.width_high

theorem ent_lt (h : e.Follows k) : e.ent.toNat < 2 ^ e.nBits.toNat := by
  rw [h.ent, h.width]
  exact h.inRange.ent_lt

theorem nextWidth_ent (h : e.Follows k) : nextWidth Config.hw e.ent.toNat e = k.grown Config.hw := by
  have hclear : k.ent ≠ Config.hw.clear := h.inRange.ent_ne_clear
  rw [nextWidth, h.ent, if_neg hclear, h.width, h.free]
  rfl

/-- The pair is in the finite map: the search finds its slot. -/
theorem lookup_hit (h : e.Follows k) {code : Nat} (hfind : k.dict.lookup (k.ent, x) = some code) :
    ∃ i, lookup Config.hw e x e.ent.toNat = some (true, i) ∧ (e.slot i).code.toNat = code := by
  rw [h.ent]
  exact h.dictionary.lookup_of_hasEntry ((h.entry _ _ _).mpr hfind)

/-- The pair is not in the finite map: the search stops at an empty slot. -/
theorem lookup_miss (h : e.Follows k) (hx : x < 4) (hfind : k.dict.lookup (k.ent, x) = none) :
    ∃ i, lookup Config.hw e x e.ent.toNat = some (false, i) := by
  have hx' : x < 256 := by omega
  obtain ⟨⟨hit, i⟩, hlookup⟩ := h.dictionary.exists_lookup h.codesInRange (h.free ▸ h.inRange.free_high) hx'
    e.ent.isLt
  cases hit with
  | false => exact ⟨i, hlookup⟩
  | true =>
    have hentry := (h.entry _ _ _).mp (hasEntry_of_lookup hx' e.ent.isLt hlookup)
    rw [h.ent, hfind] at hentry
    cases hentry

/-- A hit moves the match along (42_lzw_engine.md R192). -/
theorem extend (h : e.Follows k) {key : Nat × Nat} {code : Nat} (hfind : k.dict.lookup key = some code) :
    (e.setEnt code).Follows (k.extend code) where
  haveEnt := h.haveEnt
  ent := setEnt_ent_toNat (h.inRange.extend hfind).ent_lt_4096
  free := h.free
  width := h.width
  entry := h.entry
  dictionary := h.dictionary.congr rfl rfl
  ht := h.ht
  ready := h.ready.congr rfl rfl rfl rfl
  inRange := h.inRange.extend hfind

/-- With an empty dictionary the engine stands at the start of a segment (42_lzw_engine.md R183, R194). -/
theorem fresh (hx : x < 4) (hhave : e.haveEnt = true) (hent : e.ent.toNat = x) (hfree : e.freeEnt.toNat = 6)
    (hwidth : e.nBits.toNat = 3) (hempty : ∀ j, (e.slot j).valid = false)
    (hht : Memory.wf unlistedSlot e.ht = true) (hready : e.PackerReady) : e.Follows (Coder.fresh Config.hw x) where
  haveEnt := hhave
  ent := hent
  free := hfree
  width := hwidth
  entry pre sym code := by
    refine ⟨fun ⟨j, hvalid, _⟩ => ?_, nofun⟩
    rw [hempty] at hvalid
    cases hvalid
  dictionary := dictionaryWf_of_empty hempty hfree
  ht := hht
  ready := hready
  inRange := Coder.InRange.fresh hx

end Engine.Follows

/-- The finite map with one pair more. -/
theorem lookup_insertPair_iff {k : Coder} {x pre sym code : Nat} (hfind : k.dict.lookup (k.ent, x) = none) :
    (k.insertPair Config.hw x).dict.lookup (pre, sym) = some code ↔
      pre = k.ent ∧ sym = x ∧ code = k.free ∨ k.dict.lookup (pre, sym) = some code := by
  rw [Coder.insertPair, List.lookup_cons]
  by_cases hkey : (pre, sym) = (k.ent, x)
  · obtain ⟨rfl, rfl⟩ := Prod.mk.inj hkey
    simp [hfind, eq_comm]
  · have hne : ¬ (pre = k.ent ∧ sym = x) := fun ⟨hpre, hsym⟩ => hkey (by rw [hpre, hsym])
    have hbeq : ((pre, sym) == (k.ent, x)) = false := by simpa using hkey
    rw [hbeq]
    exact ⟨.inr, fun h => h.resolve_left fun ⟨hpre, hsym, _⟩ => hne ⟨hpre, hsym⟩⟩

/-- The search of a miss has stopped where the pair can be inserted, and `emit` changes nothing of this. -/
theorem Engine.Follows.insertable {port : Port} {s t : State} {k : Coder} {x i : Nat} (h : s.eng.Follows k)
    (hx : x < 4) (hmiss : lookup Config.hw s.eng x s.eng.ent.toNat = some (false, i)) (hroom : k.free < 4096)
    (hemit : Emitted port s.eng.ent.toNat s t) : Insertable (t.eng.setEnt x) x s.eng.ent.toNat i := by
  obtain ⟨-, -, hfree, -, hht⟩ := hemit.frame
  have hfree' : (t.eng.setEnt x).freeEnt.toNat = k.free := by rw [Engine.setEnt_freeEnt, hfree, h.free]
  refine ⟨h.dictionary.congr (e' := t.eng.setEnt x) hht hfree, ?_, fun j hvalid => ?_, hfree' ▸ h.inRange.free_low,
    hfree' ▸ hroom, hx, ?_, ?_⟩
  · rw [Engine.setEnt_ht, hht]
    exact h.ht
  · rw [slot_congr (e' := t.eng.setEnt x) hht] at hvalid ⊢
    rw [Engine.setEnt_freeEnt, hfree]
    exact h.codesInRange j hvalid
  · rw [hfree', h.ent]
    exact h.inRange.ent_range
  · rw [lookup_congr (e' := t.eng.setEnt x) hht]
    exact hmiss

/-- A miss with room inserts the pair (42_lzw_engine.md R193). -/
theorem Engine.Follows.insertPair {port : Port} {s t : State} {k : Coder} {x i : Nat} (h : s.eng.Follows k)
    (hx : x < 4) (hfind : k.dict.lookup (k.ent, x) = none)
    (hmiss : lookup Config.hw s.eng x s.eng.ent.toNat = some (false, i)) (hroom : k.free < 4096)
    (hemit : Emitted port s.eng.ent.toNat s t) :
    ((t.eng.setEnt x).insert i (fcodeOf Config.hw x s.eng.ent.toNat)).Follows (k.insertPair Config.hw x) := by
  obtain ⟨-, hhave, hfree, -, hht⟩ := hemit.frame
  have hins := h.insertable hx hmiss hroom hemit
  have hfree' : (t.eng.setEnt x).freeEnt.toNat = k.free := by rw [Engine.setEnt_freeEnt, hfree, h.free]
  refine ⟨hhave.trans h.haveEnt, setEnt_ent_toNat (e := t.eng) (by omega), ?_, hemit.width.trans h.nextWidth_ent,
    fun pre sym code => ?_, hins.dictionaryWf, Memory.wf_write hins.wf _ _, hemit.ready.congr rfl rfl rfl rfl,
    h.inRange.insertPair hx hroom⟩
  · rw [insert_freeEnt_toNat hins.room, hfree']
    rfl
  · rw [hasEntry_insert_iff hins.wf hins.empty hins.room hins.sym_lt hins.ent_lt, hfree', h.ent,
      lookup_insertPair_iff hfind, ← h.entry]
    exact or_congr_right (HasEntry.congr hht)

section
variable {port : Port} {Q : State → Prop} {s : State} {f : State → Res}

theorem hasRoom_hw {e : Engine} : hasRoom Config.hw e = true ↔ e.freeEnt.toNat < 4096 := decide_eq_true_iff

/-- A miss with room emits the match and inserts the pair (42_lzw_engine.md R193). -/
theorem lzwMiss_room_produces {k : Coder} {x i : Nat} {xs : List Nat} (h : s.eng.Follows k) (hx : x < 4)
    (hfind : k.dict.lookup (k.ent, x) = none)
    (hmiss : lookup Config.hw s.eng x s.eng.ent.toNat = some (false, i)) (hroom : k.free < 4096)
    (hf : ∀ t k', EngineStep port s t → t.eng.Follows k' →
      Produces port (t.eng.owed (codesFrom Config.hw k' xs)) Q t (f t)) :
    Produces port (s.eng.owed (codesFrom Config.hw k (x :: xs))) Q s ((lzwMiss Config.hw port x i s).bind f) := by
  rw [codesFrom_miss (c := Config.hw) hfind hroom, ← h.ent, ← h.width, lzwMiss, Res.bind_assoc]
  refine emit_produces h.ready h.width_le h.ent_lt fun t ht => ?_
  obtain ⟨-, -, hfree, -⟩ := ht.frame
  rw [if_pos (hasRoom_hw.mpr (by rw [hfree, h.free]; exact hroom))]
  exact Produces.of_same (SameButCoding.setEng t _)
    (hf _ _ (ht.step.trans (EngineStep.setEng port t _)) (h.insertPair hx hfind hmiss hroom ht))

/-- A miss with the dictionary full emits the match and `CLEAR`, and starts a segment at the symbol
(42_lzw_engine.md R194). -/
theorem lzwMiss_full_produces {k : Coder} {x i : Nat} {xs : List Nat} (h : s.eng.Follows k) (hx : x < 4)
    (hfind : k.dict.lookup (k.ent, x) = none) (hfull : ¬ k.free < 4096)
    (hf : ∀ t k', EngineStep port s t → t.eng.Follows k' →
      Produces port (t.eng.owed (codesFrom Config.hw k' xs)) Q t (f t)) :
    Produces port (s.eng.owed (codesFrom Config.hw k (x :: xs))) Q s ((lzwMiss Config.hw port x i s).bind f) := by
  rw [codesFrom_full (c := Config.hw) hfind hfull, ← h.nextWidth_ent, ← h.ent, ← h.width, lzwMiss, Res.bind_assoc]
  refine emit_produces h.ready h.width_le h.ent_lt fun t ht => ?_
  obtain ⟨-, hhave, hfree, -, hht⟩ := ht.frame
  have hgrown : t.eng.nBits.toNat = k.grown Config.hw := ht.width.trans h.nextWidth_ent
  rw [if_neg (fun hr => hfull (by rw [← h.free, ← hfree]; exact hasRoom_hw.mp hr)), Res.bind_assoc, ← ht.width]
  refine Produces.of_same (SameButCoding.setEng t (t.eng.setEnt x)) ?_
  refine emit_produces (s := t.setEng (t.eng.setEnt x)) (v := 4) (ht.ready.congr rfl rfl rfl rfl)
    (hgrown.trans_le h.inRange.grown_high)
    (lt_two_pow_of_three_le (by decide) (h.inRange.grown_low.trans_eq hgrown.symm)) fun u hu => ?_
  obtain ⟨hent', hhave', -, -, hht'⟩ := hu.frame
  refine Produces.of_same (SameButCoding.setEng u (u.eng.restart Config.hw))
    (hf (u.setEng (u.eng.restart Config.hw)) (Coder.fresh Config.hw x) ?_ ?_)
  · exact ht.step.trans ((EngineStep.setEng port t _).trans (hu.step.trans (EngineStep.setEng port u _)))
  · refine Engine.Follows.fresh hx ((hhave'.trans hhave).trans h.haveEnt) ?_ rfl hu.width (clearValid_slot_valid u.eng)
      (Memory.wf_mapAll _ ?_) (hu.ready.congr rfl rfl rfl rfl)
    · rw [setEng_eng, Engine.restart_ent, hent']
      exact setEnt_ent_toNat (by omega)
    · rw [hht', setEng_eng, Engine.setEnt_ht, hht]
      exact h.ht

/-- One symbol (42_lzw_engine.md R192 to R194) sends a part of what is owed for the rest of the input. -/
theorem lzwSymbol_produces {k : Coder} {x : Nat} {xs : List Nat} (h : s.eng.Follows k) (hx : x < 4)
    (hf : ∀ t k', EngineStep port s t → t.eng.Follows k' →
      Produces port (t.eng.owed (codesFrom Config.hw k' xs)) Q t (f t)) :
    Produces port (s.eng.owed (codesFrom Config.hw k (x :: xs))) Q s ((lzwSymbol Config.hw port x s).bind f) := by
  rw [lzwSymbol, if_pos h.haveEnt]
  cases hfind : k.dict.lookup (k.ent, x) with
  | some code =>
    obtain ⟨i, hlookup, rfl⟩ := h.lookup_hit hfind
    rw [codesFrom_hit hfind, hlookup]
    exact Produces.of_same (SameButCoding.setEng s _) (hf _ _ (EngineStep.setEng port s _) (h.extend hfind))
  | none =>
    obtain ⟨i, hlookup⟩ := h.lookup_miss hx hfind
    rw [hlookup]
    by_cases hroom : k.free < 4096
    · exact lzwMiss_room_produces h hx hfind hlookup hroom hf
    · exact lzwMiss_full_produces h hx hfind hroom hf

/-- After LZW_BEGIN the engine waits for its first symbol with an empty dictionary (42_lzw_engine.md R183). -/
structure Engine.Begun (e : Engine) : Prop where
  haveEnt : e.haveEnt = false
  free : e.freeEnt.toNat = 6
  width : e.nBits.toNat = 3
  empty : ∀ j, (e.slot j).valid = false
  ht : Memory.wf unlistedSlot e.ht = true
  ready : e.PackerReady

/-- The first symbol becomes the match and sends nothing (42_lzw_engine.md R185). -/
theorem firstSymbol_produces {x : Nat} {xs : List Nat} (h : s.eng.Begun) (hx : x < 4)
    (hf : ∀ t k', EngineStep port s t → t.eng.Follows k' →
      Produces port (t.eng.owed (codesFrom Config.hw k' xs)) Q t (f t)) :
    Produces port (s.eng.owed (codesFrom Config.hw (Coder.fresh Config.hw x) xs)) Q s
      ((lzwSymbol Config.hw port x s).bind f) := by
  rw [lzwSymbol, if_neg (by simp [h.haveEnt])]
  have hent : (s.eng.setEnt x).markEnt.ent.toNat = x := setEnt_ent_toNat (e := s.eng) (by omega)
  exact Produces.of_same (SameButCoding.setEng s _) (hf (s.setEng (s.eng.setEnt x).markEnt) _
    (EngineStep.setEng port s _) (Engine.Follows.fresh hx rfl hent h.free h.width h.empty h.ht
      (h.ready.congr rfl rfl rfl rfl)))

/-- LZW_BEGIN leaves the engine begun, and the codes after `CLEAR` owed. -/
theorem lzwBegin_begun_produces {l : List (Nat × Nat)} (hwf : s.eng.MemoriesWf)
    (hf : ∀ t, EngineStep port s t → t.eng.Begun → Produces port (t.eng.owed l) Q t (f t)) :
    Produces port (2#8 :: subBlocks Config.hw (payload ((4, 3) :: l))) Q s ((lzwBegin Config.hw port s).bind f) := by
  refine lzwBegin_produces hwf.2 fun t u ht heng hu => hf u ?_ ?_
  · exact ht.trans ((EngineStep.setEng port t _).trans hu.step)
  · obtain ⟨-, hhave, hfree, -, hht⟩ := hu.frame
    refine ⟨hhave, congrArg BitVec.toNat hfree, hu.width, fun j => ?_, ?_, hu.ready⟩
    · rw [Engine.slot, hht]
      exact clearValid_slot_valid t.eng j
    · rw [hht, setEng_eng, Engine.begin_ht, heng]
      exact Memory.wf_mapAll _ hwf.1

/-- LZW_END sends all that is owed (42_lzw_engine.md R198). -/
theorem lzwEnd_follows_produces {k : Coder} (h : s.eng.Follows k) (hQ : ∀ t, EngineStep port s t → Q t) :
    Produces port (s.eng.owed (codesFrom Config.hw k [])) Q s (lzwEnd Config.hw port s) := by
  have hcodes : codesFrom Config.hw k [] =
      [(s.eng.ent.toNat, s.eng.nBits.toNat), (5, nextWidth Config.hw s.eng.ent.toNat s.eng)] := by
    rw [codesFrom_nil, h.nextWidth_ent, h.ent, h.width]
    rfl
  rw [hcodes]
  refine lzwEnd_produces h.ready h.width_le h.ent_lt ?_ ?_ hQ
  · rw [h.nextWidth_ent]
    exact h.inRange.grown_low
  · rw [h.nextWidth_ent]
    exact h.inRange.grown_high

end

/-! #### The frame as read (20_memory.md R67, R78) -/

/-- In `t` the command that started in `s` is about to read pixel `i`. -/
structure FrameAt (s : State) (i : Nat) (t : State) : Prop where
  pixIdx : t.pixIdx.toNat = i
  fb : t.fb = s.fb
  racing : t.env.racing = s.env.racing
  draws : t.env.fbDraws = s.env.fbDraws + racedBefore s i

theorem racedBefore_succ (s : State) (i : Nat) :
    racedBefore s (i + 1) = racedBefore s i + if raced s i then 1 else 0 := by
  rw [racedBefore, List.range_succ, List.filter_append, List.length_append, List.filter_singleton, racedBefore]
  cases raced s i <;> rfl

/-- Pixel `i` reads as the frame's pixel `i`, and uses a draw if it is raced. -/
theorem FrameAt.readPixel {s t : State} {i : Nat} (h : FrameAt s i t) :
    (readPixel i t).1 = framePixel s i ∧
      (readPixel i t).2.env.fbDraws = s.env.fbDraws + racedBefore s (i + 1) := by
  have hraced : raced t i = raced s i := by rw [raced, raced, h.racing]
  have hcand : pixelCandidates t i = pixelCandidates s i := by rw [pixelCandidates, pixelCandidates, h.racing, h.fb]
  rw [racedBefore_succ, framePixel, Machine.readPixel, hraced, hcand, h.draws, h.fb]
  split
  · exact ⟨rfl, by rw [setEnv_env, Nat.add_assoc]⟩
  · exact ⟨rfl, h.draws⟩

/-- The quantised pixel `i` of the frame as read. -/
def frameSymbol (s : State) (i : Nat) : Nat := (quantize Config.hw (framePixel s i)).toNat

theorem frameSymbol_lt (s : State) (i : Nat) : frameSymbol s i < 4 := (Bool.toNat_lt _).trans (by decide)

theorem frameSymbols_eq (s : State) : frameSymbols Config.hw s = (List.range' 0 8192).map (frameSymbol s) := by
  rw [frameSymbols, List.range_eq_range']
  rfl

/-- The pixel after: the engine has consumed the symbol and `pix_idx` is one more (41_gif_formatter.md R150). -/
theorem FrameAt.next {port : Port} {s t u : State} {i : Nat} (h : FrameAt s i t) (hi : i < 8192)
    (hstep : EngineStep port (Machine.readPixel i t).2 u) :
    FrameAt s (i + 1) (u.setPixIdx (BitVec.ofNat 24 (u.pixIdx.toNat + 1))) := by
  have hread := SameButCoding.readPixel i t
  have hpix : (Machine.readPixel i t).2.pixIdx = t.pixIdx := by
    rcases readPixel_state i t with heq | heq
    · rw [heq]
    · rw [heq, setEnv_pixIdx]
  obtain ⟨-, hfb, hracing⟩ := hstep.sameHostSide
  refine ⟨?_, (hfb.trans hread.fb).trans h.fb, (hracing.trans hread.racing).trans h.racing, ?_⟩
  · rw [setPixIdx_pixIdx, hstep.pixIdx_eq, hpix, BitVec.toNat_ofNat, h.pixIdx]
    omega
  · have hdraws := h.readPixel.2
    obtain ⟨e, tr, bytes, rfl, -⟩ := hstep
    exact hdraws

section
variable {port : Port} {s : State}

/-- The rest of a frame from pixel `i` on: the loop and LZW_END (41_gif_formatter.md R150). -/
theorem frameLoop_produces {n i : Nat} {t : State} {k : Coder} (hat : FrameAt s i t) (hi : i + n ≤ 8192)
    (h : t.eng.Follows k) :
    Produces port (t.eng.owed (codesFrom Config.hw k ((List.range' i n).map (frameSymbol s))))
      (fun u => u.env.fbDraws = s.env.fbDraws + racedBefore s (i + n)) t
      ((frameLoop Config.hw port n t).bind (lzwEnd Config.hw port)) := by
  induction n generalizing i t k with
  | zero =>
    refine lzwEnd_follows_produces h fun u hu => ?_
    obtain ⟨e, tr, bytes, rfl, -⟩ := hu
    exact hat.draws
  | succ n ih =>
    rw [List.range'_succ, List.map_cons, frameLoop, Res.bind_assoc, hat.pixIdx, hat.readPixel.1,
      show i + (n + 1) = i + 1 + n by omega]
    refine Produces.of_same (SameButCoding.readPixel i t) ?_
    rw [← readPixel_eng i t] at h ⊢
    refine lzwSymbol_produces h (frameSymbol_lt s i) fun u k' hstep hu => ?_
    exact Produces.of_same (SameButCoding.setPixIdx u _) (ih (hat.next (by omega) hstep) (by omega) hu)

end

end Sys2Proof.Machine

/-! ### ADDFRAME and ONESHOT send the record and the document (41_gif_formatter.md R145, R150, R165) -/

namespace Sys2Proof.Machine

/-- In `t` the frame of `s` is still to be read. -/
structure SameFrame (s t : State) : Prop where
  fb : t.fb = s.fb
  racing : t.env.racing = s.env.racing
  draws : t.env.fbDraws = s.env.fbDraws

theorem SameFrame.trans {s t u : State} (h : SameFrame s t) (h' : SameFrame t u) : SameFrame s u :=
  ⟨h'.fb.trans h.fb, h'.racing.trans h.racing, h'.draws.trans h.draws⟩

theorem EngineStep.sameFrame {port : Port} {s t : State} (h : EngineStep port s t) : SameFrame s t := by
  obtain ⟨e, tr, bytes, rfl, -⟩ := h
  exact ⟨rfl, rfl, rfl⟩

theorem SameFrame.of_out_ok {port : Port} {bytes : List Byte} {s t : State} (h : out port bytes s = .ok t) :
    SameFrame s t :=
  (EngineStep.of_out_ok h).sameFrame

theorem SameFrame.frameAt {s t : State} (h : SameFrame s t) : FrameAt s 0 (t.setPixIdx 0#24) :=
  ⟨rfl, h.fb, h.racing, h.draws⟩

/-- All draws of the frame of `s` have been used. -/
def FrameRead (s t : State) : Prop := t.env.fbDraws = s.env.fbDraws + racedBefore s 8192

/-- The block of a frame without its terminator, the state before each part being related to `s` by the frame to be
read. -/
theorem frameBlock_produces {port : Port} {s t : State} (hframe : SameFrame s t) (hwf : t.eng.MemoriesWf) :
    Produces port (engineBytes Config.hw (frameSymbols Config.hw s)) (FrameRead s) t
      ((lzwBegin Config.hw port t).bind fun t1 =>
        (frameLoop Config.hw port (8191 + 1) (t1.setPixIdx 0#24)).bind (lzwEnd Config.hw port)) := by
  have hbytes : engineBytes Config.hw (frameSymbols Config.hw s) = 2#8 :: subBlocks Config.hw (payload ((4, 3) ::
      codesFrom Config.hw (Coder.fresh Config.hw (frameSymbol s 0)) ((List.range' 1 8191).map (frameSymbol s)))) := by
    rw [frameSymbols_eq, List.range'_succ]
    rfl
  rw [hbytes]
  refine lzwBegin_begun_produces hwf fun t1 hstep hbegun => ?_
  refine Produces.of_same (SameButCoding.setPixIdx t1 0#24) ?_
  have hat : FrameAt s 0 (t1.setPixIdx 0#24) := (hframe.trans hstep.sameFrame).frameAt
  rw [frameLoop, Res.bind_assoc, hat.pixIdx, hat.readPixel.1]
  refine Produces.of_same (SameButCoding.readPixel 0 _) ?_
  have hbegun' : (readPixel 0 (t1.setPixIdx 0#24)).2.eng.Begun := by
    rw [readPixel_eng]
    exact hbegun
  have howed (l : List (Nat × Nat)) : t1.eng.owed l = (readPixel 0 (t1.setPixIdx 0#24)).2.eng.owed l := by
    rw [readPixel_eng]
    rfl
  rw [howed]
  refine firstSymbol_produces hbegun' (frameSymbol_lt s 0) fun u k hstep' hu => ?_
  exact Produces.of_same (SameButCoding.setPixIdx u _) (frameLoop_produces (hat.next (by decide) hstep') (by decide) hu)

/-- `EncodeFrame` sends `LZWDATA` (30_encoding.md R101). -/
theorem encodeFrame_produces {ctx : Ctx} {s t : State} (hframe : SameFrame s t) (hwf : t.eng.MemoriesWf) :
    Produces (.sink ctx) (lzwData Config.hw (frameSymbols Config.hw s)) (FrameRead s) t
      (encodeFrame Config.hw ctx t) := by
  have hsplit : encodeFrame Config.hw ctx t = ((lzwBegin Config.hw (.sink ctx) t).bind fun t1 =>
      (frameLoop Config.hw (.sink ctx) (8191 + 1) (t1.setPixIdx 0#24)).bind (lzwEnd Config.hw (.sink ctx))).bind
        fun t3 => out (.sink ctx) [terminatorByte] t3 := by
    simp only [Res.bind_assoc]
    rfl
  rw [hsplit]
  refine (frameBlock_produces hframe hwf).bind fun u hu => (Produces.out _ _ u).mono fun v hv => ?_
  exact (SameFrame.of_out_ok hv).draws.trans hu

/-- ADDFRAME's record (30_encoding.md R93). -/
theorem writeRecord_produces {s t : State} (hframe : SameFrame s t) (hwf : t.eng.MemoriesWf) :
    Produces (.sink .session) (frameRecord Config.hw (frameSymbols Config.hw s)) (FrameRead s) t
      (writeRecord Config.hw t) := by
  rw [frameRecord, List.append_assoc]
  refine (Produces.out _ _ t).bind fun t1 h1 => (Produces.out _ _ t1).bind fun t2 h2 => ?_
  refine encodeFrame_produces (hframe.trans ((SameFrame.of_out_ok h1).trans (SameFrame.of_out_ok h2))) ?_
  rw [eng_of_out_ok h2, eng_of_out_ok h1]
  exact hwf

/-- ONESHOT's document (30_encoding.md R93). -/
theorem writeDocument_produces {s t : State} (hframe : SameFrame s t) (hwf : t.eng.MemoriesWf) :
    Produces (.sink .oneshot) (oneShotDocument Config.hw (frameSymbols Config.hw s)) (FrameRead s) t
      (writeDocument Config.hw t) := by
  simp only [oneShotDocument, List.append_assoc]
  refine (Produces.out _ _ t).bind fun t1 h1 => (Produces.out _ _ t1).bind fun t2 h2 =>
    (Produces.out _ _ t2).bind fun t3 h3 => (Produces.out _ _ t3).bind fun t4 h4 => ?_
  have hframe' : SameFrame s t4 := hframe.trans ((SameFrame.of_out_ok h1).trans ((SameFrame.of_out_ok h2).trans
    ((SameFrame.of_out_ok h3).trans (SameFrame.of_out_ok h4))))
  have hwf' : t4.eng.MemoriesWf := by
    rw [eng_of_out_ok h4, eng_of_out_ok h3, eng_of_out_ok h2, eng_of_out_ok h1]
    exact hwf
  refine (encodeFrame_produces hframe' hwf').bind fun u hu => (Produces.out _ _ u).mono fun v hv => ?_
  exact (SameFrame.of_out_ok hv).draws.trans hu

/-! #### The end of a frame command -/

theorem memoriesWf_of_canonical {s : State} (h : MemoriesCanonical s) : s.eng.MemoriesWf :=
  ⟨h.1, h.2.1⟩

theorem lenMatches_hw {len : BitVec 24} (h : len.toNat = 8192) : lenMatches Config.hw len = true :=
  decide_eq_true h

/-- After a command that issued `tr` and read pixels, when the host's writes have landed. -/
theorem landRaces_after {s t : State} {tr : Transcript} (h : SameButCoding (s.setEnv (s.env.after tr)) t) :
    (landRaces t).path = s.path ∧ (landRaces t).fb = (landRaces s).fb ∧
      (landRaces t).env = { s.env.after tr with racing := [], fbDraws := t.env.fbDraws } := by
  obtain ⟨-, hpath, hfb, draws, henv⟩ := h
  refine ⟨hpath, ?_, ?_⟩
  · show t.env.racing.foldl _ t.fb = s.env.racing.foldl _ s.fb
    rw [henv, hfb]
    rfl
  · show ({ t.env with racing := [] } : Env) = _
    rw [henv]
    rfl

/-- A command that ends in `t` ends when the host has answered the transcript. -/
theorem frameOutcome_after {s t : State} {tr : Transcript} (hn : s.env.answersNext tr.length)
    (h : t.env.log = s.env.log ++ tr) : frameOutcome s (some t) = .next (landRaces t) :=
  settle_after hn h

/-! #### ADDFRAME -/

/-- What the first ADDFRAME of a session writes before the record (41_gif_formatter.md R147). -/
def headerBytes (firstPending : Bool) : List Byte :=
  if firstPending then lsdBytes Config.hw ++ gctBytes Config.hw else []

theorem addedBytes_eq (firstPending : Bool) (q : List Nat) :
    addedBytes Config.hw firstPending q = headerBytes firstPending ++ frameRecord Config.hw q := rfl

section
variable {s : State}

theorem writeHeader_eq (s : State) :
    writeHeader Config.hw s = (out (.sink .session) (headerBytes s.fmt.firstPending) s).bind
      fun t => .ok (t.setFmt t.fmt.headerWritten) := by
  unfold writeHeader headerBytes
  split
  · rw [out_append, Res.bind_assoc]
  · next hpending =>
    have hsame : s.fmt.headerWritten = s.fmt := by
      rw [Bool.not_eq_true] at hpending
      rw [Formatter.headerWritten, ← hpending]
    show Res.ok s = Res.ok (s.setFmt s.fmt.headerWritten)
    rw [hsame]
    rfl

/-- The header accepted clears `first_pending` (41_gif_formatter.md R147). -/
theorem writeHeader_of_gives (h : s.env.gives (accepted .session (headerBytes s.fmt.firstPending))) :
    writeHeader Config.hw s = .ok ((s.setFmt s.fmt.headerWritten).setEnv
      (s.env.after (accepted .session (headerBytes s.fmt.firstPending)))) := by
  rw [writeHeader_eq, out_sink_of_gives h]
  rfl

theorem writeHeader_of_cutOff {k : Nat} (hk : k < (headerBytes s.fmt.firstPending).length)
    (h : s.env.gives (cutOff .session (headerBytes s.fmt.firstPending) k)) :
    writeHeader Config.hw s =
      .raised (s.setEnv (s.env.after (cutOff .session (headerBytes s.fmt.firstPending) k))) := by
  rw [writeHeader_eq, out_sink_of_cutOff hk h]
  rfl

theorem execAddframe_eq {len : BitVec 24} (hstarted : s.fmt.sess = .started) (hlen : len.toNat = 8192) :
    exec (.addframe len) s = frameOutcome s (addFrameEnd (writeFrame Config.hw s)) := by
  rw [exec, execAddframe, addFrame, hstarted]
  simp only [lenMatches_hw hlen, if_true]

/-- Settles O19: the header and the record are what ADDFRAME sends, and each byte of them is accepted. -/
theorem addFrameAppendsRecord : Obligations.AddFrameAppendsRecord := by
  intro s len hcanon hstarted hlen tr hg hn
  have htr : tr = accepted .session (headerBytes s.fmt.firstPending) ++
      accepted .session (frameRecord Config.hw (frameSymbols Config.hw s)) := accepted_append _ _ _
  rw [htr] at hg hn ⊢
  obtain ⟨hheader, hrecord⟩ := (Env.gives_append _ _ _).mp hg
  obtain ⟨t, hrun, hsame, hread⟩ := (writeRecord_produces (s := s)
    (t := (s.setFmt s.fmt.headerWritten).setEnv (s.env.after (accepted .session (headerBytes s.fmt.firstPending))))
    ⟨rfl, rfl, rfl⟩ (memoriesWf_of_canonical hcanon)).ok_of_gives hrecord
  rw [setEnv_setEnv, setEnv_env, Env.after_after] at hsame
  obtain ⟨hpath, hfb, henv⟩ := landRaces_after (s := s.setFmt s.fmt.headerWritten) hsame
  refine ⟨landRaces (completeCommand t), ?_, ?_, hpath, hfb, ?_⟩
  · rw [execAddframe_eq hstarted hlen, writeFrame_eq, writeHeader_of_gives hheader, Res.bind_ok, hrun]
    exact frameOutcome_after hn hsame.log
  · show t.fmt.returned true .none = _
    rw [hsame.fmt]
    rfl
  · rw [← hread]
    exact henv

theorem cutOff_append_left {ctx : Ctx} {a b : List Byte} {k : Nat} (hk : k < a.length) :
    cutOff ctx (a ++ b) k = cutOff ctx a k := by
  have hdrop : 1 ≤ (a.drop k).length := by
    rw [List.length_drop]
    omega
  rw [cutOff, cutOff, List.take_append_of_le_length hk.le, List.drop_append_of_le_length hk.le,
    List.take_append_of_le_length hdrop]

theorem cutOff_append_right {ctx : Ctx} {a b : List Byte} {k : Nat} (hk : a.length ≤ k) :
    cutOff ctx (a ++ b) k = accepted ctx a ++ cutOff ctx b (k - a.length) := by
  rw [cutOff, cutOff, List.take_append, List.drop_append, List.take_of_length_le hk, List.drop_of_length_le hk,
    List.nil_append, accepted_append, List.append_assoc]

/-- The header has 13 bytes: `LSD` and `GCT` (41_gif_formatter.md R147). -/
theorem headerBytes_length (firstPending : Bool) :
    (headerBytes firstPending).length = if firstPending then 13 else 0 := by
  cases firstPending <;> rfl

/-- Where ADDFRAME's `WRITE` number `k` fails: in the header, or after it with `first_pending` cleared. -/
theorem writeFrame_of_cutOff {k : Nat} (hwf : s.eng.MemoriesWf)
    (hk : k < (addedBytes Config.hw s.fmt.firstPending (frameSymbols Config.hw s)).length)
    (hg : s.env.gives (cutOff .session (addedBytes Config.hw s.fmt.firstPending (frameSymbols Config.hw s)) k)) :
    ∃ t, writeFrame Config.hw s = .raised t ∧
      SameButCoding ((s.setFmt { s.fmt with firstPending := s.fmt.firstPending && decide (k < 13) }).setEnv
        (s.env.after (cutOff .session (addedBytes Config.hw s.fmt.firstPending (frameSymbols Config.hw s)) k))) t := by
  rw [addedBytes_eq] at hk hg ⊢
  have hlength := headerBytes_length s.fmt.firstPending
  by_cases hin : k < (headerBytes s.fmt.firstPending).length
  · rw [cutOff_append_left hin] at hg ⊢
    have hflag : (s.fmt.firstPending && decide (k < 13)) = s.fmt.firstPending := by
      cases hpending : s.fmt.firstPending with
      | false => rfl
      | true =>
        rw [hpending] at hlength hin
        simpa [hlength] using hin
    rw [writeFrame_eq, writeHeader_of_cutOff hin hg, hflag]
    exact ⟨_, rfl, SameButCoding.refl _⟩
  · have hout : (headerBytes s.fmt.firstPending).length ≤ k := Nat.le_of_not_lt hin
    rw [cutOff_append_right hout] at hg ⊢
    obtain ⟨hheader, hrecord⟩ := (Env.gives_append _ _ _).mp hg
    have hflag : (s.fmt.firstPending && decide (k < 13)) = false := by
      cases hpending : s.fmt.firstPending with
      | false => rfl
      | true =>
        rw [hpending] at hlength hout
        simpa [hlength] using hout
    rw [List.length_append] at hk
    obtain ⟨t, hrun, hsame⟩ := (writeRecord_produces (s := s)
      (t := (s.setFmt s.fmt.headerWritten).setEnv (s.env.after (accepted .session (headerBytes s.fmt.firstPending))))
      ⟨rfl, rfl, rfl⟩ hwf).raised_of_cutOff (k := k - (headerBytes s.fmt.firstPending).length) (by omega) hrecord
    rw [setEnv_setEnv, setEnv_env, Env.after_after] at hsame
    rw [writeFrame_eq, writeHeader_of_gives hheader, hflag]
    exact ⟨t, hrun, hsame⟩

/-- Settles O20: ADDFRAME stops at the failed byte of what it sends, without a clean-up request. -/
theorem addFrameStopsAtFailedWrite : Obligations.AddFrameStopsAtFailedWrite := by
  intro s len k hcanon hstarted hlen hk tr hg hn
  obtain ⟨t, hrun, hsame⟩ := writeFrame_of_cutOff (memoriesWf_of_canonical hcanon) hk hg
  obtain ⟨hpath, hfb, -⟩ := landRaces_after
    (s := s.setFmt { s.fmt with firstPending := s.fmt.firstPending && decide (k < 13) }) hsame
  have hlog : t.env.log = s.env.log ++ tr := hsame.log
  refine ⟨landRaces (failCommand .ioFailure (abandonEngine t)), ?_, ?_, hpath, hfb, hlog, hsame.answers⟩
  · rw [execAddframe_eq hstarted hlen, hrun]
    exact frameOutcome_after hn hlog
  · show t.fmt.returned false .ioFailure = _
    rw [hsame.fmt]
    rfl

/-! #### ONESHOT -/

theorem oneShotEnd_of_close_ok {t : State} (h : t.env.gives [(.close .oneshot, true)]) :
    oneShotEnd (.ok t) = some (completeCommand (t.setEnv (t.env.after [(.close .oneshot, true)]))) := by
  simp only [oneShotEnd, sinkReq_of_gives h]

/-- The clean-up of a ONESHOT that failed: CLOSE, then DELETE of `PATH`. -/
theorem closeThenDelete_of_gives {t : State} {closed deleted : Bool}
    (h : t.env.gives [(.close .oneshot, closed), (.delete t.path, deleted)]) :
    (sinkReq (.delete (sinkReq (.close .oneshot) t).2.path) (sinkReq (.close .oneshot) t).2).2 =
      t.setEnv (t.env.after [(.close .oneshot, closed), (.delete t.path, deleted)]) := by
  obtain ⟨hclose, hdelete⟩ := (Env.gives_append t.env [(.close .oneshot, closed)] _).mp h
  rw [sinkReq_of_gives hclose]
  dsimp only
  rw [setEnv_path, sinkReq_setEnv_of_gives hdelete, Env.after_after]
  rfl

/-- CLOSE fails: DELETE follows (41_gif_formatter.md R166). -/
theorem oneShotEnd_of_close_fail {t : State} {deleted : Bool}
    (h : t.env.gives [(.close .oneshot, false), (.delete t.path, deleted)]) :
    oneShotEnd (.ok t) = some (failCommand .ioFailure
      (t.setEnv (t.env.after [(.close .oneshot, false), (.delete t.path, deleted)]))) := by
  have hclean := closeThenDelete_of_gives h
  obtain ⟨hclose, -⟩ := (Env.gives_append t.env [(.close .oneshot, false)] _).mp h
  rw [sinkReq_of_gives hclose] at hclean
  rw [oneShotEnd, sinkReq_of_gives hclose]
  dsimp only at hclean ⊢
  rw [hclean]

/-- The document is cut off: CLOSE and DELETE follow, whatever their answers (41_gif_formatter.md R166). -/
theorem oneShotEnd_of_raised {t : State} {closed deleted : Bool}
    (h : t.env.gives [(.close .oneshot, closed), (.delete t.path, deleted)]) :
    oneShotEnd (.raised t) = some (failCommand .ioFailure
      ((abandonEngine t).setEnv (t.env.after [(.close .oneshot, closed), (.delete t.path, deleted)]))) := by
  have hclean := closeThenDelete_of_gives (t := abandonEngine t) h
  simp only [oneShotEnd, hclean]
  rfl

/-- ONESHOT with OPEN answered ok, from its document on. -/
theorem oneShot_of_open_ok {len : BitVec 24} (hlen : len.toNat = 8192)
    (h : s.env.gives [(.openSink .oneshot s.path, true)]) :
    oneShot Config.hw len s = oneShotEnd
      (writeDocument Config.hw (s.setEnv (s.env.after [(.openSink .oneshot s.path, true)]))) := by
  rw [oneShot, lenMatches_hw hlen, sinkReq_of_gives h]
  rfl

theorem oneShot_of_open_fail {len : BitVec 24} (hlen : len.toNat = 8192)
    (h : s.env.gives [(.openSink .oneshot s.path, false)]) :
    oneShot Config.hw len s = some (failCommand .ioFailure
      (s.setEnv (s.env.after [(.openSink .oneshot s.path, false)]))) := by
  rw [oneShot, lenMatches_hw hlen, sinkReq_of_gives h]
  rfl

/-- ONESHOT with OPEN and every WRITE answered ok comes to its CLOSE (41_gif_formatter.md R165). -/
theorem oneShot_of_document {len : BitVec 24} (hlen : len.toNat = 8192) (hwf : s.eng.MemoriesWf) {tr : Transcript}
    (htr : tr = (.openSink .oneshot s.path, true) ::
      accepted .oneshot (oneShotDocument Config.hw (frameSymbols Config.hw s))) (hg : s.env.gives tr) :
    ∃ t, oneShot Config.hw len s = oneShotEnd (.ok t) ∧ SameButCoding (s.setEnv (s.env.after tr)) t ∧
      FrameRead s t := by
  subst htr
  obtain ⟨hopen, hdocument⟩ := (Env.gives_append s.env [(.openSink .oneshot s.path, true)] _).mp hg
  obtain ⟨t, hrun, hsame, hread⟩ := (writeDocument_produces (s := s)
    (t := s.setEnv (s.env.after [(.openSink .oneshot s.path, true)])) ⟨rfl, rfl, rfl⟩ hwf).ok_of_gives hdocument
  rw [setEnv_setEnv, setEnv_env, Env.after_after] at hsame
  exact ⟨t, by rw [oneShot_of_open_ok hlen hopen, hrun], hsame, hread⟩

/-- ONESHOT with WRITE number `k` answered `fail` comes to its clean-up (41_gif_formatter.md R166). -/
theorem oneShot_of_cutOff {len : BitVec 24} {k : Nat} (hlen : len.toNat = 8192) (hwf : s.eng.MemoriesWf)
    (hk : k < (oneShotDocument Config.hw (frameSymbols Config.hw s)).length) {tr : Transcript}
    (htr : tr = (.openSink .oneshot s.path, true) ::
      cutOff .oneshot (oneShotDocument Config.hw (frameSymbols Config.hw s)) k) (hg : s.env.gives tr) :
    ∃ t, oneShot Config.hw len s = oneShotEnd (.raised t) ∧ SameButCoding (s.setEnv (s.env.after tr)) t := by
  subst htr
  obtain ⟨hopen, hdocument⟩ := (Env.gives_append s.env [(.openSink .oneshot s.path, true)] _).mp hg
  obtain ⟨t, hrun, hsame⟩ := (writeDocument_produces (s := s)
    (t := s.setEnv (s.env.after [(.openSink .oneshot s.path, true)])) ⟨rfl, rfl, rfl⟩ hwf).raised_of_cutOff hk hdocument
  rw [setEnv_setEnv, setEnv_env, Env.after_after] at hsame
  exact ⟨t, by rw [oneShot_of_open_ok hlen hopen, hrun], hsame⟩

theorem execOneshot_eq {len : BitVec 24} (hshared : ¬ (s.fmt.sess = .started ∧ s.path = s.fmt.workPath)) :
    exec (.oneshot len) s = frameOutcome s (oneShot Config.hw len s) := by
  have hfalse : sharesWorkPath s = false := by simpa [sharesWorkPath] using hshared
  rw [exec, execOneshot, hfalse]
  rfl

/-- After the transcript the host's next answers are those of the rest, in any state with the same answers to come. -/
theorem SameButCoding.gives_rest {t : State} {tr rest : Transcript}
    (h : SameButCoding (s.setEnv (s.env.after tr)) t) (hg : s.env.gives (tr ++ rest)) : t.env.gives rest :=
  (Env.gives_congr h.log h.answers rest).mpr ((Env.gives_append _ _ _).mp hg).2

/-- The requests after those of the transcript. -/
theorem SameButCoding.after_append {t : State} {tr : Transcript} (h : SameButCoding (s.setEnv (s.env.after tr)) t)
    (rest : Transcript) : SameButCoding (s.setEnv (s.env.after (tr ++ rest))) (t.setEnv (t.env.after rest)) := by
  have hafter := h.after rest
  rwa [setEnv_setEnv, setEnv_env, Env.after_after] at hafter

/-- Settles O24: the document is what ONESHOT sends, and each byte of it is accepted. -/
theorem oneShotWritesDocument : Obligations.OneShotWritesDocument := by
  intro s len hcanon hshared hlen tr hg hn
  obtain ⟨t, hrun, hsame, hread⟩ := oneShot_of_document hlen (memoriesWf_of_canonical hcanon) rfl
    ((Env.gives_append s.env (_ :: accepted .oneshot (oneShotDocument Config.hw (frameSymbols Config.hw s))) _).mp hg).1
  have hend := hsame.after_append [(.close .oneshot, true)]
  obtain ⟨hpath, hfb, henv⟩ := landRaces_after hend
  refine ⟨landRaces (completeCommand (t.setEnv (t.env.after [(.close .oneshot, true)]))), ?_, ?_, hpath,
    hfb, ?_⟩
  · rw [execOneshot_eq hshared, hrun, oneShotEnd_of_close_ok (hsame.gives_rest hg)]
    exact frameOutcome_after (tr := tr) hn hend.log
  · show t.fmt.returned true .none = _
    rw [hsame.fmt]
    rfl
  · have hdraws : (t.setEnv (t.env.after [(.close .oneshot, true)])).env.fbDraws =
        s.env.fbDraws + racedBefore s 8192 := hread
    rw [← hdraws]
    exact henv

/-- Where ONESHOT fails, it ends in a failure after exactly the requests of the transcript. -/
theorem oneShot_failure {len : BitVec 24} {k : Nat} {closed deleted : Bool} {tr : Transcript} (hlen : len.toNat = 8192)
    (hwf : s.eng.MemoriesWf)
    (htr : tr = [(.openSink .oneshot s.path, false)] ∨
      k < (oneShotDocument Config.hw (frameSymbols Config.hw s)).length ∧ tr = (.openSink .oneshot s.path, true) ::
        (cutOff .oneshot (oneShotDocument Config.hw (frameSymbols Config.hw s)) k ++
          [(.close .oneshot, closed), (.delete s.path, deleted)]) ∨
      tr = (.openSink .oneshot s.path, true) ::
        (accepted .oneshot (oneShotDocument Config.hw (frameSymbols Config.hw s)) ++
          [(.close .oneshot, false), (.delete s.path, deleted)])) (hg : s.env.gives tr) :
    ∃ t, oneShot Config.hw len s = some (failCommand .ioFailure t) ∧ SameButCoding (s.setEnv (s.env.after tr)) t := by
  obtain rfl | ⟨hk, rfl⟩ | rfl := htr
  · exact ⟨_, oneShot_of_open_fail hlen hg, SameButCoding.refl _⟩
  · rw [← List.cons_append] at hg ⊢
    obtain ⟨t, hrun, hsame⟩ := oneShot_of_cutOff hlen hwf hk rfl ((Env.gives_append _ _ _).mp hg).1
    have hrest := hsame.gives_rest hg
    have hpath : t.path = s.path := hsame.path
    rw [← hpath] at hrest
    refine ⟨_, hrun.trans (oneShotEnd_of_raised hrest), ?_⟩
    rw [hpath]
    exact (hsame.after_append _).trans ⟨rfl, rfl, rfl, _, rfl⟩
  · rw [← List.cons_append] at hg ⊢
    obtain ⟨t, hrun, hsame, -⟩ := oneShot_of_document hlen hwf rfl ((Env.gives_append _ _ _).mp hg).1
    have hrest := hsame.gives_rest hg
    have hpath : t.path = s.path := hsame.path
    rw [← hpath] at hrest
    refine ⟨_, hrun.trans (oneShotEnd_of_close_fail hrest), ?_⟩
    rw [hpath]
    exact hsame.after_append _

end

/-- Settles O25: OPEN, a byte of the document or CLOSE fails, and the clean-up does not read its answers. -/
theorem oneShotFailureCleanUp : Obligations.OneShotFailureCleanUp := by
  intro s len k closed deleted tr hcanon hshared hlen document htr hg hn
  obtain ⟨t, hrun, hsame⟩ := oneShot_failure hlen (memoriesWf_of_canonical hcanon) htr hg
  obtain ⟨hpath, hfb, -⟩ := landRaces_after hsame
  refine ⟨landRaces (failCommand .ioFailure t), ?_, ?_, hpath, hfb, hsame.log, hsame.answers⟩
  · rw [execOneshot_eq hshared, hrun]
    exact frameOutcome_after hn hsame.log
  · show t.fmt.returned false .ioFailure = _
    rw [hsame.fmt]
    rfl

end Sys2Proof.Machine

/-! ### A whole session publishes the session document (41_gif_formatter.md R170) -/

namespace Sys2Proof.Machine

/-- What the ADDFRAMEs of a session write, one after the other. -/
def sessionBody : Bool → List (List Nat) → List Byte
  | _, [] => []
  | firstPending, q :: qs => addedBytes Config.hw firstPending q ++ sessionBody false qs

theorem sessionBody_false (qs : List (List Nat)) :
    sessionBody false qs = (qs.map (frameRecord Config.hw)).flatten := by
  induction qs with
  | nil => rfl
  | cons q qs ih =>
    rw [sessionBody, ih]
    rfl

/-- The session document (30_encoding.md R93) is what START, the ADDFRAMEs and FINISH write. -/
theorem sessionDocument_eq (qs : List (List Nat)) :
    sessionDocument Config.hw qs = sigBytes ++ (sessionBody true qs ++ [trailerByte]) := by
  cases qs with
  | nil => rfl
  | cons q qs =>
    rw [sessionDocument, sessionBody, sessionBody_false, if_neg (List.cons_ne_nil q qs), List.map_cons,
      List.flatten_cons]
    simp only [addedBytes, if_true, List.append_assoc]
    rfl

theorem Env.answersNext_append {env : Env} {tr : Transcript} {n : Nat} (h : env.answersNext (tr.length + n)) :
    env.answersNext tr.length ∧ (env.after tr).answersNext n := by
  refine ⟨fun m hm => (Nat.add_le_add_left (Nat.le_add_right _ _) _).trans (h m hm), fun m hm => ?_⟩
  have := h m hm
  simp only [Env.after, List.length_append]
  omega

/-- With no host write in flight no read is raced. -/
theorem racedBefore_eq_zero {s : State} (h : s.env.racing = []) (i : Nat) : racedBefore s i = 0 := by
  have hraced : raced s = fun _ => false := by
    funext j
    rw [raced, h]
    rfl
  rw [racedBefore, hraced, List.filter_false]
  rfl

/-- A session between two commands, no host write being in flight, with the draws `draws` used. -/
structure InSession (draws : Nat) (u : State) : Prop where
  sess : u.fmt.sess = .started
  racing : u.env.racing = []
  draws : u.env.fbDraws = draws
  fits : u.eng.MemoriesFit

/-- A frame buffer the host can have filled (10_state.md R36). -/
def FrameFits (fb : Memory Word) : Prop := Memory.Fits unlistedPixel Config.hw.npix fb

/-- One ADDFRAME of a session, the frame filled in before it. -/
theorem addframe_inSession {s u : State} {fb : Memory Word} (hs : s.env.racing = [])
    (hu : InSession s.env.fbDraws u) (hfb : FrameFits fb)
    (hg : u.env.gives (accepted .session
      (addedBytes Config.hw u.fmt.firstPending (frameSymbols Config.hw (s.setFb fb)))))
    (hn : u.env.answersNext (addedBytes Config.hw u.fmt.firstPending (frameSymbols Config.hw (s.setFb fb))).length) :
    ∃ t, exec (.addframe 8192#24) (u.setFb fb) = .next t ∧ InSession s.env.fbDraws t ∧
      t.fmt.firstPending = false ∧ t.fmt.workPath = u.fmt.workPath ∧
      t.env = u.env.after (accepted .session
        (addedBytes Config.hw u.fmt.firstPending (frameSymbols Config.hw (s.setFb fb)))) := by
  have hsymbols : frameSymbols Config.hw (s.setFb fb) = frameSymbols Config.hw (u.setFb fb) :=
    frameSymbols_congr _ rfl (hs.trans hu.racing.symm) hu.draws.symm
  rw [hsymbols] at hg hn ⊢
  have hcanon : MemoriesCanonical (u.setFb fb) := (memoriesCanonical_iff _).mpr ⟨hu.fits, hfb, by
    rw [setFb_env, hu.racing]
    exact nofun⟩
  obtain ⟨t, hexec, hfmt, -, -, henv⟩ := addFrameAppendsRecord (u.setFb fb) 8192#24 hcanon hu.sess (by decide) hg
    (by rw [accepted_length]; exact hn)
  rw [racedBefore_eq_zero (s := u.setFb fb) hu.racing] at henv
  have henv' : t.env = u.env.after (accepted .session
      (addedBytes Config.hw u.fmt.firstPending (frameSymbols Config.hw (u.setFb fb)))) := by
    rw [henv, ← hu.racing]
    rfl
  refine ⟨t, hexec, ⟨?_, ?_, ?_, ?_⟩, ?_, ?_, henv'⟩
  · rw [hfmt]
    exact hu.sess
  · rw [henv']
    exact hu.racing
  · rw [henv']
    exact hu.draws
  · cases exec_ran hexec with
    | addframe hstep hend =>
      obtain ⟨_, _, rfl⟩ := hend.eq_setFmt
      exact hstep.fits hu.fits
  · rw [hfmt]
  · rw [hfmt]
    rfl

/-- The ADDFRAMEs of a session. -/
theorem addFrames_inSession {s u : State} {frames : List (Memory Word)} (hs : s.env.racing = [])
    (hu : InSession s.env.fbDraws u) (hframes : ∀ fb ∈ frames, FrameFits fb) {bytes : List Byte}
    (hbytes : bytes = sessionBody u.fmt.firstPending (frames.map fun fb => frameSymbols Config.hw (s.setFb fb)))
    (hg : u.env.gives (accepted .session bytes)) (hn : u.env.answersNext bytes.length) :
    ∃ t, addFrames frames u = .next t ∧ InSession s.env.fbDraws t ∧ t.fmt.workPath = u.fmt.workPath ∧
      t.env = u.env.after (accepted .session bytes) := by
  induction frames generalizing u bytes with
  | nil =>
    subst hbytes
    exact ⟨u, rfl, hu, rfl, (Env.after_nil u.env).symm⟩
  | cons fb frames ih =>
    subst hbytes
    obtain ⟨hfb, hframes⟩ := List.forall_mem_cons.mp hframes
    rw [List.map_cons, sessionBody, accepted_append] at hg ⊢
    rw [List.map_cons, sessionBody, List.length_append, ← accepted_length .session (addedBytes _ _ _)] at hn
    obtain ⟨hg, hgrest⟩ := (Env.gives_append _ _ _).mp hg
    obtain ⟨hn, hnrest⟩ := Env.answersNext_append hn
    rw [accepted_length] at hn
    obtain ⟨t, hexec, ht, hpending, hpath, henv⟩ := addframe_inSession hs hu hfb hg hn
    rw [← henv] at hgrest hnrest
    obtain ⟨v, hrun, hv, hpath', henv'⟩ := ih ht hframes (by rw [hpending]) hgrest hnrest
    refine ⟨v, ?_, hv, hpath'.trans hpath, ?_⟩
    · rw [addFrames, hexec]
      exact hrun
    · rw [henv', henv, Env.after_after]

/-- START's requests, each answered ok (41_gif_formatter.md R141). -/
def openingTranscript (path : Word) : Transcript := (.openSink .session path, true) :: accepted .session sigBytes

/-- FINISH's requests, each answered ok (41_gif_formatter.md R161). -/
def closingTranscript (workPath finalPath : Word) : Transcript :=
  [(.write .session trailerByte, true), (.close .session, true), (.rename workPath finalPath, true)]

theorem sessionTranscript_eq (workPath finalPath : Word) (qs : List (List Nat)) :
    (.openSink .session workPath, true) :: (accepted .session (sessionDocument Config.hw qs) ++
        [(.close .session, true), (.rename workPath finalPath, true)]) =
      openingTranscript workPath ++
        (accepted .session (sessionBody true qs) ++ closingTranscript workPath finalPath) := by
  rw [sessionDocument_eq, accepted_append, accepted_append, List.append_assoc, List.append_assoc]
  rfl

/-- START with every answer ok opens the session. -/
theorem start_inSession {s : State} {len : BitVec 24} (hidle : s.fmt.sess = .idle) (hracing : s.env.racing = [])
    (hfit : s.eng.MemoriesFit) (hg : s.env.gives (openingTranscript s.path)) (hn : s.env.answersNext 7) :
    ∃ t, exec (.start len) s = .next t ∧ InSession s.env.fbDraws t ∧ t.fmt.firstPending = true ∧
      t.fmt.workPath = s.path ∧ t.env = s.env.after (openingTranscript s.path) :=
  ⟨_, startOpensSession s len hidle hg hn, ⟨rfl, hracing, rfl, hfit⟩, rfl, rfl, rfl⟩

/-- FINISH with every answer ok publishes at `PATH`. -/
theorem finish_inSession {draws : Nat} {u : State} {len : BitVec 24} (hu : InSession draws u) (finalPath : Word)
    (hg : u.env.gives (closingTranscript u.fmt.workPath finalPath)) (hn : u.env.answersNext 3) :
    ∃ v, exec (.finish len) (u.setPath finalPath) = .next v ∧
      v.env = u.env.after (closingTranscript u.fmt.workPath finalPath) ∧ v.fmt.result = true ∧ v.fmt.sess = .idle :=
  ⟨_, (finishRequestTable (u.setPath finalPath) len true hu.sess).1 _ rfl hg hn, rfl, rfl, rfl⟩

/-- Settles O38: START writes the signature, the ADDFRAMEs the body and FINISH the trailer, each from where the one
before it ended. -/
theorem sessionDocumentIsPublished : Obligations.SessionDocumentIsPublished := by
  intro s frames finalPath len len' hcanon hidle hracing hframes document tr hg hn
  obtain ⟨hfit, -⟩ := (memoriesCanonical_iff s).mp hcanon
  have htr : tr = _ := sessionTranscript_eq s.path finalPath (frames.map fun fb => frameSymbols Config.hw (s.setFb fb))
  rw [htr] at hg hn ⊢
  rw [List.length_append, List.length_append] at hn
  obtain ⟨hgstart, hg⟩ := (Env.gives_append _ _ _).mp hg
  obtain ⟨hgframes, hgfinish⟩ := (Env.gives_append _ _ _).mp hg
  obtain ⟨hnstart, hn⟩ := Env.answersNext_append hn
  obtain ⟨hnframes, hnfinish⟩ := Env.answersNext_append hn
  obtain ⟨t, hstart, ht, hpending, hwork, henv⟩ := start_inSession (len := len) hidle hracing hfit hgstart hnstart
  rw [← henv] at hgframes hgfinish hnframes hnfinish
  rw [accepted_length] at hnframes
  obtain ⟨u, hadd, hu, hwork', henv'⟩ := addFrames_inSession hracing ht hframes (by rw [hpending]) hgframes hnframes
  rw [← henv'] at hgfinish hnfinish
  rw [← hwork, ← hwork'] at hgfinish
  obtain ⟨v, hfinish, henv'', hresult, hsess⟩ := finish_inSession (len := len') hu finalPath hgfinish hnfinish
  refine ⟨t, u, v, hstart, hadd, hfinish, ?_, hresult, hsess⟩
  rw [henv'', henv', henv, Env.after_after, Env.after_after, hwork', hwork]
  rfl

end Sys2Proof.Machine

/-! ### The standard decoder gives the symbols back (41_gif_formatter.md R172, 42_lzw_engine.md R215)

The decoder's table lags one string behind the compressor's dictionary: the string of the pair inserted last is complete
only when the next match's first symbol is read. -/

namespace Sys2Proof.Machine

/-! #### From the block to the number of the code stream -/

theorem streamNumber_lt {l : List (Nat × Nat)} (h : CodesFit l) : streamNumber l < 2 ^ totalBits l := by
  induction l with
  | nil => exact Nat.one_pos
  | cons p l ih =>
    obtain ⟨v, n⟩ := p
    obtain ⟨⟨hv, -⟩, hl⟩ := codesFit_cons.mp h
    have hrest : 2 ^ n * (streamNumber l + 1) ≤ 2 ^ n * 2 ^ totalBits l := Nat.mul_le_mul_left _ (ih hl)
    rw [streamNumber, totalBits, Nat.pow_add]
    rw [Nat.mul_succ] at hrest
    omega

theorem length_le_totalBits {l : List (Nat × Nat)} (h : CodesFit l) : l.length ≤ totalBits l := by
  induction l with
  | nil => exact le_rfl
  | cons p l ih =>
    obtain ⟨v, n⟩ := p
    obtain ⟨⟨-, hn⟩, hl⟩ := codesFit_cons.mp h
    have := ih hl
    rw [List.length_cons, totalBits]
    omega

/-- Little-endian bytes of a number give the number back, as far as they go. -/
theorem bytesNumber_map_range (m N : Nat) :
    bytesNumber ((List.range m).map fun i => BitVec.ofNat 8 (N >>> (8 * i))) = N % 256 ^ m := by
  induction m generalizing N with
  | zero => simp [bytesNumber, Nat.mod_one]
  | succ m ih =>
    have hshift (i : Nat) : N >>> (8 * (i + 1)) = (N / 256) >>> (8 * i) := by
      rw [Nat.mul_succ, Nat.add_comm (8 * i), Nat.shiftRight_add, Nat.shiftRight_eq_div_pow N 8]
    have htail : ((List.range m).map Nat.succ).map (fun i => BitVec.ofNat 8 (N >>> (8 * i))) =
        (List.range m).map fun i => BitVec.ofNat 8 ((N / 256) >>> (8 * i)) := by
      rw [List.map_map]
      exact List.map_congr_left fun i _ => congrArg _ (hshift i)
    rw [List.range_succ_eq_map, List.map_cons, htail, bytesNumber, ih, Nat.pow_succ, Nat.mul_comm (256 ^ m),
      Nat.mod_mul]
    rfl

theorem bytesNumber_payload {l : List (Nat × Nat)} (h : CodesFit l) : bytesNumber (payload l) = streamNumber l := by
  have hbits : totalBits l ≤ 8 * ((totalBits l + 7) / 8) := by omega
  rw [payload, bytesNumber_map_range, Nat.mod_eq_of_lt]
  calc streamNumber l < 2 ^ totalBits l := streamNumber_lt h
    _ ≤ 2 ^ (8 * ((totalBits l + 7) / 8)) := Nat.pow_le_pow_right (by decide) hbits
    _ = 256 ^ ((totalBits l + 7) / 8) := by rw [Nat.pow_mul]

/-- The sub-blocks up to the terminator join to the payload (30_encoding.md R101, R102). -/
theorem joinSubBlocks_subBlocks {fuel : Nat} {p : List Byte} (hfuel : (subBlocks Config.hw p ++ [0#8]).length ≤ fuel) :
    joinSubBlocks fuel (subBlocks Config.hw p ++ [0#8]) = some p := by
  induction fuel generalizing p with
  | zero => simp at hfuel
  | succ fuel ih =>
    by_cases hp : p = []
    · subst hp
      rfl
    · have hlen : (p.take 254).length ≤ 254 := by
        rw [List.length_take]
        omega
      have hpos : 0 < (p.take 254).length := by
        rw [List.length_take]
        have := List.length_pos_iff.mpr hp
        omega
      have hcount : (BitVec.ofNat 8 (p.take 254).length).toNat = (p.take 254).length := by
        rw [BitVec.toNat_ofNat]
        omega
      have hzero : BitVec.ofNat 8 (p.take 254).length ≠ 0#8 := by
        intro h
        have := congrArg BitVec.toNat h
        rw [hcount] at this
        simp only [BitVec.toNat_ofNat] at this
        omega
      rw [subBlocks_of_ne_nil hp, List.cons_append, List.append_assoc] at hfuel ⊢
      rw [List.length_cons, List.length_append] at hfuel
      rw [joinSubBlocks, if_neg hzero, hcount, if_neg (by rw [List.length_append]; omega), List.drop_left,
        List.take_left, ih (by omega), Option.map_some, List.take_append_drop]

/-! #### Reading one code -/

theorem streamNumber_mod {v n : Nat} (hv : v < 2 ^ n) (l : List (Nat × Nat)) :
    streamNumber ((v, n) :: l) % 2 ^ n = v := by
  rw [streamNumber, Nat.add_mul_mod_self_left, Nat.mod_eq_of_lt hv]

theorem streamNumber_div {v n : Nat} (hv : v < 2 ^ n) (l : List (Nat × Nat)) :
    streamNumber ((v, n) :: l) / 2 ^ n = streamNumber l := by
  rw [streamNumber, Nat.add_mul_div_left _ _ (Nat.two_pow_pos n), Nat.div_eq_of_lt hv, Nat.zero_add]

/-- A ClearCode resets the decoder. -/
theorem decodeStream_clear {fuel : Nat} {d : Decoder} (hwidth : 3 ≤ d.width) (l : List (Nat × Nat)) :
    decodeStream Config.hw (fuel + 1) d (streamNumber ((4, d.width) :: l)) =
      decodeStream Config.hw fuel { table := [], width := 3, previous := none } (streamNumber l) := by
  have hfits := lt_two_pow_of_three_le (show 4 < 8 by decide) hwidth
  rw [decodeStream]
  simp only [streamNumber_mod hfits, streamNumber_div hfits]
  rfl

/-- The EOFCode ends the stream. -/
theorem decodeStream_eof {fuel : Nat} {d : Decoder} (hwidth : 3 ≤ d.width) (l : List (Nat × Nat)) :
    decodeStream Config.hw (fuel + 1) d (streamNumber ((5, d.width) :: l)) = some [] := by
  have hfits := lt_two_pow_of_three_le (show 5 < 8 by decide) hwidth
  rw [decodeStream]
  simp only [streamNumber_mod hfits]
  rfl

/-- The string of a code in a table of strings. -/
def tableString (table : List (List Nat)) (code : Nat) : Option (List Nat) :=
  if code < 4 then some [code] else if code < 6 then none else table[code - 6]?

theorem Decoder.string_eq (d : Decoder) (code : Nat) : d.string Config.hw code = tableString d.table code := rfl

theorem tableString_append {table : List (List Nat)} {code : Nat} {w : List Nat} (h : tableString table code = some w)
    (more : List (List Nat)) : tableString (table ++ more) code = some w := by
  unfold tableString at h ⊢
  split_ifs at h ⊢ with hsym hcontrol
  · exact h
  · obtain ⟨hlt, -⟩ := List.getElem?_eq_some_iff.mp h
    rw [List.getElem?_append_left hlt]
    exact h

theorem tableString_last (table : List (List Nat)) (w : List Nat) :
    tableString (table ++ [w]) (6 + table.length) = some w := by
  rw [tableString, if_neg (by omega), if_neg (by omega), Nat.add_sub_cancel_left, List.getElem?_concat_length]

/-- `table` holds the strings of the codes given out so far, a pair's being the string of the code before and the
symbol; the current match stands for `cur`. -/
structure Coder.Spells (k : Coder) (table : List (List Nat)) (cur : List Nat) : Prop where
  inRange : k.InRange
  count : k.free = 6 + table.length
  entry : ∀ pre x code, k.dict.lookup (pre, x) = some code →
    ∃ w, tableString table pre = some w ∧ tableString table code = some (w ++ [x])
  current : tableString table k.ent = some cur
  nonempty : cur ≠ []

namespace Coder.Spells

variable {k : Coder} {table : List (List Nat)} {cur : List Nat} {x : Nat}

theorem fresh (hx : x < 4) : (Coder.fresh Config.hw x).Spells [] [x] where
  inRange := Coder.InRange.fresh hx
  count := rfl
  entry := nofun
  current := if_pos hx
  nonempty := List.cons_ne_nil _ _

theorem extend (h : k.Spells table cur) {code : Nat} (hfind : k.dict.lookup (k.ent, x) = some code) :
    (k.extend code).Spells table (cur ++ [x]) where
  inRange := h.inRange.extend hfind
  count := h.count
  entry := h.entry
  current := by
    obtain ⟨w, hw, hcode⟩ := h.entry _ _ _ hfind
    rw [h.current] at hw
    cases hw
    exact hcode
  nonempty := by simp

theorem insertPair (h : k.Spells table cur) (hx : x < 4) (hfind : k.dict.lookup (k.ent, x) = none)
    (hroom : k.free < 4096) : (k.insertPair Config.hw x).Spells (table ++ [cur ++ [x]]) [x] where
  inRange := h.inRange.insertPair hx hroom
  count := by
    rw [List.length_append, List.length_singleton, ← Nat.add_assoc, ← h.count]
    rfl
  entry pre sym code hentry := by
    obtain ⟨rfl, rfl, rfl⟩ | hold := (lookup_insertPair_iff hfind).mp hentry
    · refine ⟨cur, tableString_append h.current _, ?_⟩
      rw [h.count]
      exact tableString_last table _
    · obtain ⟨w, hpre, hcode⟩ := h.entry pre sym code hold
      exact ⟨w, tableString_append hpre _, tableString_append hcode _⟩
  current := if_pos hx
  nonempty := List.cons_ne_nil _ _

end Coder.Spells

/-- The decoder before the code of the current match: right after a ClearCode, or with the last string of the table,
`before` and the match's first symbol, still to be learned. -/
inductive Lags (d : Decoder) (table : List (List Nat)) (cur : List Nat) : Prop
  | afterClear (hd : d.table = []) (htable : table = []) (hprevious : d.previous = none)
  | afterCode {before : List Nat} {x : Nat} (htable : table = d.table ++ [before ++ [x]])
    (hprevious : d.previous = some before) (hbefore : before ≠ []) (hcur : cur.take 1 = [x])

theorem Lags.extend {d : Decoder} {table : List (List Nat)} {cur : List Nat} (h : Lags d table cur) (hcur : cur ≠ [])
    (x : Nat) : Lags d table (cur ++ [x]) := by
  cases h with
  | afterClear hd htable hprevious => exact .afterClear hd htable hprevious
  | afterCode htable hprevious hbefore hfirst =>
    refine .afterCode htable hprevious hbefore ?_
    rw [List.take_append_of_le_length (List.length_pos_iff.mpr hcur)]
    exact hfirst

/-- The string of the match's code is right even where the decoder has yet to learn it. -/
theorem Decoder.entry_of_spells {k : Coder} {d : Decoder} {before cur : List Nat} {x : Nat}
    (h : k.Spells (d.table ++ [before ++ [x]]) cur) (hbefore : before ≠ []) (hcur : cur.take 1 = [x]) :
    d.entry Config.hw before k.ent = some cur := by
  have hcurrent := h.current
  rw [Decoder.entry, Decoder.string_eq]
  by_cases hlast : k.ent = 6 + d.table.length
  · have hnone : tableString d.table k.ent = none := by
      rw [tableString, hlast, if_neg (by omega), if_neg (by omega), Nat.add_sub_cancel_left,
        List.getElem?_eq_none le_rfl]
    rw [hlast, tableString_last, Option.some.injEq] at hcurrent
    have hfirst : before.take 1 = [x] := by
      rw [← hcur, ← hcurrent, List.take_append_of_le_length (List.length_pos_iff.mpr hbefore)]
    rw [hnone, ← hcurrent, hfirst]
    exact if_pos hlast
  · have hrange := h.inRange.ent_range
    have hcount := h.count
    have hknown : tableString d.table k.ent = some cur := by
      rw [← hcurrent, tableString, tableString]
      rw [List.length_append, List.length_singleton] at hcount
      split_ifs
      · rfl
      · rfl
      · rw [List.getElem?_append_left (by omega)]
    rw [hknown]

/-- The decoder reads the current match's code: it gives the match's string out and catches up with the table. -/
theorem decodeStream_match {k : Coder} {d : Decoder} {table : List (List Nat)} {cur : List Nat} {fuel : Nat}
    (h : k.Spells table cur) (hlags : Lags d table cur) (hwidth : d.width = k.width) (l : List (Nat × Nat)) :
    decodeStream Config.hw (fuel + 1) d (streamNumber ((k.ent, k.width) :: l)) =
      (decodeStream Config.hw fuel { table := table, width := k.grown Config.hw, previous := some cur }
        (streamNumber l)).map (cur ++ ·) := by
  have hclear : k.ent ≠ Config.hw.clear := h.inRange.ent_ne_clear
  have heofc : k.ent ≠ Config.hw.eofc := h.inRange.ent_ne_eofc
  have hcount := h.count
  have hgrown := h.inRange.grown_eq
  rw [decodeStream]
  simp only [hwidth, streamNumber_mod h.inRange.ent_lt, streamNumber_div h.inRange.ent_lt, if_neg hclear,
    if_neg heofc]
  cases hlags with
  | afterClear hd htable hprevious =>
    subst htable
    have hsame : k.grown Config.hw = k.width := by
      rw [hgrown, if_neg]
      rintro ⟨hfull, -⟩
      have := lt_two_pow_of_three_le (show 6 < 8 by decide) h.inRange.width_low
      simp only [List.length_nil] at hcount
      omega
    rw [hprevious]
    simp only [Decoder.string_eq, hd, h.current, hsame]
  | @afterCode before x htable hprevious hbefore hcur =>
    subst htable
    rw [List.length_append, List.length_singleton] at hcount
    have hfree := h.inRange.free_high
    have hlearn : d.learn Config.hw before cur =
        { table := d.table ++ [before ++ [x]], width := k.grown Config.hw, previous := some cur } := by
      have hnext : 6 + d.table.length + 1 = k.free := by omega
      rw [Decoder.learn, hcur, Config.hw_first, Config.hw_maxMaxCode, Config.hw_maxBits, if_pos (by omega), hnext,
        hwidth, hgrown]
    rw [hprevious]
    simp only [Decoder.entry_of_spells h hbefore hcur, hlearn]

/-! #### Reading the whole stream -/

theorem decodeStream_codesFrom {k : Coder} {d : Decoder} {table : List (List Nat)} {cur xs : List Nat} {fuel : Nat}
    (h : k.Spells table cur) (hlags : Lags d table cur) (hwidth : d.width = k.width) (hxs : ∀ x ∈ xs, x < 4)
    (hfuel : (codesFrom Config.hw k xs).length ≤ fuel) :
    decodeStream Config.hw fuel d (streamNumber (codesFrom Config.hw k xs)) = some (cur ++ xs) := by
  induction xs generalizing k d table cur fuel with
  | nil =>
    rw [codesFrom_nil] at hfuel ⊢
    obtain ⟨fuel, rfl⟩ : ∃ n, fuel = n + 2 := ⟨fuel - 2, by simp at hfuel; omega⟩
    rw [decodeStream_match h hlags hwidth]
    exact congrArg (Option.map (cur ++ ·)) (decodeStream_eof
      (d := { table := table, width := k.grown Config.hw, previous := some cur }) h.inRange.grown_low [])
  | cons x xs ih =>
    obtain ⟨hx, hxs⟩ := List.forall_mem_cons.mp hxs
    cases hfind : k.dict.lookup (k.ent, x) with
    | some code =>
      rw [codesFrom_hit hfind] at hfuel ⊢
      rw [ih (h.extend hfind) (hlags.extend h.nonempty x) hwidth hxs hfuel, List.append_assoc]
      rfl
    | none =>
      by_cases hroom : k.free < 4096
      · rw [codesFrom_miss (c := Config.hw) hfind hroom] at hfuel ⊢
        obtain ⟨fuel, rfl⟩ : ∃ n, fuel = n + 1 := ⟨fuel - 1, by simp at hfuel; omega⟩
        rw [decodeStream_match h hlags hwidth, ih (h.insertPair hx hfind hroom)
          (.afterCode rfl rfl h.nonempty rfl) rfl hxs (Nat.le_of_succ_le_succ hfuel)]
        rfl
      · rw [codesFrom_full (c := Config.hw) hfind hroom] at hfuel ⊢
        obtain ⟨fuel, rfl⟩ : ∃ n, fuel = n + 2 := ⟨fuel - 2, by simp at hfuel; omega⟩
        have hclear := decodeStream_clear (fuel := fuel)
          (d := { table := table, width := k.grown Config.hw, previous := some cur }) h.inRange.grown_low
          (codesFrom Config.hw (Coder.fresh Config.hw x) xs)
        rw [decodeStream_match h hlags hwidth, Config.hw_clear, hclear, ih (Coder.Spells.fresh hx)
          (.afterClear rfl rfl rfl) rfl hxs (Nat.le_of_succ_le_succ (Nat.le_of_succ_le_succ hfuel))]
        rfl

theorem decodeStream_codes {q : List Nat} (hne : q ≠ []) (hq : ∀ x ∈ q, x < 4) {fuel : Nat}
    (hfuel : (codes Config.hw q).length ≤ fuel) :
    decodeStream Config.hw fuel { table := [], width := 3, previous := none } (streamNumber (codes Config.hw q)) =
      some q := by
  cases q with
  | nil => exact absurd rfl hne
  | cons x xs =>
    obtain ⟨hx, hxs⟩ := List.forall_mem_cons.mp hq
    rw [codes] at hfuel ⊢
    obtain ⟨fuel, rfl⟩ : ∃ n, fuel = n + 1 := ⟨fuel - 1, by simp at hfuel; omega⟩
    have hclear := decodeStream_clear (fuel := fuel) (d := { table := [], width := 3, previous := none }) le_rfl
      (codesFrom Config.hw (Coder.fresh Config.hw x) xs)
    exact hclear.trans (decodeStream_codesFrom (Coder.Spells.fresh hx) (.afterClear rfl rfl rfl) rfl hxs
      (Nat.le_of_succ_le_succ hfuel))

/-- Settles O55: the sub-blocks join to the payload, the payload's number is the code stream's, and the decoder follows
the compressor code by code. -/
theorem blockDecodesToFrame : Obligations.BlockDecodesToFrame := by
  intro q hne hq
  have hfit := codes_fit hq
  have hjoin := joinSubBlocks_subBlocks (p := payload (codes Config.hw q)) le_rfl
  have hfuel : (codes Config.hw q).length ≤ 8 * (payload (codes Config.hw q)).length := by
    have := length_le_totalBits hfit
    rw [payload, List.length_map, List.length_range]
    omega
  have hsize : (BitVec.ofNat 8 Config.hw.ics).toNat = Config.hw.ics := rfl
  rw [lzwData, engineBytes, List.cons_append, decodeBlock, if_pos hsize, hjoin]
  dsimp only
  rw [bytesNumber_payload hfit]
  exact decodeStream_codes hne hq hfuel

end Sys2Proof.Machine

/-! ### The engine driven alone: frames, stops and the operations whose next state is written out -/

namespace Sys2Proof.Machine

/-- Two operations in a row that complete both complete. -/
theorem Res.exists_of_bind_eq_ok {r : Res} {f : State → Res} {u : State} (h : r.bind f = .ok u) :
    ∃ t, r = .ok t ∧ f t = .ok u := by
  cases r with
  | ok t => exact ⟨t, rfl, h⟩
  | raised t => cases h
  | endless => cases h

theorem Res.All.of_eq_ok {P : State → Prop} {r : Res} {t : State} (hr : r.All P) (h : r = .ok t) : P t := by
  subst h
  exact hr

theorem Res.IsOk.eq_ok_of_next {r : Res} {t : State} (hr : r.IsOk) (h : engineOutcome r = .next t) : r = .ok t := by
  obtain ⟨u, rfl⟩ := hr
  cases h
  rfl

section
variable {s t : State}

/-- The engine after LZW_BEGIN (42_lzw_engine.md R183): begun, with `CLEAR` buffered. -/
def Engine.beginFrame (e : Engine) : Engine := { e.begin Config.hw with acc := 0b100#19, accBits := 3#5 }

theorem pack_begin_clear (e : Engine) : (e.begin Config.hw).pack Config.hw.clear = e.beginFrame := by
  simp [Engine.pack, Engine.beginFrame]

/-- The first code completes no byte. -/
theorem emit_begin_clear (s : State) : emit Config.hw .list Config.hw.clear (s.setEng (s.eng.begin Config.hw)) =
    .ok (s.setEng s.eng.beginFrame) := by
  have hbits : s.eng.beginFrame.accBits = 3#5 := rfl
  have hbytes : (3#5).toNat / 8 = 0 := rfl
  rw [emit, setEng_eng, pack_begin_clear, hbits, hbytes, peelBytes, Res.bind_ok]
  rfl

/-- LZW_BEGIN driven alone, in full. -/
theorem lzwBegin_list (s : State) :
    lzwBegin Config.hw .list s =
      .ok ((s.setEnv { s.env with engineOut := s.env.engineOut ++ [0x02#8] }).setEng s.eng.beginFrame) :=
  emit_begin_clear (s.setEnv { s.env with engineOut := s.env.engineOut ++ [0x02#8] })

theorem exec_lzwBegin (s : State) : exec .lzwBegin s = engineOutcome (lzwBegin Config.hw .list s) := rfl

/-- Settles O43: the next state is written out, and emptying the dictionary leaves no slot valid. -/
theorem lzwBeginStartsFrame : Obligations.LzwBeginStartsFrame := fun s =>
  ⟨_, by rw [exec_lzwBegin, lzwBegin_list, engineOutcome], rfl, rfl, rfl, rfl, rfl, rfl, rfl,
    clearValid_slot_valid s.eng, rfl⟩

theorem exec_lzwSymbol_of_active {sym : BitVec 8} (hactive : s.eng.lzwActive = true) (hsym : sym.toNat < 4) :
    exec (.lzwSymbol sym) s = engineOutcome (lzwSymbol Config.hw .list sym.toNat s) := by
  rw [exec, execLzwSymbol, hactive, if_neg nofun, Config.hw_clear, if_neg (Nat.not_le.mpr hsym)]

theorem exec_lzwEnd_of_active (hactive : s.eng.lzwActive = true) (hhave : s.eng.haveEnt = true) :
    exec .lzwEnd s = engineOutcome (lzwEnd Config.hw .list s) := by
  rw [exec, execLzwEnd, hactive, hhave, if_neg nofun, if_neg nofun]

/-- Settles O49: the two refusals of each operation are tested first. -/
theorem engineRefusals : Obligations.EngineRefusals := by
  intro s sym
  refine ⟨fun hinactive => ⟨?_, ?_⟩, fun hactive hsym => ?_, fun hactive hhave => ?_⟩
  · rw [exec, execLzwSymbol, if_pos hinactive]
  · rw [exec, execLzwEnd, if_pos hinactive]
  · rw [exec, execLzwSymbol, hactive, if_neg nofun, Config.hw_clear, if_pos hsym]
  · rw [exec, execLzwEnd, hactive, if_neg nofun, if_pos hhave]

theorem lzwSymbol_first {c : Config} {port : Port} {x : Nat} (hhave : s.eng.haveEnt = false) :
    lzwSymbol c port x s = .ok (s.setEng (s.eng.setEnt x).markEnt) := by
  rw [lzwSymbol, hhave]
  rfl

theorem lzwSymbol_hit {c : Config} {port : Port} {x i : Nat} (hhave : s.eng.haveEnt = true)
    (hlookup : lookup c s.eng x s.eng.ent.toNat = some (true, i)) :
    lzwSymbol c port x s = .ok (s.setEng (s.eng.setEnt (s.eng.slot i).code.toNat)) := by
  rw [lzwSymbol, if_pos hhave, hlookup]

theorem lzwSymbol_missed {c : Config} {port : Port} {x i : Nat} (hhave : s.eng.haveEnt = true)
    (hlookup : lookup c s.eng x s.eng.ent.toNat = some (false, i)) :
    lzwSymbol c port x s = lzwMiss c port x i s := by
  rw [lzwSymbol, if_pos hhave, hlookup]

/-- Settles O44: without a match the symbol becomes it. -/
theorem lzwFirstSymbolStartsMatch : Obligations.LzwFirstSymbolStartsMatch := by
  intro s sym hactive hhave hsym
  have hent : sym.setWidth 12 = BitVec.ofNat 12 sym.toNat := by
    rw [BitVec.ofNat_toNat]
  rw [exec_lzwSymbol_of_active hactive hsym, lzwSymbol_first hhave, hent]
  rfl

/-- Settles O45: the search finds the entry's slot, whose code becomes the match. -/
theorem lzwHitExtendsMatch : Obligations.LzwHitExtendsMatch := by
  intro s sym code hactive hhave hsym hdict hentry
  obtain ⟨k, hlookup, rfl⟩ := hdict.lookup_of_hasEntry hentry
  rw [exec_lzwSymbol_of_active hactive hsym, lzwSymbol_hit hhave hlookup]
  rfl

/-- Settles O53: the search answers "found" at the entry's slot and nowhere else, and stops at an empty slot. -/
theorem lookupFindsDictionaryEntry : Obligations.LookupFindsDictionaryEntry := by
  intro e sym ent hit i hdict hs he hlookup
  cases hit with
  | true => exact ⟨⟨fun _ => ⟨_, hasEntry_of_lookup hs he hlookup⟩, fun _ => rfl⟩,
      fun _ => hasEntry_of_lookup hs he hlookup, nofun⟩
  | false =>
    refine ⟨⟨nofun, fun ⟨code, hentry⟩ => ?_⟩, nofun, fun _ => lookup_missed_empty hlookup⟩
    exact absurd hentry (hdict.not_hasEntry_of_missed hlookup code)

/-! #### What LZW_SYMBOL and LZW_END leave alone -/

/-- After a symbol there is a match, and the engine is as active as before. -/
structure SymbolFrame (s t : State) : Prop where
  haveEnt : t.eng.haveEnt = true
  active : t.eng.lzwActive = s.eng.lzwActive

theorem lzwMiss_symbolFrame (c : Config) (port : Port) (x i : Nat) (hhave : s.eng.haveEnt = true) :
    (lzwMiss c port x i s).All (SymbolFrame s) := by
  have hkeep {t : State} (h : PackerFrame s t) : SymbolFrame s t := by
    obtain ⟨-, hhave', -, hactive, -⟩ := h
    exact ⟨hhave'.trans hhave, hactive⟩
  refine (emit_packerFrame c port _ s).bind (fun _ => hkeep) fun t ht => ?_
  have ht' := hkeep ht
  split
  · exact ⟨ht'.haveEnt, ht'.active⟩
  · have hframe {u : State} (h : PackerFrame (t.setEng (t.eng.setEnt x)) u) : SymbolFrame s u := by
      obtain ⟨-, hhave', -, hactive, -⟩ := h
      exact ⟨hhave'.trans ht'.haveEnt, hactive.trans ht'.active⟩
    exact (emit_packerFrame c port _ _).bind (fun _ => hframe) fun u hu => ⟨(hframe hu).haveEnt, (hframe hu).active⟩

theorem lzwSymbol_symbolFrame (c : Config) (port : Port) (x : Nat) (s : State) :
    (lzwSymbol c port x s).All (SymbolFrame s) := by
  unfold lzwSymbol
  split
  · next hhave =>
    split
    · trivial
    · exact ⟨hhave, rfl⟩
    · exact lzwMiss_symbolFrame c port x _ hhave
  · exact ⟨rfl, rfl⟩

theorem flushBits_packerFrame (c : Config) (port : Port) (s : State) : (flushBits c port s).All (PackerFrame s) := by
  unfold flushBits
  split
  · exact PackerFrame.refl s
  · exact PackerFrame.bind (pushByte_packerFrame c port _ s) fun _ => ⟨rfl, rfl, rfl, rfl, rfl⟩

/-- The match and the dictionary are as before (42_lzw_engine.md R198). -/
structure EndFrame (s t : State) : Prop where
  ent : t.eng.ent = s.eng.ent
  haveEnt : t.eng.haveEnt = s.eng.haveEnt
  freeEnt : t.eng.freeEnt = s.eng.freeEnt
  ht : t.eng.ht = s.eng.ht

theorem PackerFrame.endFrame (h : PackerFrame s t) : EndFrame s t := by
  obtain ⟨hent, hhave, hfree, -, hht⟩ := h
  exact ⟨hent, hhave, hfree, hht⟩

/-- What LZW_END consists of, where it completes, and what it leaves (42_lzw_engine.md R198). -/
theorem lzwEnd_ok {c : Config} {port : Port} (h : lzwEnd c port s = .ok t) :
    ∃ t2 t3 t4, PackerFrame s t2 ∧ flushBits c port t2 = .ok t3 ∧ flushPacket port t3 = .ok t4 ∧
      t = t4.setEng t4.eng.stop := by
  obtain ⟨t1, h1, h⟩ := Res.exists_of_bind_eq_ok h
  obtain ⟨t2, h2, h⟩ := Res.exists_of_bind_eq_ok h
  obtain ⟨t3, h3, h⟩ := Res.exists_of_bind_eq_ok h
  obtain ⟨t4, h4, h⟩ := Res.exists_of_bind_eq_ok h
  cases h
  exact ⟨t2, t3, t4, ((emit_packerFrame c port _ s).of_eq_ok h1).trans ((emit_packerFrame c port _ t1).of_eq_ok h2),
    h3, h4, rfl⟩

theorem lzwEnd_inactive {c : Config} {port : Port} (h : lzwEnd c port s = .ok t) : t.eng.lzwActive = false := by
  obtain ⟨_, _, _, -, -, -, rfl⟩ := lzwEnd_ok h
  rfl

theorem lzwEnd_endFrame {c : Config} {port : Port} (h : lzwEnd c port s = .ok t) : EndFrame s t := by
  obtain ⟨t2, t3, t4, hframe, h3, h4, rfl⟩ := lzwEnd_ok h
  have h' := (hframe.trans ((flushBits_packerFrame c port t2).of_eq_ok h3)).trans
    ((flushPacket_packerFrame port t3).of_eq_ok h4)
  obtain ⟨hent, hhave, hfree, hht⟩ := h'.endFrame
  exact ⟨hent, hhave, hfree, hht⟩

/-- On its output list the engine changes nothing outside itself but that list, which grows. -/
theorem EngineStep.list_frame (h : EngineStep .list s t) :
    t.fmt = s.fmt ∧ t.path = s.path ∧ t.pixIdx = s.pixIdx ∧ t.fb = s.fb ∧
      t.env = { s.env with engineOut := t.env.engineOut } ∧ ∃ bytes, t.env.engineOut = s.env.engineOut ++ bytes := by
  obtain ⟨e, tr, bytes, rfl, -, hsink, -⟩ := h
  have htr : tr = [] := List.eq_nil_iff_forall_not_mem.mpr fun p hp => by
    obtain ⟨_, _, ⟨⟩, -⟩ := hsink p hp
  subst htr
  exact ⟨rfl, rfl, rfl, rfl, by simp, bytes, rfl⟩

/-- Settles O33: on the list port an engine operation is an `EngineStep`; LZW_BEGIN's next state is written out, the
other two keep what the packer keeps. -/
theorem frameOfEngineOperations : Obligations.FrameOfEngineOperations := by
  intro s t sym
  simp only [List.forall_mem_cons]
  refine ⟨⟨fun h => ?_, fun h => ?_, fun h => ?_, nofun⟩, fun h => ?_, fun h => ?_, fun h => ?_⟩
  · exact (all_of_engineOutcome (lzwBegin_step Config.hw .list s) h).list_frame
  · exact (all_of_engineOutcome (lzwSymbol_step _ _ _ s) (execLzwSymbol_next h).2).list_frame
  · exact (all_of_engineOutcome (lzwEnd_step _ _ s) (execLzwEnd_next h).2).list_frame
  · rw [exec_lzwBegin, lzwBegin_list] at h
    cases h
    exact ⟨rfl, rfl⟩
  · exact (all_of_engineOutcome (lzwSymbol_symbolFrame _ _ _ s) (execLzwSymbol_next h).2).active
  · obtain ⟨hent, hhave, hfree, hht⟩ :=
      lzwEnd_endFrame ((lzwEnd_list_isOk _ s).eq_ok_of_next (execLzwEnd_next h).2)
    exact ⟨hent, hhave, hfree, hht⟩

/-! #### LZW_END leaves nothing buffered; a full dictionary is emptied -/

theorem flushPacket_list_eng (h : flushPacket .list s = .ok t) : t.eng = s.eng.emptyPkt := by
  unfold flushPacket at h
  split at h
  · next hzero =>
    cases h
    rw [Engine.emptyPkt, ← hzero]
  · cases h
    rfl

theorem flushBits_accBits {c : Config} {port : Port} (h : flushBits c port s = .ok t) : t.eng.accBits = 0#5 := by
  unfold flushBits at h
  split at h
  · next hzero =>
    cases h
    exact hzero
  · obtain ⟨u, -, h⟩ := Res.exists_of_bind_eq_ok h
    cases h
    rfl

/-- Settles O48: the bit flush empties `acc`, the packet flush the packet, and both keep the dictionary. -/
theorem lzwEndFlushesEverything : Obligations.LzwEndFlushesEverything := by
  intro s hactive hhave
  obtain ⟨t, ht⟩ := lzwEnd_list_isOk Config.hw s
  have hframe := lzwEnd_endFrame ht
  refine ⟨t, by rw [exec_lzwEnd_of_active hactive hhave, ht, engineOutcome], ?_, ?_, lzwEnd_inactive ht, hframe.ht,
    hframe.freeEnt⟩
  · obtain ⟨t2, t3, t4, -, h3, h4, rfl⟩ := lzwEnd_ok ht
    rw [setEng_eng, Engine.stop_accBits, flushPacket_list_eng h4]
    exact flushBits_accBits h3
  · obtain ⟨t2, t3, t4, -, -, h4, rfl⟩ := lzwEnd_ok ht
    rw [setEng_eng, Engine.stop_pktCnt, flushPacket_list_eng h4]
    rfl

/-- The width after a ClearCode (42_lzw_engine.md R197). -/
theorem emit_clear_nBits {c : Config} {port : Port} (h : emit c port c.clear s = .ok t) :
    t.eng.nBits = BitVec.ofNat 4 (c.ics + 1) := by
  obtain ⟨u, -, h⟩ := Res.exists_of_bind_eq_ok h
  cases h
  rw [setEng_eng, Engine.setWidth_nBits, nextWidth, if_pos rfl]

/-- Settles O47: with the dictionary full, the miss emits `CLEAR` and empties it. -/
theorem lzwMissWhenFullClears : Obligations.LzwMissWhenFullClears := by
  intro s sym i hactive hhave hsym hlookup hfull
  obtain ⟨u, hemit⟩ := emit_list_isOk Config.hw s.eng.ent.toNat s
  obtain ⟨-, hhaveu, hfreeu, hactiveu, -⟩ := (emit_packerFrame _ _ _ s).of_eq_ok hemit
  have hnoRoom : ¬ hasRoom Config.hw u.eng = true := by
    rw [hasRoom_hw, hfreeu, hfull]
    exact lt_irrefl _
  obtain ⟨v, hclear⟩ := emit_list_isOk Config.hw Config.hw.clear (u.setEng (u.eng.setEnt sym.toNat))
  obtain ⟨hent, hhavev, -, hactivev, -⟩ := (emit_packerFrame _ _ _ _).of_eq_ok hclear
  have hmiss : lzwMiss Config.hw .list sym.toNat i s = .ok (v.setEng (v.eng.restart Config.hw)) := by
    rw [lzwMiss, hemit, Res.bind_ok, if_neg hnoRoom, hclear, Res.bind_ok]
  refine ⟨v.setEng (v.eng.restart Config.hw), ?_, ?_, ?_, ?_, rfl, emit_clear_nBits hclear,
    clearValid_slot_valid v.eng⟩
  · rw [exec_lzwSymbol_of_active hactive hsym, lzwSymbol_missed hhave hlookup, hmiss, engineOutcome]
  · rw [setEng_eng, Engine.restart_ent, hent]
    exact setEnt_ent_toNat (by omega)
  · exact (hhavev.trans hhaveu).trans hhave
  · exact (hactivev.trans hactiveu).trans hactive

end

end Sys2Proof.Machine

/-! ### The probe sequence (42_lzw_engine.md R188, R189) -/

namespace Sys2Proof.Machine

section
variable {c : Config} {e : Engine} {fcode : BitVec 20} {disp i : Nat}

theorem nextProbe_iterate_lt (hi : i < c.hsize) (k : Nat) : (nextProbe c disp)^[k] i < c.hsize := by
  induction k with
  | zero => exact hi
  | succ k ih =>
    rw [Function.iterate_succ_apply']
    exact nextProbe_lt ih

/-- Slots with the same residue are the same. -/
theorem eq_of_cast_eq {a b : Nat} (ha : a < 5003) (hb : b < 5003) (h : (a : ZMod 5003) = b) : a = b := by
  rwa [ZMod.natCast_eq_natCast_iff', Nat.mod_eq_of_lt ha, Nat.mod_eq_of_lt hb] at h

/-- The closed form of R188. -/
def probeSlot (i0 k : Nat) : Nat := if i0 = 0 then (5003 - k % 5003) % 5003 else (k + 1) * i0 % 5003

theorem probeSlot_lt (i0 k : Nat) : probeSlot i0 k < 5003 := by
  unfold probeSlot
  split <;> exact Nat.mod_lt _ (by decide)

/-- In the residues the closed form, too, is `k` subtractions of the displacement. -/
theorem probeSlot_cast {i0 : Nat} (hi : i0 < 5003) (k : Nat) :
    (probeSlot i0 k : ZMod 5003) = i0 - k * displacement Config.hw i0 := by
  have h0 : ((5003 : Nat) : ZMod 5003) = 0 := ZMod.natCast_self 5003
  unfold probeSlot displacement
  split
  · next hzero =>
    rw [ZMod.natCast_mod, Nat.cast_sub (Nat.mod_lt k (by decide)).le, ZMod.natCast_mod, h0, hzero]
    push_cast
    ring
  · rw [ZMod.natCast_mod, Config.hw_hsize, Nat.cast_sub hi.le, h0]
    push_cast
    ring

/-- Settles O52: both sides are below `HSIZE`, and in the residues of `HSIZE` both are `i0 - k * disp`. -/
theorem probeSequenceClosedForm : Obligations.ProbeSequenceClosedForm := by
  intro i0 k hi
  refine eq_of_cast_eq (nextProbe_iterate_lt (c := Config.hw) hi k) (probeSlot_lt i0 k) ?_
  exact (nextProbe_iterate_cast (displacement_range hi).2.le k).trans (probeSlot_cast hi k).symm

/-- A search that has ended ends alike with more fuel. -/
theorem probeFrom_add_of_some {fuel : Nat} {r : Bool × Nat} (h : probeFrom c e fcode disp fuel i = some r)
    (more : Nat) :
    probeFrom c e fcode disp (fuel + more) i = some r := by
  induction fuel generalizing i with
  | zero => cases h
  | succ fuel ih =>
    rw [Nat.succ_add, probeFrom_succ]
    rw [probeFrom_succ] at h
    split_ifs at h ⊢
    · exact h
    · exact h
    · exact ih h

/-- The indexes of the listed valid slots. -/
def validIndexes (e : Engine) : Finset Nat := ((e.ht.filter fun cell => cell.2.valid).map Prod.fst).toFinset

theorem validIndexes_card_le (e : Engine) : (validIndexes e).card ≤ validCount e :=
  (List.toFinset_card_le _).trans_eq (List.length_map _)

theorem mem_validIndexes {k : Nat} (h : (e.slot k).valid = true) : k ∈ validIndexes e := by
  have hlisted : e.slot k ≠ unlistedSlot := by
    intro heq
    rw [heq] at h
    cases h
  refine List.mem_toFinset.mpr (List.mem_map.mpr ⟨(k, e.slot k), ?_, rfl⟩)
  exact List.mem_filter.mpr ⟨Memory.mem_of_read hlisted, h⟩

/-- More probes than valid slots meet the key or an empty slot, as the first `HSIZE` probes meet different slots. -/
theorem exists_probeFrom_of_validCount {fuel : Nat} (hlow : 0 < disp) (hhigh : disp < 5003) (hfuel : fuel ≤ 5003)
    (hcount : validCount e < fuel) : ∃ r, probeFrom Config.hw e fcode disp fuel i = some r := by
  by_contra hnone
  have hvalid := valid_of_probeFrom_eq_none (Option.eq_none_iff_forall_ne_some.mpr fun r hr => hnone ⟨r, hr⟩)
  have hinj : Set.InjOn (fun k => (nextProbe Config.hw disp)^[k] i) (Finset.range fuel) :=
    (nextProbe_iterate_injOn hlow hhigh).mono (by simpa using hfuel)
  have hcard := Finset.card_le_card_of_injOn _
    (fun k hk => mem_validIndexes (hvalid k (Finset.mem_range.mp hk))) hinj
  rw [Finset.card_range] at hcard
  exact absurd (hcard.trans (validIndexes_card_le e)) (Nat.not_le.mpr hcount)

/-- Settles O51: 4091 probes are more than there are valid slots, and the search of `HSIZE` probes goes on no
further. -/
theorem probeEndsWithin4091 : Obligations.ProbeEndsWithin4091 := by
  intro e sym ent _ hcount hs he i0
  obtain ⟨hlow, hhigh⟩ := displacement_range (hashIndex_lt hs he)
  obtain ⟨r, hr⟩ := exists_probeFrom_of_validCount (e := e) (fcode := fcodeOf Config.hw sym ent) (i := i0) hlow hhigh
    (show 4091 ≤ 5003 by decide) (Nat.lt_succ_of_le hcount)
  exact ⟨r, hr, probeFrom_add_of_some hr 912⟩

end

/-! ### The closed form of the code stream: widths and the shortest payload (30_encoding.md R115,
42_lzw_engine.md R213) -/

/-- The position of the code to come in its segment, `ClearCode` being at 0: each code after the first one inserts a
pair. -/
def Coder.position (k : Coder) : Nat := k.free - 5

/-- The next code's width is that of its position (30_encoding.md R115). -/
def Coder.Scheduled (k : Coder) : Prop := k.width = codeWidth Config.hw k.position

section
variable {k : Coder} {x : Nat}

theorem codeWidth_hw {j : Nat} : codeWidth Config.hw j = min 12 (max 3 (Nat.size (6 + j - 2))) := rfl

theorem Coder.Scheduled.fresh (x : Nat) : (Coder.fresh Config.hw x).Scheduled := by
  show 3 = codeWidth Config.hw 1
  decide

theorem Coder.InRange.position_succ (h : k.InRange) : k.position + 1 = k.free + 1 - 5 := by
  have := h.free_low
  rw [Coder.position]
  omega

/-- The growth test (42_lzw_engine.md R196) keeps to the schedule: the bit length grows when the next code reaches a
power of two. -/
theorem Coder.InRange.grown_scheduled (h : k.InRange) (hs : k.Scheduled) :
    k.grown Config.hw = codeWidth Config.hw (k.position + 1) := by
  have hlow := h.free_low
  have hhigh := h.free_high
  have hfits := h.width_fits
  have hwidth : k.width = min 12 (max 3 (Nat.size (k.free - 1))) := by
    rw [hs, codeWidth_hw, Coder.position, show 6 + (k.free - 5) - 2 = k.free - 1 by omega]
  have hnext : codeWidth Config.hw (k.position + 1) = min 12 (max 3 (Nat.size k.free)) := by
    rw [codeWidth_hw, Coder.position, show 6 + (k.free - 5 + 1) - 2 = k.free by omega]
  have hmono : Nat.size (k.free - 1) ≤ Nat.size k.free := Nat.size_le_size (Nat.sub_le _ _)
  rw [h.grown_eq, hnext]
  split
  · next hgrow =>
    obtain ⟨hfull, h12⟩ := hgrow
    have hsize : Nat.size k.free = k.width + 1 := by rw [hfull, Nat.size_pow]
    have := h.width_low
    omega
  · next hsame =>
    rcases h.width_high.eq_or_lt with h12 | h12
    · omega
    · have hlt : k.free < 2 ^ k.width := Nat.lt_of_le_of_ne hfits fun hfull => hsame ⟨hfull, h12⟩
      have hsize : Nat.size k.free ≤ k.width := Nat.size_le.mpr hlt
      omega

theorem Coder.InRange.insertPair_scheduled (h : k.InRange) (hs : k.Scheduled) :
    (k.insertPair Config.hw x).Scheduled :=
  (h.grown_scheduled hs).trans (congrArg (codeWidth Config.hw) h.position_succ)

theorem onSchedule_cons_of_ne {c : Config} {j v n : Nat} {l : List (Nat × Nat)} (hv : v ≠ c.clear) :
    onSchedule c j ((v, n) :: l) ↔ n = codeWidth c j ∧ onSchedule c (j + 1) l := by
  rw [onSchedule, if_neg hv]

theorem onSchedule_cons_clear {c : Config} {j n : Nat} {l : List (Nat × Nat)} :
    onSchedule c j ((c.clear, n) :: l) ↔ n = codeWidth c j ∧ onSchedule c 1 l := by
  rw [onSchedule, if_pos rfl]

theorem codesFrom_onSchedule {xs : List Nat} (h : k.InRange) (hs : k.Scheduled) (hxs : ∀ x ∈ xs, x < 4) :
    onSchedule Config.hw k.position (codesFrom Config.hw k xs) := by
  induction xs generalizing k with
  | nil =>
    rw [codesFrom_nil, onSchedule_cons_of_ne h.ent_ne_clear, onSchedule_cons_of_ne (by decide)]
    exact ⟨hs, h.grown_scheduled hs, trivial⟩
  | cons x xs ih =>
    obtain ⟨hx, hxs⟩ := List.forall_mem_cons.mp hxs
    cases hfind : k.dict.lookup (k.ent, x) with
    | some code =>
      rw [codesFrom_hit hfind]
      exact ih (h.extend hfind) hs hxs
    | none =>
      by_cases hroom : k.free < 4096
      · rw [codesFrom_miss (c := Config.hw) hfind hroom, onSchedule_cons_of_ne h.ent_ne_clear, h.position_succ]
        exact ⟨hs, ih (h.insertPair hx hroom) (h.insertPair_scheduled hs) hxs⟩
      · rw [codesFrom_full (c := Config.hw) hfind hroom, onSchedule_cons_of_ne h.ent_ne_clear, onSchedule_cons_clear]
        exact ⟨hs, h.grown_scheduled hs, ih (Coder.InRange.fresh hx) (Coder.Scheduled.fresh x) hxs⟩

/-- Settles O56: from a ClearCode on the compressor keeps to the schedule, and the first code is one. -/
theorem codeWidthDependsOnPosition : Obligations.CodeWidthDependsOnPosition := by
  intro q hq
  cases q with
  | nil => trivial
  | cons x xs =>
    obtain ⟨hx, hxs⟩ := List.forall_mem_cons.mp hq
    rw [codes, onSchedule_cons_clear]
    exact ⟨by decide, codesFrom_onSchedule (Coder.InRange.fresh hx) (Coder.Scheduled.fresh x) hxs⟩

theorem Coder.width_le_grown (c : Config) (k : Coder) : k.width ≤ k.grown c := by
  unfold Coder.grown
  split
  · exact Nat.le_succ _
  · exact le_rfl

/-- At least the last match and the EOFCode follow, each of 3 bits or more. -/
theorem six_le_totalBits_codesFrom {xs : List Nat} (hwidth : 3 ≤ k.width) :
    6 ≤ totalBits (codesFrom Config.hw k xs) := by
  have hgrown := k.width_le_grown Config.hw
  induction xs generalizing k with
  | nil =>
    rw [codesFrom_nil]
    simp only [totalBits]
    omega
  | cons x xs ih =>
    cases hfind : k.dict.lookup (k.ent, x) with
    | some code =>
      rw [codesFrom_hit hfind]
      exact ih hwidth hgrown
    | none =>
      by_cases hroom : k.free < 4096
      · rw [codesFrom_miss (c := Config.hw) hfind hroom, totalBits]
        exact (ih (hwidth.trans hgrown) (Coder.width_le_grown _ _)).trans (Nat.le_add_left _ _)
      · rw [codesFrom_full (c := Config.hw) hfind hroom, totalBits, totalBits]
        omega

theorem payload_length (l : List (Nat × Nat)) : (payload l).length = (totalBits l + 7) / 8 := by
  rw [payload, List.length_map, List.length_range]

theorem two_le_payload_length {q : List Nat} (hne : q ≠ []) : 2 ≤ (payload (codes Config.hw q)).length := by
  cases q with
  | nil => exact absurd rfl hne
  | cons x xs =>
    have hrest := six_le_totalBits_codesFrom (k := Coder.fresh Config.hw x) (xs := xs) le_rfl
    rw [payload_length, codes, totalBits, Config.hw_ics]
    omega

theorem subBlocks_ne_nil {p : List Byte} (hp : p ≠ []) : subBlocks Config.hw p ≠ [] := by
  rw [subBlocks_of_ne_nil hp]
  exact List.cons_ne_nil _ _

theorem codes_singleton (x : Nat) : codes Config.hw [x] = [(4, 3), (x, 3), (5, 3)] := rfl

/-- Settles O57: the ClearCode, the last match and the EOFCode have 9 bits together at least. -/
theorem payloadHasTwoBytes : Obligations.PayloadHasTwoBytes := by
  refine ⟨fun x => ⟨codes_singleton x, ?_⟩, fun q hne => ⟨two_le_payload_length hne, ?_⟩⟩
  · simp [codes_singleton, payload_length, totalBits]
  · refine subBlocks_ne_nil fun hnil => ?_
    have := two_le_payload_length hne
    rw [hnil] at this
    cases this

end

end Sys2Proof.Machine

/-! ### A frame compressed by the engine driven alone (42_lzw_engine.md R181, R211) -/

namespace Sys2Proof.Machine

/-- LZW_SYMBOL for each symbol, then LZW_END, stopping where one of them does not complete. -/
def compressRest : List Nat → State → Res
  | [], s => lzwEnd Config.hw .list s
  | x :: xs, s => (lzwSymbol Config.hw .list x s).bind (compressRest xs)

/-- The words that drive the engine through `xs` (30_encoding.md R92). -/
def symbolOps (xs : List Nat) : List Instr := xs.map (fun x => Instr.lzwSymbol (BitVec.ofNat 8 x)) ++ [.lzwEnd]

section
variable {s t : State} {x : Nat} {xs : List Nat} {k : Coder}

/-- On its output list a symbol completes, or its search never ends. -/
theorem lzwSymbol_list_total (c : Config) (x : Nat) (s : State) :
    (lzwSymbol c .list x s).IsOk ∨ lzwSymbol c .list x s = .endless := by
  unfold lzwSymbol
  split
  · split
    · exact .inr rfl
    · exact .inl ⟨_, rfl⟩
    · exact .inl (lzwMiss_list_isOk c x _ s)
  · exact .inl ⟨_, rfl⟩

theorem exec_symbolOp (hactive : s.eng.lzwActive = true) (hx : x < 4) :
    exec (.lzwSymbol (BitVec.ofNat 8 x)) s = engineOutcome (lzwSymbol Config.hw .list x s) := by
  have hvalue : (BitVec.ofNat 8 x).toNat = x := by
    rw [BitVec.toNat_ofNat]
    omega
  rw [exec_lzwSymbol_of_active hactive (hvalue.trans_lt hx), hvalue]

/-- An active engine with a match, or one to come, refuses none of the operations. -/
theorem execAll_symbolOps (hactive : s.eng.lzwActive = true) (hmatch : s.eng.haveEnt = true ∨ xs ≠ [])
    (hxs : ∀ x ∈ xs, x < 4) : execAll (symbolOps xs) s = engineOutcome (compressRest xs s) := by
  induction xs generalizing s with
  | nil =>
    have hhave : s.eng.haveEnt = true := hmatch.resolve_right fun h => h rfl
    obtain ⟨t, ht⟩ := lzwEnd_list_isOk Config.hw s
    rw [symbolOps, List.map_nil, List.nil_append, execAll, exec_lzwEnd_of_active hactive hhave, compressRest, ht]
    rfl
  | cons x xs ih =>
    obtain ⟨hx, hxs⟩ := List.forall_mem_cons.mp hxs
    rw [symbolOps, List.map_cons, List.cons_append, execAll, exec_symbolOp hactive hx, compressRest]
    rcases lzwSymbol_list_total Config.hw x s with ⟨t, ht⟩ | hendless
    · have hframe := (lzwSymbol_symbolFrame _ _ _ s).of_eq_ok ht
      rw [ht]
      exact ih (hframe.active.trans hactive) (.inl hframe.haveEnt) hxs
    · rw [hendless]
      rfl

/-- With a match in hand the rest of the input sends what is owed for it. -/
theorem compressRest_produces (h : s.eng.Follows k) (hxs : ∀ x ∈ xs, x < 4) :
    Produces .list (s.eng.owed (codesFrom Config.hw k xs)) (fun _ => True) s (compressRest xs s) := by
  induction xs generalizing s k with
  | nil => exact lzwEnd_follows_produces h fun _ _ => trivial
  | cons x xs ih =>
    obtain ⟨hx, hxs⟩ := List.forall_mem_cons.mp hxs
    exact lzwSymbol_produces h hx fun t k' _ ht => ih ht hxs

/-- LZW_BEGIN, the symbols and LZW_END send the block without its terminator. -/
theorem compress_produces {q : List Nat} (hwf : s.eng.MemoriesWf) (hne : q ≠ []) (hq : ∀ x ∈ q, x < 4) :
    Produces .list (engineBytes Config.hw q) (fun _ => True) s
      ((lzwBegin Config.hw .list s).bind (compressRest q)) := by
  cases q with
  | nil => exact absurd rfl hne
  | cons x xs =>
    obtain ⟨hx, hxs⟩ := List.forall_mem_cons.mp hq
    exact lzwBegin_begun_produces hwf fun t _ ht =>
      firstSymbol_produces ht hx fun u k _ hu => compressRest_produces hu hxs

/-- On the output list the bytes sent are appended, and nothing raises. -/
theorem Produces.ok_of_list {bytes : List Byte} {Q : State → Prop} {r : Res} (h : Produces .list bytes Q s r) :
    ∃ t, r = .ok t ∧ t.env.engineOut = s.env.engineOut ++ bytes := by
  cases h with
  | ok hout hsame =>
    cases (out_list bytes s).symm.trans hout
    obtain ⟨draws, henv⟩ := hsame.env
    exact ⟨_, rfl, by rw [henv, setEnv_env]⟩
  | raised hout => cases (out_list bytes s).symm.trans hout

/-- Settles O54: none of the operations is refused, and together they send the block of the closed form. -/
theorem engineOutputIsBlock : Obligations.EngineOutputIsBlock := by
  intro s q hcanon hne hq
  obtain ⟨t, hrun, hout⟩ := (compress_produces (memoriesWf_of_canonical hcanon) hne hq).ok_of_list
  refine ⟨t, ?_, hout⟩
  show execAll (.lzwBegin :: symbolOps q) s = .next t
  rw [lzwBegin_list, Res.bind_ok] at hrun
  rw [execAll, exec_lzwBegin, lzwBegin_list, engineOutcome]
  dsimp only
  rw [execAll_symbolOps rfl (.inr hne) hq, hrun, engineOutcome]

end

end Sys2Proof.Machine

/-! ### `emit` of the engine driven alone (42_lzw_engine.md R195 to R201) -/

namespace Sys2Proof.Machine

/-- The `n` low bytes of a number, least significant first. -/
def lowBytes (n value : Nat) : List Byte := (List.range n).map fun i => BitVec.ofNat 8 (value / 256 ^ i)

theorem lowBytes_length (n value : Nat) : (lowBytes n value).length = n := by
  rw [lowBytes, List.length_map, List.length_range]

theorem lowBytes_succ (n value : Nat) : lowBytes (n + 1) value = BitVec.ofNat 8 value :: lowBytes n (value / 256) := by
  have hdiv (i : Nat) : value / 256 ^ (i + 1) = value / 256 / 256 ^ i := by
    rw [Nat.div_div_eq_div_mul, Nat.pow_succ, Nat.mul_comm]
  rw [lowBytes, List.range_succ_eq_map, List.map_cons, List.map_map, Nat.pow_zero, Nat.div_one]
  exact congrArg _ (List.map_congr_left fun i _ => congrArg _ (hdiv i))

/-- From `s` to `t` the bytes were pushed (42_lzw_engine.md R200, R201): they stand behind those of the packet, of which
the first 254, if there are as many, were output behind their length byte. -/
structure Pushed (bytes : List Byte) (s t : State) : Prop where
  fills : (s.eng.packet ++ bytes).length < 254 →
    t.eng.packet = s.eng.packet ++ bytes ∧ t.env.engineOut = s.env.engineOut
  flushes : 254 ≤ (s.eng.packet ++ bytes).length →
    t.eng.packet = (s.eng.packet ++ bytes).drop 254 ∧
      t.env.engineOut = s.env.engineOut ++ 0xFE#8 :: (s.eng.packet ++ bytes).take 254
  untouched : ∀ a, (∀ j, j < bytes.length → a ≠ (s.eng.pktCnt.toNat + j) % 254) → t.eng.pktByte a = s.eng.pktByte a

section
variable {s t u : State} {a b : List Byte}

theorem Pushed.nil (h : s.eng.PacketOpen) : Pushed [] s s where
  fills _ := ⟨(List.append_nil _).symm, rfl⟩
  flushes hfull := by
    rw [List.append_nil, Engine.packet_length] at hfull
    exact absurd hfull (Nat.not_le.mpr h.room)
  untouched _ _ := rfl

/-- Where the next byte goes: behind those pushed, or to the start again after a flush. -/
theorem Pushed.pktCnt (h : Pushed a s t) (ha : (s.eng.packet ++ a).length < 508) :
    t.eng.pktCnt.toNat = (s.eng.pktCnt.toNat + a.length) % 254 := by
  rw [← Engine.packet_length, ← Engine.packet_length, ← List.length_append]
  rcases Nat.lt_or_ge (s.eng.packet ++ a).length 254 with hlt | hge
  · rw [(h.fills hlt).1, Nat.mod_eq_of_lt hlt]
  · rw [(h.flushes hge).1, List.length_drop]
    omega

/-- At most one flush falls on the bytes of two pushes. -/
theorem Pushed.append (h : Pushed a s t) (h' : Pushed b t u) (hlen : (s.eng.packet ++ (a ++ b)).length < 508) :
    Pushed (a ++ b) s u := by
  have hassoc : s.eng.packet ++ (a ++ b) = (s.eng.packet ++ a) ++ b := (List.append_assoc _ _ _).symm
  have hlena : (s.eng.packet ++ a).length < 508 := by
    rw [hassoc, List.length_append] at hlen
    omega
  have huntouched : ∀ k, (∀ j, j < (a ++ b).length → k ≠ (s.eng.pktCnt.toNat + j) % 254) →
      u.eng.pktByte k = s.eng.pktByte k := by
    intro k hk
    rw [List.length_append] at hk
    refine (h'.untouched k fun j hj => ?_).trans (h.untouched k fun j hj => hk j (by omega))
    rw [h.pktCnt hlena, Nat.mod_add_mod, Nat.add_assoc]
    exact hk (a.length + j) (by omega)
  rw [hassoc] at hlen
  rcases Nat.lt_or_ge (s.eng.packet ++ a).length 254 with hlt | hge
  · obtain ⟨hpacket, hout⟩ := h.fills hlt
    obtain ⟨hfills, hflushes, -⟩ := h'
    rw [hpacket, hout] at hfills hflushes
    rw [← hassoc] at hfills hflushes
    exact ⟨hfills, hflushes, huntouched⟩
  · obtain ⟨hpacket, hout⟩ := h.flushes hge
    have hlt : (t.eng.packet ++ b).length < 254 := by
      rw [hpacket, List.length_append, List.length_drop]
      rw [List.length_append] at hlen
      omega
    obtain ⟨hpacket', hout'⟩ := h'.fills hlt
    refine ⟨fun hshort => ?_, fun _ => ⟨?_, ?_⟩, huntouched⟩
    · rw [hassoc, List.length_append] at hshort
      omega
    · rw [hpacket', hpacket, hassoc, List.drop_append_of_le_length hge]
    · rw [hout', hout, hassoc, List.take_append_of_le_length hge]

/-- The packet goes out behind its length byte (42_lzw_engine.md R201). -/
theorem flushPacket_list (h : s.eng.pktCnt ≠ 0#8) :
    flushPacket .list s =
      .ok ((s.setEnv { s.env with engineOut := s.env.engineOut ++ s.eng.pktCnt :: s.eng.packet }).setEng
        s.eng.emptyPkt) := by
  rw [flushPacket, if_neg h]
  rfl

/-- `push_byte` on the output list (42_lzw_engine.md R200). -/
theorem pushByte_list (h : s.eng.PacketOpen) (b : Byte) :
    ∃ t, pushByte Config.hw .list b s = .ok t ∧ EngineStep .list s t ∧ SameButPacket s.eng t.eng ∧
      t.eng.PacketOpen ∧ Pushed [b] s t := by
  have hcount := h.storePkt_count b
  have hpacket := h.packet_storePkt b
  have hroom := h.room
  have hlen : (s.eng.packet ++ [b]).length = s.eng.pktCnt.toNat + 1 := by
    rw [List.length_append, Engine.packet_length, List.length_singleton]
  have hwf : Memory.wf unlistedByte (s.eng.storePkt b).pkt = true := Memory.wf_write h.wf _ b
  have huntouched : ∀ k, (∀ j, j < [b].length → k ≠ (s.eng.pktCnt.toNat + j) % 254) →
      (s.eng.storePkt b).pktByte k = s.eng.pktByte k := by
    intro k hk
    refine Memory.read_write_ne s.eng.pkt (fun heq => hk 0 Nat.one_pos ?_) b
    rw [Nat.add_zero, Nat.mod_eq_of_lt hroom, heq]
  rw [pushByte, flushIfFull, setEng_eng, Config.hw_pktMax, hcount]
  split
  · next hfull =>
    have hcnt : (s.eng.storePkt b).pktCnt = 0xFE#8 := by
      apply BitVec.eq_of_toNat_eq
      rw [hcount]
      simp only [BitVec.toNat_ofNat]
      omega
    have hexact : (s.eng.packet ++ [b]).length = 254 := by omega
    have hflush := flushPacket_list (s := s.setEng (s.eng.storePkt b)) (by rw [setEng_eng, hcnt]; decide)
    rw [setEng_eng, hcnt, hpacket] at hflush
    refine ⟨_, hflush, (EngineStep.setEng .list s _).trans ((flushPacket_step .list _).of_eq_ok hflush), ⟨_, _, rfl⟩,
      ⟨empty_packet_room, hwf⟩, fun hshort => ?_, fun _ => ⟨?_, ?_⟩, huntouched⟩
    · omega
    · rw [List.drop_of_length_le hexact.le]
      rfl
    · rw [List.take_of_length_le hexact.le]
      rfl
  · next hshort =>
    refine ⟨_, rfl, EngineStep.setEng .list s _, ⟨_, _, rfl⟩, ⟨?_, hwf⟩, fun _ => ⟨hpacket, rfl⟩, fun hfull => ?_,
      huntouched⟩
    · rw [setEng_eng]
      omega
    · omega

/-- The loop of `emit` moves the low bytes of `acc` into the packet. -/
theorem peelBytes_list {n : Nat} (h : s.eng.PacketOpen) (hn : 8 * n ≤ s.eng.accBits.toNat) :
    ∃ t, peelBytes Config.hw .list n s = .ok t ∧ Peeled .list n s t ∧ Pushed (lowBytes n s.eng.acc.toNat) s t := by
  induction n generalizing s with
  | zero =>
    exact ⟨s, rfl, ⟨EngineStep.refl .list s, PackerFrame.refl s, h, rfl, (Nat.div_one _).symm, rfl⟩, Pushed.nil h⟩
  | succ n ih =>
    have hroom := h.room
    have hbits := s.eng.accBits.isLt
    obtain ⟨t, hpush, hstep, hsame, hopen, hpushed⟩ := pushByte_list h (lowByte s.eng)
    have hacc : t.eng.dropByte.acc.toNat = s.eng.acc.toNat / 256 := by
      obtain ⟨pkt, count, heng⟩ := hsame
      rw [heng]
      simp [Nat.shiftRight_eq_div_pow]
    have hleft : t.eng.dropByte.accBits.toNat = s.eng.accBits.toNat - 8 := by
      obtain ⟨pkt, count, heng⟩ := hsame
      rw [heng]
      simp only [Engine.dropByte_accBits, BitVec.toNat_ofNat]
      omega
    obtain ⟨u, hpeel, hpeeled, hrest⟩ := ih (s := t.setEng t.eng.dropByte) ⟨hopen.room, hopen.wf⟩
      (by rw [setEng_eng, hleft]; omega)
    have hlow : BitVec.ofNat 8 s.eng.acc.toNat = lowByte s.eng := by
      rw [BitVec.ofNat_toNat]
      rfl
    have hrest' : Pushed (lowBytes n (s.eng.acc.toNat / 256)) t u := by
      rw [setEng_eng, hacc] at hrest
      exact ⟨hrest.fills, hrest.flushes, hrest.untouched⟩
    refine ⟨u, ?_, Peeled.succ hstep hsame (by omega) hpeeled, ?_⟩
    · rw [peelBytes, hpush, Res.bind_ok, hpeel]
    · rw [lowBytes_succ, hlow, ← List.singleton_append]
      refine hpushed.append hrest' ?_
      rw [List.length_append, List.length_append, Engine.packet_length, lowBytes_length, List.length_singleton]
      omega

/-- What `emit` on the output list leaves in the packer and in the packet. -/
structure EmittedList (v : Nat) (s t : State) : Prop extends Emitted .list v s t where
  bits : t.eng.accBits.toNat = (s.eng.accBits.toNat + s.eng.nBits.toNat) % 8
  acc : t.eng.acc.toNat =
    (s.eng.acc.toNat + v * 2 ^ s.eng.accBits.toNat) / 256 ^ ((s.eng.accBits.toNat + s.eng.nBits.toNat) / 8)
  pushed : Pushed (lowBytes ((s.eng.accBits.toNat + s.eng.nBits.toNat) / 8)
    (s.eng.acc.toNat + v * 2 ^ s.eng.accBits.toNat)) s t

theorem emit_list {v : Nat} (hready : s.eng.PackerReady) (hwidth : s.eng.nBits.toNat ≤ 12)
    (hv : v < 2 ^ s.eng.nBits.toNat) : ∃ t, emit Config.hw .list v s = .ok t ∧ EmittedList v s t := by
  have hacc := (hready.pack_acc hwidth hv).1
  have hbits := hready.pack_bits hwidth v
  obtain ⟨t, hpeel, hpeeled, hpushed⟩ := peelBytes_list (n := (s.eng.pack v).accBits.toNat / 8)
    (s := s.setEng (s.eng.pack v)) ⟨hready.packet.room, hready.packet.wf⟩ (by rw [setEng_eng]; omega)
  refine ⟨_, by rw [emit, hpeel, Res.bind_ok], hpeeled.emitted hready hwidth hv, ?_, ?_, ?_⟩
  · show t.eng.accBits.toNat = _
    rw [hpeeled.bits, setEng_eng, hbits]
    omega
  · show t.eng.acc.toNat = _
    rw [hpeeled.acc, setEng_eng, hacc, hbits]
  · rw [setEng_eng, hacc, hbits] at hpushed
    exact ⟨hpushed.fills, hpushed.flushes, hpushed.untouched⟩

theorem EngineRanges.packerReady {e : Engine} (h : EngineRanges Config.hw e)
    (hwf : Memory.wf unlistedByte e.pkt = true) : e.PackerReady :=
  ⟨⟨h.packet_high, hwf⟩, h.bits_high, h.acc_fits⟩

theorem nextWidth_hw (v : Nat) (e : Engine) : nextWidth Config.hw v e =
    if v = 4 then 3
    else if (if e.nBits.toNat = 12 then 4096 else 2 ^ e.nBits.toNat - 1) < e.freeEnt.toNat then e.nBits.toNat + 1
    else e.nBits.toNat := rfl

/-- Settles O50: `emit` packs the code, then pushes the whole low bytes one by one. -/
theorem emitPacksCode : Obligations.EmitPacksCode := by
  intro s v hranges hwf hv
  obtain ⟨t, hemit, h⟩ := emit_list (hranges.packerReady hwf) hranges.width_high hv
  refine ⟨t, hemit, h.bits, h.acc, h.width.trans (nextWidth_hw v s.eng), h.pushed.fills, h.pushed.flushes,
    fun a ha => h.pushed.untouched a fun j hj => ha j ?_⟩
  rwa [lowBytes_length] at hj

end

end Sys2Proof.Machine

/-! ### Every step keeps an active engine in range and its dictionary well formed (42_lzw_engine.md R210, R214) -/

namespace Sys2Proof.Machine

/-! #### The engine after a frame command -/

section
variable {s t : State}

theorem Ended.eng (h : Ended s t) : t.eng = s.eng := by
  obtain ⟨_, _, rfl⟩ := h.eq_setFmt
  rfl

theorem Requested.eng (h : Requested s t) : t.eng = s.eng := by
  obtain ⟨tr, -, rfl⟩ := h
  rfl

/-- A frame compressed in full has ended in LZW_END. -/
theorem encodeFrame_inactive {c : Config} {ctx : Ctx} (h : encodeFrame c ctx s = .ok t) : t.eng.lzwActive = false := by
  obtain ⟨_, -, h⟩ := Res.exists_of_bind_eq_ok h
  obtain ⟨_, -, h⟩ := Res.exists_of_bind_eq_ok h
  obtain ⟨_, hend, h⟩ := Res.exists_of_bind_eq_ok h
  rw [eng_of_out_ok h]
  exact lzwEnd_inactive hend

theorem writeFrame_inactive {c : Config} (h : writeFrame c s = .ok t) : t.eng.lzwActive = false := by
  obtain ⟨_, -, h⟩ := Res.exists_of_bind_eq_ok h
  obtain ⟨_, -, h⟩ := Res.exists_of_bind_eq_ok h
  obtain ⟨_, -, h⟩ := Res.exists_of_bind_eq_ok h
  exact encodeFrame_inactive h

theorem writeDocument_inactive {c : Config} (h : writeDocument c s = .ok t) : t.eng.lzwActive = false := by
  obtain ⟨_, -, h⟩ := Res.exists_of_bind_eq_ok h
  obtain ⟨_, -, h⟩ := Res.exists_of_bind_eq_ok h
  obtain ⟨_, -, h⟩ := Res.exists_of_bind_eq_ok h
  obtain ⟨_, -, h⟩ := Res.exists_of_bind_eq_ok h
  obtain ⟨_, hframe, h⟩ := Res.exists_of_bind_eq_ok h
  rw [eng_of_out_ok h]
  exact encodeFrame_inactive hframe

/-- From `s` to `t` the engine was left alone, or stopped. -/
def LeftOrStopped (s t : State) : Prop := t.eng = s.eng ∨ t.eng.lzwActive = false

theorem addFrame_leftOrStopped {c : Config} {len : BitVec 24} (h : addFrame c len s = some t) : LeftOrStopped s t := by
  unfold addFrame at h
  split at h
  · cases h
    exact .inl rfl
  · split at h
    · cases hw : writeFrame c s with
      | ok u =>
        rw [hw] at h
        cases h
        have hinactive : u.eng.lzwActive = false := writeFrame_inactive hw
        exact .inr hinactive
      | raised u =>
        rw [hw] at h
        cases h
        exact .inr rfl
      | endless =>
        rw [hw] at h
        cases h
    · cases h
      exact .inl rfl

/-- ONESHOT's clean-up issues requests only; a raise abandons the engine. -/
theorem oneShotEnd_inactive {r : Res} (hr : ∀ u, r = .ok u → u.eng.lzwActive = false) (h : oneShotEnd r = some t) :
    t.eng.lzwActive = false := by
  cases r with
  | ok u =>
    rcases hclose : sinkReq (.close .oneshot) u with ⟨ok, v⟩
    have hv : v.eng.lzwActive = false := by
      rw [(requested_of_sinkReq hclose).eng]
      exact hr u rfl
    simp only [oneShotEnd, hclose] at h
    cases ok <;> cases h <;> exact hv
  | raised u =>
    cases h
    rfl
  | endless => cases h

theorem oneShot_leftOrStopped {c : Config} {len : BitVec 24} (h : oneShot c len s = some t) : LeftOrStopped s t := by
  unfold oneShot at h
  split at h
  · rcases hopen : sinkReq (.openSink .oneshot s.path) s with ⟨ok, u⟩
    simp only [hopen] at h
    cases ok with
    | true => exact .inr (oneShotEnd_inactive (fun v => writeDocument_inactive) h)
    | false =>
      cases h
      exact .inl (requested_of_sinkReq hopen).eng
  · cases h
    exact .inl rfl

/-! #### All that an instruction or a step can do to the engine -/

/-- The engine was left alone or stopped, began a frame, or consumed a legal symbol. -/
inductive EngineRan (s t : State) : Prop
  | leftOrStopped (h : LeftOrStopped s t)
  | began (h : lzwBegin Config.hw .list s = .ok t)
  | consumed {x : Nat} (hactive : s.eng.lzwActive = true) (hx : x < 4) (h : lzwSymbol Config.hw .list x s = .ok t)

/-- LZW_SYMBOL, where it answers a next state, has consumed a legal symbol (42_lzw_engine.md R184). -/
theorem execLzwSymbol_consumed {sym : BitVec 8} (h : execLzwSymbol sym s = .next t) : EngineRan s t := by
  obtain ⟨hactive, hrun⟩ := execLzwSymbol_next h
  have hsym : sym.toNat < 4 := by
    by_contra hge
    have hrefused := (engineRefusals s sym).2.1 hactive (Nat.le_of_not_lt hge)
    cases hrefused.symm.trans h
  rcases lzwSymbol_list_total Config.hw sym.toNat s with hok | hendless
  · exact .consumed hactive hsym (hok.eq_ok_of_next hrun)
  · rw [hendless] at hrun
    cases hrun

theorem exec_engineRan {i : Instr} (h : exec i s = .next t) : EngineRan s t := by
  cases i with
  | addframe len =>
    obtain ⟨u, hu, rfl⟩ := frameOutcome_eq_next h
    have hleft : LeftOrStopped s u := addFrame_leftOrStopped hu
    exact .leftOrStopped hleft
  | oneshot len =>
    obtain ⟨u, hu, rfl⟩ := execOneshot_next h
    have hleft : LeftOrStopped s u := oneShot_leftOrStopped hu
    exact .leftOrStopped hleft
  | lzwBegin => exact .began ((lzwBegin_list_isOk _ s).eq_ok_of_next h)
  | lzwSymbol sym => exact execLzwSymbol_consumed h
  | lzwEnd => exact .leftOrStopped (.inr (lzwEnd_inactive ((lzwEnd_list_isOk _ s).eq_ok_of_next (execLzwEnd_next h).2)))
  | start len =>
    refine .leftOrStopped (.inl ?_)
    cases exec_ran h with
    | startFails hu => exact hu.eng
    | startOpens _ hu => exact hu.eng
  | finish len =>
    refine .leftOrStopped (.inl ?_)
    cases exec_ran h with
    | finishFails => rfl
    | finishEnds _ hu hend => exact hend.eng.trans hu.eng
  | quant pixel =>
    cases h
    exact .leftOrStopped (.inl rfl)

/-- A step changes the engine by an instruction, or stops it by a reset. -/
theorem step_engineRan (h : step s = .next t) : ∃ u, u.eng = s.eng ∧ EngineRan u t := by
  obtain ⟨-, rfl⟩ | ⟨m, rest, -, heffect⟩ := step_effect h
  · exact ⟨t, rfl, .leftOrStopped (.inl rfl)⟩
  · refine ⟨s.setInbox rest, rfl, ?_⟩
    cases heffect with
    | runs _ hexec => exact exec_engineRan hexec
    | illegal => exact .leftOrStopped (.inl rfl)
    | path => exact .leftOrStopped (.inl rfl)
    | status => exact .leftOrStopped (.inl rfl)
    | outside => exact .leftOrStopped (.inl rfl)
    | writeFb => exact .leftOrStopped (.inl rfl)
    | raceFb => exact .leftOrStopped (.inl rfl)
    | reset => exact .leftOrStopped (.inr rfl)

/-- An invariant of an active engine: LZW_BEGIN establishes it and a symbol keeps it. -/
theorem step_keeps_of_active {P : Engine → Prop} (h : step s = .next t) (hs : s.eng.lzwActive = true → P s.eng)
    (hbegin : P s.eng.beginFrame)
    (hsymbol : ∀ u x, u.eng = s.eng → s.eng.lzwActive = true → x < 4 → lzwSymbol Config.hw .list x u = .ok t → P t.eng)
    (ht : t.eng.lzwActive = true) : P t.eng := by
  obtain ⟨u, hu, hran⟩ := step_engineRan h
  cases hran with
  | leftOrStopped hleft =>
    rcases hleft with hsame | hstopped
    · rw [hsame, hu] at ht ⊢
      exact hs ht
    · rw [hstopped] at ht
      cases ht
  | began hrun =>
    rw [lzwBegin_list] at hrun
    cases hrun
    rw [setEng_eng, hu]
    exact hbegin
  | consumed hactive hx hrun => exact hsymbol u _ hu (hu ▸ hactive) hx hrun

/-! #### All that LZW_SYMBOL can do where it completes -/

/-- The symbol `x` was consumed: as the first one, by a hit, by a miss with room, or by one without
(42_lzw_engine.md R185, R192 to R194). -/
inductive Consumed (x : Nat) (s : State) : State → Prop
  | first (hhave : s.eng.haveEnt = false) : Consumed x s (s.setEng (s.eng.setEnt x).markEnt)
  | hit {i : Nat} (hhave : s.eng.haveEnt = true) (hlookup : lookup Config.hw s.eng x s.eng.ent.toNat = some (true, i)) :
    Consumed x s (s.setEng (s.eng.setEnt (s.eng.slot i).code.toNat))
  | inserted {i : Nat} {t : State} (hhave : s.eng.haveEnt = true)
    (hlookup : lookup Config.hw s.eng x s.eng.ent.toNat = some (false, i)) (hroom : s.eng.freeEnt.toNat < 4096)
    (hemit : Emitted .list s.eng.ent.toNat s t) :
    Consumed x s (t.setEng ((t.eng.setEnt x).insert i (fcodeOf Config.hw x s.eng.ent.toNat)))
  | cleared {i : Nat} {t u : State} (hhave : s.eng.haveEnt = true)
    (hlookup : lookup Config.hw s.eng x s.eng.ent.toNat = some (false, i)) (hfull : ¬ s.eng.freeEnt.toNat < 4096)
    (hemit : Emitted .list s.eng.ent.toNat s t) (hclear : Emitted .list 4 (t.setEng (t.eng.setEnt x)) u) :
    Consumed x s (u.setEng (u.eng.restart Config.hw))

/-- The registers that the compressor of the closed form has, too. -/
def Engine.coder (e : Engine) : Coder :=
  { dict := [], free := e.freeEnt.toNat, width := e.nBits.toNat, ent := e.ent.toNat }

theorem EngineRanges.coder_inRange {e : Engine} (h : EngineRanges Config.hw e) (hhave : e.haveEnt = true) :
    e.coder.InRange where
  free_low := h.free_low
  free_high := h.free_high
  width_low := h.width_low
  width_high := h.width_high
  width_fits := by
    show e.freeEnt.toNat ≤ 2 ^ e.nBits.toNat
    rcases (show e.nBits.toNat ≤ 12 from h.width_high).lt_or_eq with hlt | h12
    · exact h.width_fits hlt
    · rw [h12]
      exact h.free_high
  ent_range := h.ent_range hhave
  code_range := nofun

theorem nextWidth_ent_eq_grown {e : Engine} (h : e.coder.InRange) :
    nextWidth Config.hw e.ent.toNat e = e.coder.grown Config.hw := by
  have hclear : e.ent.toNat ≠ Config.hw.clear := h.ent_ne_clear
  rw [nextWidth, if_neg hclear]
  rfl

theorem lzwMiss_consumed {x i : Nat} (hranges : EngineRanges Config.hw s.eng)
    (hwf : Memory.wf unlistedByte s.eng.pkt = true) (hhave : s.eng.haveEnt = true)
    (hlookup : lookup Config.hw s.eng x s.eng.ent.toNat = some (false, i))
    (h : lzwMiss Config.hw .list x i s = .ok t) : Consumed x s t := by
  have hin := hranges.coder_inRange hhave
  obtain ⟨u, hrun, hemit⟩ := emit_list (v := s.eng.ent.toNat) (hranges.packerReady hwf) hranges.width_high hin.ent_lt
  obtain ⟨-, -, hfree, -⟩ := hemit.frame
  rw [lzwMiss, hrun, Res.bind_ok] at h
  split at h
  · next hroom =>
    cases h
    rw [hasRoom_hw, hfree] at hroom
    exact .inserted hhave hlookup hroom hemit.toEmitted
  · next hfull =>
    rw [hasRoom_hw, hfree] at hfull
    have hgrown := hemit.width.trans (nextWidth_ent_eq_grown hin)
    obtain ⟨v, hrun', hclear⟩ := emit_list (s := u.setEng (u.eng.setEnt x)) (v := 4)
      (hemit.ready.congr rfl rfl rfl rfl) (hgrown.trans_le hin.grown_high)
      (lt_two_pow_of_three_le (by decide) (hin.grown_low.trans_eq hgrown.symm))
    rw [Config.hw_clear, hrun', Res.bind_ok] at h
    cases h
    exact .cleared hhave hlookup hfull hemit.toEmitted hclear.toEmitted

theorem lzwSymbol_consumed {x : Nat} (hranges : EngineRanges Config.hw s.eng)
    (hwf : Memory.wf unlistedByte s.eng.pkt = true) (h : lzwSymbol Config.hw .list x s = .ok t) : Consumed x s t := by
  cases hhave : s.eng.haveEnt with
  | false =>
    rw [lzwSymbol_first hhave] at h
    cases h
    exact .first hhave
  | true =>
    cases hlookup : lookup Config.hw s.eng x s.eng.ent.toNat with
    | none =>
      rw [lzwSymbol, if_pos hhave, hlookup] at h
      cases h
    | some r =>
      obtain ⟨hit, i⟩ := r
      cases hit with
      | true =>
        rw [lzwSymbol_hit hhave hlookup] at h
        cases h
        exact .hit hhave hlookup
      | false =>
        rw [lzwSymbol_missed hhave hlookup] at h
        exact lzwMiss_consumed hranges hwf hhave hlookup h

end

/-! #### The ranges -/

section
variable {e : Engine} {s t : State} {x : Nat}

theorem EngineRanges.codesInRange (h : EngineRanges Config.hw e) : CodesInRange e := h.code_range

/-- An engine whose packer is ready, with the registers of a compressor in range. -/
theorem engineRanges_of_inRange {k : Coder} (hk : k.InRange) (hready : e.PackerReady) (hcodes : CodesInRange e)
    (hfree : e.freeEnt.toNat = k.free) (hwidth : e.nBits.toNat = k.width)
    (hent : e.haveEnt = true → e.ent.toNat = k.ent) : EngineRanges Config.hw e where
  free_low := hfree ▸ hk.free_low
  free_high := hfree ▸ hk.free_high
  width_low := hwidth ▸ hk.width_low
  width_high := hwidth ▸ hk.width_high
  width_fits _ := hfree ▸ hwidth ▸ hk.width_fits
  bits_high := hready.bits
  acc_fits := hready.acc
  packet_high := hready.packet.room
  ent_range hhave := by
    rw [hent hhave, hfree]
    exact hk.ent_range
  code_range := hcodes

theorem codesInRange_of_empty (h : ∀ k, (e.slot k).valid = false) : CodesInRange e := by
  intro k hvalid
  rw [h] at hvalid
  cases hvalid

theorem codesInRange_insert {j : Nat} {fcode : BitVec 20} (hwf : Memory.wf unlistedSlot e.ht = true)
    (hcodes : CodesInRange e) (hlow : 6 ≤ e.freeEnt.toNat) (hroom : e.freeEnt.toNat < 4096) :
    CodesInRange (e.insert j fcode) := by
  intro k hvalid
  rw [insert_freeEnt_toNat hroom]
  obtain ⟨-, hslot⟩ | ⟨-, hslot, hvalid'⟩ := insert_slot_cases hwf hvalid
  · rw [hslot]
    have hcode : (BitVec.ofNat 12 e.freeEnt.toNat).toNat = e.freeEnt.toNat := newCode_toNat hroom
    dsimp only
    omega
  · rw [hslot]
    have := hcodes k hvalid'
    omega

/-- LZW_BEGIN establishes the ranges (42_lzw_engine.md R183, R214). -/
theorem beginFrame_engineRanges (e : Engine) : EngineRanges Config.hw e.beginFrame where
  free_low := le_rfl
  free_high := show 6 ≤ 4096 by decide
  width_low := le_rfl
  width_high := show 3 ≤ 12 by decide
  width_fits _ := show 6 ≤ 2 ^ 3 by decide
  bits_high := show 3 ≤ 7 by decide
  acc_fits := show 4 < 2 ^ 3 by decide
  packet_high := empty_packet_room
  ent_range := nofun
  code_range := codesInRange_of_empty (clearValid_slot_valid e)

/-- A symbol keeps the ranges. -/
theorem Consumed.engineRanges (h : Consumed x s t) (hx : x < 4) (hranges : EngineRanges Config.hw s.eng)
    (hwf : s.eng.MemoriesWf) : EngineRanges Config.hw t.eng := by
  have hsymbol (e : Engine) : (e.setEnt x).ent.toNat = x := setEnt_ent_toNat (by omega)
  cases h with
  | first => exact { hranges with ent_range := fun _ => .inl ((hsymbol s.eng).trans_lt hx) }
  | @hit i hhave hlookup =>
    have hcode := hranges.code_range i (lookup_found_valid hlookup)
    refine { hranges with ent_range := fun _ => .inr ?_ }
    rw [setEng_eng, setEnt_ent_toNat (s.eng.slot i).code.isLt]
    exact hcode
  | @inserted i u hhave hlookup hroom hemit =>
    have hin := hranges.coder_inRange hhave
    obtain ⟨-, -, hfree, -, hht⟩ := hemit.frame
    have hfree' : (u.eng.setEnt x).freeEnt.toNat = s.eng.freeEnt.toNat := congrArg BitVec.toNat hfree
    have hcodes : CodesInRange (u.eng.setEnt x) := by
      intro k hvalid
      rw [slot_congr (e' := u.eng.setEnt x) hht] at hvalid ⊢
      rw [hfree']
      exact hranges.codesInRange k hvalid
    refine engineRanges_of_inRange (hin.insertPair hx hroom) (hemit.ready.congr rfl rfl rfl rfl)
      (codesInRange_insert ?_ hcodes ?_ ?_) ?_ (hemit.width.trans (nextWidth_ent_eq_grown hin)) fun _ => hsymbol u.eng
    · rw [Engine.setEnt_ht, hht]
      exact hwf.1
    · rw [hfree']
      exact hranges.free_low
    · rwa [hfree']
    · rw [setEng_eng, insert_freeEnt_toNat (by rwa [hfree']), hfree']
      rfl
  | @cleared i u v hhave hlookup hfull hemit hclear =>
    obtain ⟨hent, -⟩ := hclear.frame
    refine engineRanges_of_inRange (Coder.InRange.fresh hx) (hclear.ready.congr rfl rfl rfl rfl)
      (codesInRange_of_empty (clearValid_slot_valid v.eng)) rfl hclear.width fun _ => ?_
    rw [setEng_eng, Engine.restart_ent, hent]
    exact hsymbol u.eng

/-- Settles O40: of what a step can do to the engine, LZW_BEGIN establishes the ranges and LZW_SYMBOL keeps them. -/
theorem stepKeepsEngineInRange : Obligations.StepKeepsEngineInRange := by
  intro s t hcanon hrange h
  have hwf := memoriesWf_of_canonical hcanon
  refine step_keeps_of_active h hrange (beginFrame_engineRanges s.eng) fun u x hu hactive hx hrun => ?_
  have hranges := hrange hactive
  rw [← hu] at hranges hwf
  exact (lzwSymbol_consumed hranges hwf.2 hrun).engineRanges hx hranges hwf

/-! #### The dictionary -/

/-- The search for the pair of the match and a symbol has stopped, in an engine in range with room. -/
theorem insertable_of_ranges {i : Nat} (hranges : EngineRanges Config.hw e) (hdict : DictionaryWf Config.hw e)
    (hwf : Memory.wf unlistedSlot e.ht = true) (hhave : e.haveEnt = true) (hx : x < 4)
    (hmiss : lookup Config.hw e x e.ent.toNat = some (false, i)) (hroom : e.freeEnt.toNat < 4096) :
    Insertable e x e.ent.toNat i where
  dictionary := hdict
  wf := hwf
  codes := hranges.codesInRange
  low := hranges.free_low
  room := hroom
  symbol := hx
  pre := hranges.ent_range hhave
  missed := hmiss

/-- It depends on the dictionary and the next free code alone. -/
theorem Insertable.congr {e' : Engine} {sym ent i : Nat} (h : Insertable e sym ent i) (hht : e'.ht = e.ht)
    (hfree : e'.freeEnt = e.freeEnt) : Insertable e' sym ent i where
  dictionary := h.dictionary.congr hht hfree
  wf := hht ▸ h.wf
  codes := by
    unfold CodesInRange
    rw [slot_congr hht, hfree]
    exact h.codes
  low := hfree ▸ h.low
  room := hfree ▸ h.room
  symbol := h.symbol
  pre := hfree ▸ h.pre
  missed := (lookup_congr hht).trans h.missed

/-- A symbol keeps the dictionary well formed. -/
theorem Consumed.dictionaryWf (h : Consumed x s t) (hx : x < 4) (hranges : EngineRanges Config.hw s.eng)
    (hdict : DictionaryWf Config.hw s.eng) (hwf : Memory.wf unlistedSlot s.eng.ht = true) :
    DictionaryWf Config.hw t.eng := by
  cases h with
  | first => exact hdict.congr rfl rfl
  | hit => exact hdict.congr rfl rfl
  | @inserted i u hhave hlookup hroom hemit =>
    obtain ⟨-, -, hfree, -, hht⟩ := hemit.frame
    have hins := insertable_of_ranges hranges hdict hwf hhave hx hlookup hroom
    exact (hins.congr (e' := u.eng.setEnt x) hht hfree).dictionaryWf
  | @cleared i u v => exact dictionaryWf_of_empty (clearValid_slot_valid v.eng) rfl

/-- Settles O41: of what a step can do to the engine, LZW_BEGIN empties the dictionary and LZW_SYMBOL inserts one pair
at most. -/
theorem stepKeepsDictionaryInOrder : Obligations.StepKeepsDictionaryInOrder := by
  intro s t hcanon hrange hdict h
  have hwf := memoriesWf_of_canonical hcanon
  refine step_keeps_of_active h hdict (dictionaryWf_of_empty (clearValid_slot_valid s.eng) rfl)
    fun u x hu hactive hx hrun => ?_
  have hranges := hrange hactive
  have hdict' := hdict hactive
  rw [← hu] at hranges hwf hdict'
  exact (lzwSymbol_consumed hranges hwf.2 hrun).dictionaryWf hx hranges hdict' hwf.1

/-- The search of an engine in range with a well-formed dictionary ends, so a symbol completes. -/
theorem lzwSymbol_list_isOk (hranges : EngineRanges Config.hw s.eng) (hdict : DictionaryWf Config.hw s.eng)
    (hx : x < 4) : (lzwSymbol Config.hw .list x s).IsOk := by
  refine (lzwSymbol_list_total Config.hw x s).resolve_right fun hendless => ?_
  cases hhave : s.eng.haveEnt with
  | false =>
    rw [lzwSymbol_first hhave] at hendless
    cases hendless
  | true =>
    obtain ⟨⟨hit, i⟩, hlookup⟩ := hdict.exists_lookup hranges.codesInRange hranges.free_high (sym := x) (by omega)
      s.eng.ent.isLt
    cases hit with
    | true =>
      rw [lzwSymbol_hit hhave hlookup] at hendless
      cases hendless
    | false =>
      rw [lzwSymbol_missed hhave hlookup] at hendless
      obtain ⟨t, ht⟩ := lzwMiss_list_isOk Config.hw x i s
      cases ht.symm.trans hendless

/-- Settles O46: the symbol completes, and of all it can do only the miss with room fits the hypotheses. -/
theorem lzwMissInsertsPair : Obligations.LzwMissInsertsPair := by
  intro s sym hcanon hactive hhave hsym hranges hdict hnone hroom
  obtain ⟨hwf, hwf'⟩ := memoriesWf_of_canonical hcanon
  obtain ⟨v, hrun⟩ := lzwSymbol_list_isOk hranges hdict hsym
  have hnext : exec (.lzwSymbol sym) s = .next v := by
    rw [exec_lzwSymbol_of_active hactive hsym, hrun, engineOutcome]
  cases lzwSymbol_consumed hranges hwf' hrun with
  | first hfirst =>
    rw [hhave] at hfirst
    cases hfirst
  | hit _ hlookup => exact absurd (hasEntry_of_lookup sym.isLt s.eng.ent.isLt hlookup) (hnone _)
  | cleared _ _ hfull => exact absurd hroom hfull
  | @inserted i t _ hlookup _ hemit =>
    obtain ⟨-, hhavet, hfree, hactivet, hht⟩ := hemit.frame
    have hins := (insertable_of_ranges hranges hdict hwf hhave hsym hlookup hroom).congr
      (e' := t.eng.setEnt sym.toNat) hht hfree
    have hfree' : (t.eng.setEnt sym.toNat).freeEnt.toNat = s.eng.freeEnt.toNat := congrArg BitVec.toNat hfree
    have hclear : s.eng.ent.toNat ≠ 4 := (hranges.coder_inRange hhave).ent_ne_clear
    have hwidth := hemit.width
    rw [nextWidth_hw, if_neg hclear] at hwidth
    refine ⟨_, i, hnext, hlookup, setEnt_ent_toNat (e := t.eng) (by omega), hhavet.trans hhave,
      hactivet.trans hactive, ?_, ?_, ?_, ?_, ?_, fun k hk => ?_, hwidth⟩
    · rw [setEng_eng, insert_freeEnt_toNat hins.room, hfree']
    · rw [setEng_eng, insert_slot_same hins.wf]
    · rw [setEng_eng, insert_slot_same hins.wf, newSlot_prefixCode hins.sym_lt hins.ent_lt]
    · rw [setEng_eng, insert_slot_same hins.wf, newSlot_symbol hins.sym_lt hins.ent_lt]
    · rw [setEng_eng, insert_slot_same hins.wf]
      exact (newCode_toNat hins.room).trans hfree'
    · rw [setEng_eng, insert_slot_ne _ hk]
      exact congrFun (slot_congr (e' := t.eng.setEnt sym.toNat) hht) k

end

end Sys2Proof.Machine

/-! ### A tick of the capture controller (43_capture_contract.md R231) -/

namespace Sys2Proof.Machine

/-- ADDFRAME's command word for one whole frame. -/
theorem commandWord_addframe_npix : commandWord 2 Config.hw.npix = 0x00200002#32 := rfl

/-- ONESHOT's command word for one whole frame. -/
theorem commandWord_oneshot_npix : commandWord 4 Config.hw.npix = 0x00200004#32 := rfl

/-- A tick puts what it expands to in front of the host's remaining moves. -/
theorem step_of_tick {s : State} {rest : List HostMove} (h : s.env.inbox = .tick :: rest) :
    step s = .next (s.setInbox (tickMoves Config.hw s.env.controller ++ rest)) :=
  step_of_hostMove_done h rfl

/-- Settles O13: the expansion is `tickMoves`, with its two command words evaluated. -/
theorem tickExpansion : Obligations.TickExpansion := by
  refine fun s rest htick => ⟨?_, fun _ hclear => step_of_hostMove_done hclear rfl⟩
  rw [step_of_tick htick, tickMoves, commandWord_addframe_npix, commandWord_oneshot_npix, List.append_assoc]
  rfl

end Sys2Proof.Machine

/-! ### Commands rejected before their first request (60_exceptions.md R243 to R245) -/

namespace Sys2Proof.Machine

section
variable {s : State} {len : BitVec 24}

theorem startSession_of_started (h : s.fmt.sess = .started) : startSession s = failCommand .alreadyStarted s := by
  simp only [startSession, h]

theorem addFrame_of_idle (c : Config) (len : BitVec 24) (h : s.fmt.sess = .idle) :
    addFrame c len s = some (failCommand .notStarted s) := by
  simp only [addFrame, h]

theorem finishSession_of_idle (h : s.fmt.sess = .idle) : finishSession s = failCommand .notStarted s := by
  simp only [finishSession, h]

theorem lenMatches_hw_of_ne (h : len.toNat ≠ 8192) : lenMatches Config.hw len = false :=
  decide_eq_false h

theorem addFrame_of_wrong_len (hstarted : s.fmt.sess = .started) (hlen : len.toNat ≠ 8192) :
    addFrame Config.hw len s = some (failCommand .sizeMismatch s) := by
  simp only [addFrame, hstarted, lenMatches_hw_of_ne hlen, Bool.false_eq_true, if_false]

theorem oneShot_of_wrong_len (hlen : len.toNat ≠ 8192) :
    oneShot Config.hw len s = some (failCommand .sizeMismatch s) := by
  simp only [oneShot, lenMatches_hw_of_ne hlen, Bool.false_eq_true, if_false]

/-- A command that fails before its first request ends, though the host may answer no request from now on. -/
theorem settle_rejected (hn : s.env.answersNext 0) (cause : Cause) :
    settle s (failCommand cause s) = .next (failCommand cause s) :=
  settle_after (tr := []) hn (List.append_nil _).symm

/-- The same for ADDFRAME and ONESHOT, at whose end the host's writes in flight land (log 11). -/
theorem frameOutcome_rejected (hn : s.env.answersNext 0) (cause : Cause) :
    frameOutcome s (some (failCommand cause s)) = .next (landRaces (failCommand cause s)) :=
  frameOutcome_after (tr := []) hn (List.append_nil _).symm

end

/-- Settles O17: in `Started` START is rejected before it reads `PATH`. -/
theorem startWhileStartedFails : Obligations.StartWhileStartedFails := by
  intro s len hstarted hn
  rw [exec, execStart, startSession_of_started hstarted]
  exact settle_rejected hn .alreadyStarted

/-- Settles O21: the session is tested before `LEN`, and before any request. -/
theorem rejectedWithoutSession : Obligations.RejectedWithoutSession := by
  intro s len hidle hn
  constructor
  · rw [exec, execAddframe, addFrame_of_idle Config.hw len hidle]
    exact frameOutcome_rejected hn .notStarted
  · rw [exec, execFinish, finishSession_of_idle hidle]
    exact settle_rejected hn .notStarted

/-- Settles O22: `LEN` is tested before any request and before the first pixel is read. -/
theorem sizeMismatchChangesNothing : Obligations.SizeMismatchChangesNothing := by
  intro s len hlen hn
  refine ⟨fun hstarted => ?_, fun hshared => ?_⟩
  · rw [exec, execAddframe, addFrame_of_wrong_len hstarted hlen]
    exact frameOutcome_rejected hn .sizeMismatch
  · rw [execOneshot_eq hshared, oneShot_of_wrong_len hlen]
    exact frameOutcome_rejected hn .sizeMismatch

end Sys2Proof.Machine

/-! ### `IOFailure` and the answer `fail` (60_exceptions.md R240, R241) -/

namespace Sys2Proof.Machine

/-- From the log `l` to the log `l'` a request was answered `fail`. -/
def FailedSince (l l' : Transcript) : Prop := ∃ tr, l' = l ++ tr ∧ ∃ p ∈ tr, p.2 = false

/-- The requests before do not matter. -/
theorem FailedSince.of_prefix {l l' l'' : Transcript} (hl : l <+: l') (h : FailedSince l' l'') : FailedSince l l'' := by
  obtain ⟨before, rfl⟩ := hl
  obtain ⟨tr, rfl, p, hp, hfail⟩ := h
  exact ⟨before ++ tr, List.append_assoc .., p, List.mem_append_right before hp, hfail⟩

/-- The requests after do not matter. -/
theorem FailedSince.extend {l l' l'' : Transcript} (h : FailedSince l l') (hl : l' <+: l'') : FailedSince l l'' := by
  obtain ⟨tr, rfl, p, hp, hfail⟩ := h
  obtain ⟨later, rfl⟩ := hl
  exact ⟨tr ++ later, List.append_assoc .., p, List.mem_append_left later hp, hfail⟩

section
variable {s t : State}

theorem log_of_sinkReq {r : Request} {ok : Bool} (h : sinkReq r s = (ok, t)) :
    t.env.log = s.env.log ++ [(r, ok)] := by
  cases h
  rfl

theorem prefix_of_sinkReq {r : Request} {ok : Bool} (h : sinkReq r s = (ok, t)) : s.env.log <+: t.env.log :=
  ⟨_, (log_of_sinkReq h).symm⟩

theorem sinkReq_prefix (r : Request) (s : State) : s.env.log <+: (sinkReq r s).2.env.log := prefix_of_sinkReq rfl

theorem failedSince_of_sinkReq {r : Request} (h : sinkReq r s = (false, t)) : FailedSince s.env.log t.env.log :=
  ⟨_, log_of_sinkReq h, (r, false), List.mem_singleton_self _, rfl⟩

/-- `Write` that stops short has met an answer `fail` (20_memory.md R72). -/
theorem failedSince_of_writeAll {ctx : Ctx} {bytes : List Byte} (h : writeAll ctx bytes s = (false, t)) :
    FailedSince s.env.log t.env.log := by
  induction bytes generalizing s with
  | nil => cases h
  | cons b bytes ih =>
    rcases hb : sinkReq (.write ctx b) s with ⟨_ | _, u⟩
    · simp only [writeAll, hb] at h
      cases h
      exact failedSince_of_sinkReq hb
    · simp only [writeAll, hb] at h
      exact (ih h).of_prefix (prefix_of_sinkReq hb)

end

/-- The operation, begun when the log was `l`, takes no request back, and raises only after an answer `fail`. -/
def Res.RaisesOnFail (l : Transcript) : Res → Prop
  | .ok t => l <+: t.env.log
  | .raised t => FailedSince l t.env.log
  | .endless => True

theorem Res.RaisesOnFail.bind {l : Transcript} {r : Res} {f : State → Res} (hr : r.RaisesOnFail l)
    (hf : ∀ t, (f t).RaisesOnFail t.env.log) : (r.bind f).RaisesOnFail l := by
  cases r with
  | ok t =>
    have hl : l <+: t.env.log := hr
    have hrest := hf t
    rw [Res.bind_ok]
    generalize f t = rest at hrest ⊢
    cases rest with
    | ok u => exact hl.trans hrest
    | raised u => exact FailedSince.of_prefix hl hrest
    | endless => trivial
  | raised t => exact hr
  | endless => trivial

/-- Completing with the log as it is. -/
theorem Res.raisesOnFail_ok (s : State) : (Res.ok s).RaisesOnFail s.env.log := List.prefix_rfl

section
variable (c : Config) (port : Port)

theorem out_raisesOnFail (bytes : List Byte) (s : State) : (out port bytes s).RaisesOnFail s.env.log := by
  cases port with
  | list => exact List.prefix_rfl
  | sink ctx =>
    rcases hw : writeAll ctx bytes s with ⟨_ | _, t⟩
    · simp only [out, hw]
      exact failedSince_of_writeAll hw
    · obtain ⟨tr, -, rfl⟩ := requested_of_writeAll hw
      simp only [out, hw]
      exact List.prefix_append _ _

theorem flushPacket_raisesOnFail (s : State) : (flushPacket port s).RaisesOnFail s.env.log := by
  unfold flushPacket
  split
  · exact Res.raisesOnFail_ok s
  · exact (out_raisesOnFail port _ s).bind fun t => Res.raisesOnFail_ok t

theorem flushIfFull_raisesOnFail (s : State) : (flushIfFull c port s).RaisesOnFail s.env.log := by
  unfold flushIfFull
  split
  · exact flushPacket_raisesOnFail port s
  · exact Res.raisesOnFail_ok s

theorem pushByte_raisesOnFail (b : Byte) (s : State) : (pushByte c port b s).RaisesOnFail s.env.log :=
  flushIfFull_raisesOnFail c port _

theorem peelBytes_raisesOnFail (n : Nat) (s : State) : (peelBytes c port n s).RaisesOnFail s.env.log := by
  induction n generalizing s with
  | zero => exact Res.raisesOnFail_ok s
  | succ n ih => exact (pushByte_raisesOnFail c port _ s).bind fun t => ih _

theorem emit_raisesOnFail (v : Nat) (s : State) : (emit c port v s).RaisesOnFail s.env.log :=
  (peelBytes_raisesOnFail c port _ (s.setEng _)).bind fun t => Res.raisesOnFail_ok t

theorem lzwBegin_raisesOnFail (s : State) : (lzwBegin c port s).RaisesOnFail s.env.log :=
  (out_raisesOnFail port _ s).bind fun t => emit_raisesOnFail c port _ (t.setEng _)

theorem lzwMiss_raisesOnFail (sym i : Nat) (s : State) : (lzwMiss c port sym i s).RaisesOnFail s.env.log := by
  refine (emit_raisesOnFail c port _ s).bind fun t => ?_
  split
  · exact Res.raisesOnFail_ok t
  · exact (emit_raisesOnFail c port _ (t.setEng _)).bind fun u => Res.raisesOnFail_ok u

theorem lzwSymbol_raisesOnFail (sym : Nat) (s : State) : (lzwSymbol c port sym s).RaisesOnFail s.env.log := by
  unfold lzwSymbol
  split
  · split
    · trivial
    · exact Res.raisesOnFail_ok s
    · exact lzwMiss_raisesOnFail c port sym _ s
  · exact Res.raisesOnFail_ok s

theorem flushBits_raisesOnFail (s : State) : (flushBits c port s).RaisesOnFail s.env.log := by
  unfold flushBits
  split
  · exact Res.raisesOnFail_ok s
  · exact (pushByte_raisesOnFail c port _ s).bind fun t => Res.raisesOnFail_ok t

theorem lzwEnd_raisesOnFail (s : State) : (lzwEnd c port s).RaisesOnFail s.env.log :=
  (emit_raisesOnFail c port _ s).bind fun t1 => (emit_raisesOnFail c port _ t1).bind fun t2 =>
    (flushBits_raisesOnFail c port t2).bind fun t3 => (flushPacket_raisesOnFail port t3).bind fun t4 =>
      Res.raisesOnFail_ok t4

theorem readPixel_log (i : Nat) (s : State) : (readPixel i s).2.env.log = s.env.log :=
  (SameButCoding.readPixel i s).log

theorem frameLoop_raisesOnFail (n : Nat) (s : State) : (frameLoop c port n s).RaisesOnFail s.env.log := by
  induction n generalizing s with
  | zero => exact Res.raisesOnFail_ok s
  | succ n ih =>
    have hsymbol := lzwSymbol_raisesOnFail c port (quantize c (readPixel s.pixIdx.toNat s).1).toNat
      (readPixel s.pixIdx.toNat s).2
    rw [readPixel_log] at hsymbol
    exact hsymbol.bind fun t => ih _

variable (ctx : Ctx)

theorem encodeFrame_raisesOnFail (s : State) : (encodeFrame c ctx s).RaisesOnFail s.env.log :=
  (lzwBegin_raisesOnFail c _ s).bind fun t1 => (frameLoop_raisesOnFail c _ _ (t1.setPixIdx _)).bind fun t2 =>
    (lzwEnd_raisesOnFail c _ t2).bind fun t3 => out_raisesOnFail _ _ t3

theorem writeHeader_raisesOnFail (s : State) : (writeHeader c s).RaisesOnFail s.env.log := by
  unfold writeHeader
  split
  · exact (out_raisesOnFail _ _ s).bind fun t1 => (out_raisesOnFail _ _ t1).bind fun t2 => Res.raisesOnFail_ok t2
  · exact Res.raisesOnFail_ok s

theorem writeFrame_raisesOnFail (s : State) : (writeFrame c s).RaisesOnFail s.env.log :=
  (writeHeader_raisesOnFail c s).bind fun t1 => (out_raisesOnFail _ _ t1).bind fun t2 =>
    (out_raisesOnFail _ _ t2).bind fun t3 => encodeFrame_raisesOnFail c _ t3

theorem writeDocument_raisesOnFail (s : State) : (writeDocument c s).RaisesOnFail s.env.log :=
  (out_raisesOnFail _ _ s).bind fun t1 => (out_raisesOnFail _ _ t1).bind fun t2 =>
    (out_raisesOnFail _ _ t2).bind fun t3 => (out_raisesOnFail _ _ t3).bind fun t4 =>
      (encodeFrame_raisesOnFail c _ t4).bind fun t5 => out_raisesOnFail _ _ t5

end

end Sys2Proof.Machine

/-! ### The cause a command reports (60_exceptions.md R240) -/

namespace Sys2Proof.Machine

/-- R240's table: the cause that a command begun in `s` reports, with its condition and the log at its end. -/
inductive Reports (s : State) : Instr → Cause → Transcript → Prop
  | completed {i l} : Reports s i .none l
  | alreadyStarted {len} (hstarted : s.fmt.sess = .started) : Reports s (.start len) .alreadyStarted s.env.log
  | addframeNotStarted {len} (hidle : s.fmt.sess = .idle) : Reports s (.addframe len) .notStarted s.env.log
  | finishNotStarted {len} (hidle : s.fmt.sess = .idle) : Reports s (.finish len) .notStarted s.env.log
  | addframeSize {len} (hlen : len.toNat ≠ 8192) : Reports s (.addframe len) .sizeMismatch s.env.log
  | oneshotSize {len} (hlen : len.toNat ≠ 8192) : Reports s (.oneshot len) .sizeMismatch s.env.log
  | ioFailure {i l} (hfail : FailedSince s.env.log l) : Reports s i .ioFailure l

/-- The failure of a command after an answer `fail` (R241). -/
theorem failCommand_reports {i : Instr} {s t : State} (h : FailedSince s.env.log t.env.log) :
    Reports s i (failCommand .ioFailure t).fmt.lastCause (failCommand .ioFailure t).env.log :=
  .ioFailure h

theorem startSession_reports (len : BitVec 24) (s : State) :
    Reports s (.start len) (startSession s).fmt.lastCause (startSession s).env.log := by
  cases hsess : s.fmt.sess with
  | started =>
    rw [startSession_of_started hsess]
    exact .alreadyStarted hsess
  | idle =>
    rcases hopen : sinkReq (.openSink .session s.path) s with ⟨_ | _, t⟩
    · simp only [startSession, hsess, hopen]
      exact failCommand_reports (failedSince_of_sinkReq hopen)
    · rcases hsig : writeAll .session sigBytes t with ⟨_ | _, u⟩
      · have hfail := (failedSince_of_writeAll hsig).of_prefix (prefix_of_sinkReq hopen)
        simp only [startSession, hsess, hopen, startOpened, hsig]
        exact failCommand_reports (hfail.extend (sinkReq_prefix _ u))
      · simp only [startSession, hsess, hopen, startOpened, hsig]
        exact .completed

theorem addFrame_reports {len : BitVec 24} {s t : State} (h : addFrame Config.hw len s = some t) :
    Reports s (.addframe len) t.fmt.lastCause t.env.log := by
  cases hsess : s.fmt.sess with
  | idle =>
    cases (addFrame_of_idle Config.hw len hsess).symm.trans h
    exact .addframeNotStarted hsess
  | started =>
    by_cases hlen : len.toNat = 8192
    · have hrun := writeFrame_raisesOnFail Config.hw s
      simp only [addFrame, hsess, lenMatches_hw hlen, if_true] at h
      generalize writeFrame Config.hw s = r at h hrun
      cases r with
      | ok u =>
        cases h
        exact .completed
      | raised u =>
        cases h
        exact .ioFailure hrun
      | endless => cases h
    · cases (addFrame_of_wrong_len hsess hlen).symm.trans h
      exact .addframeSize hlen

/-- CLOSE or RENAME was answered `fail`, if all was well before (41_gif_formatter.md R160). -/
theorem failedSince_of_finishClose {s t : State} (h : finishClose true s = (false, t)) :
    FailedSince s.env.log t.env.log := by
  rcases hclose : sinkReq (.close .session) s with ⟨_ | _, u⟩
  · simp only [finishClose, hclose, Bool.and_false] at h
    cases h
    exact failedSince_of_sinkReq hclose
  · simp only [finishClose, hclose, Bool.and_self] at h
    exact (failedSince_of_sinkReq h).of_prefix (prefix_of_sinkReq hclose)

theorem prefix_of_finishClose {ok okAll : Bool} {s t : State} (h : finishClose ok s = (okAll, t)) :
    s.env.log <+: t.env.log := by
  obtain ⟨tr, -, rfl⟩ := requested_of_finishClose h
  exact List.prefix_append _ _

theorem finishSession_reports (len : BitVec 24) (s : State) :
    Reports s (.finish len) (finishSession s).fmt.lastCause (finishSession s).env.log := by
  cases hsess : s.fmt.sess with
  | idle =>
    rw [finishSession_of_idle hsess]
    exact .finishNotStarted hsess
  | started =>
    rcases hwrite : sinkReq (.write .session trailerByte) s with ⟨ok, t⟩
    rcases hclose : finishClose ok t with ⟨_ | _, u⟩
    · have hfail : FailedSince s.env.log u.env.log := by
        cases ok with
        | false => exact (failedSince_of_sinkReq hwrite).extend (prefix_of_finishClose hclose)
        | true => exact (failedSince_of_finishClose hclose).of_prefix (prefix_of_sinkReq hwrite)
      simp only [finishSession, hsess, hwrite, hclose, finishEnd]
      exact failCommand_reports (hfail.extend (sinkReq_prefix _ u))
    · simp only [finishSession, hsess, hwrite, hclose]
      exact .completed

theorem oneShotEnd_reports {i : Instr} {s t : State} {r : Res} (hr : r.RaisesOnFail s.env.log)
    (h : oneShotEnd r = some t) : Reports s i t.fmt.lastCause t.env.log := by
  cases r with
  | ok u =>
    rcases hclose : sinkReq (.close .oneshot) u with ⟨_ | _, v⟩
    · simp only [oneShotEnd, hclose] at h
      cases h
      have hfail := (failedSince_of_sinkReq hclose).of_prefix hr
      exact failCommand_reports (hfail.extend (sinkReq_prefix _ v))
    · simp only [oneShotEnd, hclose] at h
      cases h
      exact .completed
  | raised u =>
    cases h
    have hclosed : FailedSince s.env.log (sinkReq (.close .oneshot) (abandonEngine u)).2.env.log :=
      FailedSince.extend hr (sinkReq_prefix _ (abandonEngine u))
    exact failCommand_reports (hclosed.extend (sinkReq_prefix _ _))
  | endless => cases h

theorem oneShot_reports {len : BitVec 24} {s t : State} (h : oneShot Config.hw len s = some t) :
    Reports s (.oneshot len) t.fmt.lastCause t.env.log := by
  by_cases hlen : len.toNat = 8192
  · rcases hopen : sinkReq (.openSink .oneshot s.path) s with ⟨_ | _, u⟩
    · simp only [oneShot, lenMatches_hw hlen, if_true, hopen] at h
      cases h
      exact failCommand_reports (failedSince_of_sinkReq hopen)
    · simp only [oneShot, lenMatches_hw hlen, if_true, hopen] at h
      have hopened : (Res.ok u).RaisesOnFail s.env.log := prefix_of_sinkReq hopen
      exact oneShotEnd_reports (hopened.bind fun v => writeDocument_raisesOnFail Config.hw v) h
  · cases (oneShot_of_wrong_len hlen).symm.trans h
    exact .oneshotSize hlen

/-- A command, where it answers a next state, reports a cause of the table. -/
theorem exec_reports {i : Instr} {s t : State} {len : BitVec 24}
    (hi : i ∈ [Instr.start len, .addframe len, .finish len, .oneshot len]) (h : exec i s = .next t) :
    Reports s i t.fmt.lastCause t.env.log := by
  simp only [List.mem_cons, List.not_mem_nil, or_false] at hi
  obtain rfl | rfl | rfl | rfl := hi
  · obtain rfl := settle_eq_next h
    exact startSession_reports len s
  · obtain ⟨u, hu, rfl⟩ := frameOutcome_eq_next h
    have hreports : Reports s _ u.fmt.lastCause u.env.log := addFrame_reports hu
    exact hreports
  · obtain rfl := settle_eq_next h
    exact finishSession_reports len s
  · obtain ⟨u, hu, rfl⟩ := execOneshot_next h
    have hreports : Reports s _ u.fmt.lastCause u.env.log := oneShot_reports hu
    exact hreports

/-- Settles O30: each clause reads off the row of the table that has its cause. -/
theorem causesAndTheirConditions : Obligations.CausesAndTheirConditions := by
  intro s t len i hi h
  have hreports := exec_reports hi h
  generalize t.fmt.lastCause = cause at hreports ⊢
  generalize t.env.log = l at hreports ⊢
  cases hreports with
  | completed => exact ⟨nofun, nofun, nofun, nofun, nofun⟩
  | alreadyStarted hstarted => exact ⟨fun _ => ⟨by simpa using hi, hstarted, rfl⟩, nofun, nofun, nofun, nofun⟩
  | addframeNotStarted hidle => exact ⟨nofun, fun _ => ⟨by simpa using hi, hidle, rfl⟩, nofun, nofun, nofun⟩
  | finishNotStarted hidle => exact ⟨nofun, fun _ => ⟨by simpa using hi, hidle, rfl⟩, nofun, nofun, nofun⟩
  | addframeSize hlen =>
    obtain rfl : _ = len := by simpa using hi
    exact ⟨nofun, nofun, fun _ => ⟨.inl rfl, hlen, rfl⟩, nofun, nofun⟩
  | oneshotSize hlen =>
    obtain rfl : _ = len := by simpa using hi
    exact ⟨nofun, nofun, fun _ => ⟨.inr rfl, hlen, rfl⟩, nofun, nofun⟩
  | ioFailure hfail => exact ⟨nofun, nofun, nofun, fun _ => hfail, nofun⟩

end Sys2Proof.Machine

/-! ### Every command ends where the host answers, and with no move nothing happens (70_reset_and_hazards.md R272, R278) -/

namespace Sys2Proof.Machine

/-- Settles O8: with an empty inbox the step fetches nothing to run. -/
theorem idleUntilInput : Obligations.IdleUntilInput := fun _ h => step_of_inbox_nil h

section
variable {s : State}

/-! #### No probe of a frame is endless (42_lzw_engine.md R189) -/

/-- An operation that sends a known run of bytes completes or raises. -/
theorem Produces.ne_endless {port : Port} {bytes : List Byte} {Q : State → Prop} {r : Res}
    (h : Produces port bytes Q s r) : r ≠ .endless := by
  cases h <;> nofun

theorem writeFrame_ne_endless (hwf : s.eng.MemoriesWf) : writeFrame Config.hw s ≠ .endless := by
  rw [writeFrame_eq, writeHeader_eq, Res.bind_assoc]
  rcases out_sink_cases .session (headerBytes s.fmt.firstPending) s with ⟨-, hout⟩ | ⟨k, -, -, hout⟩
  · rw [hout, Res.bind_ok, Res.bind_ok]
    exact Produces.ne_endless (writeRecord_produces (s := s) ⟨rfl, rfl, rfl⟩ hwf)
  · rw [hout]
    nofun

theorem writeDocument_ne_endless (hwf : s.eng.MemoriesWf) : writeDocument Config.hw s ≠ .endless :=
  (writeDocument_produces (s := s) ⟨rfl, rfl, rfl⟩ hwf).ne_endless

/-! #### The ends of the commands -/

theorem exists_addFrameEnd {r : Res} (h : r ≠ .endless) : ∃ t, addFrameEnd r = some t := by
  cases r with
  | ok t => exact ⟨_, rfl⟩
  | raised t => exact ⟨_, rfl⟩
  | endless => exact absurd rfl h

theorem exists_oneShotEnd {r : Res} (h : r ≠ .endless) : ∃ t, oneShotEnd r = some t := by
  cases r with
  | ok t =>
    rcases hclose : sinkReq (.close .oneshot) t with ⟨_ | _, u⟩
    · exact ⟨_, by rw [oneShotEnd, hclose]⟩
    · exact ⟨_, by rw [oneShotEnd, hclose]⟩
  | raised t => exact ⟨_, rfl⟩
  | endless => exact absurd rfl h

theorem exists_addFrame (hwf : s.eng.MemoriesWf) (len : BitVec 24) : ∃ t, addFrame Config.hw len s = some t := by
  unfold addFrame
  split
  · exact ⟨_, rfl⟩
  · split
    · exact exists_addFrameEnd (writeFrame_ne_endless hwf)
    · exact ⟨_, rfl⟩

theorem exists_oneShot (hwf : s.eng.MemoriesWf) (len : BitVec 24) : ∃ t, oneShot Config.hw len s = some t := by
  unfold oneShot
  split
  · rcases hopen : sinkReq (.openSink .oneshot s.path) s with ⟨_ | _, u⟩
    · exact ⟨_, rfl⟩
    · have heng : u.eng = s.eng := (requested_of_sinkReq hopen).eng
      exact exists_oneShotEnd (writeDocument_ne_endless (heng ▸ hwf))
  · exact ⟨_, rfl⟩

theorem settle_of_unanswered_none (h : s.env.unanswered = none) (t : State) : settle s t = .next t := by
  rw [settle, h]

theorem exists_frameOutcome {r : Option State} (h : s.env.unanswered = none) (hr : ∃ t, r = some t) :
    ∃ t, frameOutcome s r = .next t := by
  obtain ⟨t, rfl⟩ := hr
  exact ⟨_, settle_of_unanswered_none h _⟩

end

/-- Settles O36: a command stalls only at an unanswered request, and the frame of ADDFRAME and ONESHOT, which starts from
a dictionary that LZW_BEGIN has emptied, completes or raises. -/
theorem commandsCompleteWhenAnswered : Obligations.CommandsCompleteWhenAnswered := by
  intro s len hcanon hanswered
  have hwf : s.eng.MemoriesWf := memoriesWf_of_canonical hcanon
  refine ⟨?_, fun hshared => ?_⟩
  · simp only [List.forall_mem_cons]
    exact ⟨⟨_, settle_of_unanswered_none hanswered _⟩, exists_frameOutcome hanswered (exists_addFrame hwf len),
      ⟨_, settle_of_unanswered_none hanswered _⟩, nofun⟩
  · rw [execOneshot_eq hshared]
    exact exists_frameOutcome hanswered (exists_oneShot hwf len)

end Sys2Proof.Machine
